-- ==== Sys2Proof/Word.lean ====
section
/-! DEFINITION. The value types of the block's ports: the integer types of rule R16, the number formats and
real-valued signals of rule R17, and the small bundles the port list of rule R28 groups them into. -/

namespace Sys2Proof

/-! ### Integer port types (R16)

An unsigned type `UN` is a bit vector read with `toNat`. A signed type `SN` is a bit vector read with `toInt`: it is
"carried on an N-bit port in two's complement". -/

abbrev U2 := BitVec 2
abbrev U3 := BitVec 3
abbrev U4 := BitVec 4
abbrev U5 := BitVec 5
abbrev U7 := BitVec 7
abbrev U8 := BitVec 8
abbrev U9 := BitVec 9
abbrev U64 := BitVec 64
abbrev S5 := BitVec 5
abbrev S64 := BitVec 64

/-! ### Real-valued signals (R17) -/

/-- `REAL_FMT` (R6, R17): the number system of every real-valued signal. -/
inductive RealFmt where
  | exact      -- the rationals, arithmetic exact (the spec's default)
  | binary32   -- IEEE 754 binary32, round to nearest even at every operation
  | binary64   -- IEEE 754 binary64, round to nearest even at every operation
deriving DecidableEq, Repr

/-- A value on a `Real` port. Under `exact` only `num` occurs (R17: "`Real` is the field of rational numbers").
Under a floating-point format a finite value is `num q` with `q` representable, or the second zero; the infinities
and one NaN stand beside them (`93_implementation_defined.md` IU6). -/
inductive RealVal where
  | num (q : Rat)
  | negZero
  | inf (negative : Bool)
  | nan
deriving DecidableEq, Repr

/-- A finite value has a rational value; an infinity or a NaN has none. -/
def RealVal.value? : RealVal → Option Rat
  | .num q => some q
  | .negZero => some 0
  | .inf _ => none
  | .nan => none

/-- The value is finite. -/
def RealVal.isFinite (x : RealVal) : Bool := x.value?.isSome

/-! ### Bundles of ports (R28, R66) -/

/-- Four values at the block positions 0..3: top-left, top-right, bottom-left, bottom-right (R111). -/
structure Quad (α : Type) where
  at0 : α
  at1 : α
  at2 : α
  at3 : α
deriving DecidableEq, Repr

/-- The same function at each of the four positions. -/
def Quad.map {α β : Type} (f : α → β) (v : Quad α) : Quad β := ⟨f v.at0, f v.at1, f v.at2, f v.at3⟩

/-- The same value at each of the four positions: a uniform block. -/
def Quad.all {α : Type} (x : α) : Quad α := ⟨x, x, x, x⟩

/-- The four values in index order. -/
def Quad.toList {α : Type} (v : Quad α) : List α := [v.at0, v.at1, v.at2, v.at3]

/-- A tri-stimulus pixel: three 8-bit channel samples (R19, R28 `px`). -/
structure Pixel where
  r : U8
  g : U8
  b : U8
deriving DecidableEq, Repr

/-- A luma/chroma triple (R28 `ypp_o`). -/
structure Ypp where
  y : RealVal
  pb : RealVal
  pr : RealVal
deriving DecidableEq, Repr

/-- The four coefficients of a block: DC and three gradients (R28 `coef`). -/
structure Coef where
  a : RealVal
  b : RealVal
  c : RealVal
  d : RealVal
deriving DecidableEq, Repr

/-- One chroma pair: the block's mean (R114) or its representative (R28 `chroma_o`). -/
structure Chroma where
  pb : RealVal
  pr : RealVal
deriving DecidableEq, Repr

/-- The quantized block (R64): `b`, `c`, `d` are signed. -/
structure QBlock where
  a : U9
  b : S5
  c : S5
  d : S5
  pbIndex : U4
  prIndex : U4
deriving DecidableEq, Repr

/-- The six wide codes of the `pk` port (R28): `b`, `c`, `d` are signed. -/
structure Pk where
  a : U64
  b : S64
  c : S64
  d : S64
  pbIndex : U64
  prIndex : U64
deriving DecidableEq, Repr

end Sys2Proof
end

