-- ==== Sys2Proof/Machine/Reals.lean ====
section
/-! DEFINITION. Arithmetic on real-valued signals (R17): exact rationals, or one correctly rounded operation per
written operator under a floating-point `REAL_FMT` (round to nearest, ties to even). Log entry 4 says what is taken
from IEEE 754 for the floating-point formats. -/

namespace Sys2Proof.Reals

/-- Precision in bits of a floating-point format. -/
def precision : RealFmt → Int
  | .exact => 0
  | .binary32 => 24
  | .binary64 => 53

/-- Exponent of the largest binade of a floating-point format. -/
def maxExp : RealFmt → Int
  | .exact => 0
  | .binary32 => 127
  | .binary64 => 1023

/-- Exponent of the smallest normal binade of a floating-point format. -/
def minExp : RealFmt → Int
  | .exact => 0
  | .binary32 => -126
  | .binary64 => -1022

/-- `2^k` for an integer `k`. -/
def pow2 (k : Int) : Rat := if 0 ≤ k then ((2 ^ k.toNat : Nat) : Rat) else 1 / ((2 ^ (-k).toNat : Nat) : Rat)

/-- The exponent `e` with `2^e ≤ a < 2^(e+1)`, for `a > 0`. -/
def floorLog2 (a : Rat) : Int :=
  let k : Int := (Nat.log2 a.num.natAbs : Int) - (Nat.log2 a.den : Int)
  if pow2 k ≤ a then k else k - 1

/-- The integer nearest to `r`, a tie going to the even one. -/
def roundHalfEven (r : Rat) : Int :=
  let n := r.floor
  let rest := r - (n : Rat)
  if rest < 1 / 2 then n
  else if 1 / 2 < rest then n + 1
  else if n % 2 = 0 then n else n + 1

/-- The zero of the given sign: `exact` has one zero, a floating-point format has two. -/
def zero (f : RealFmt) (negative : Bool) : RealVal :=
  match f with
  | .exact => .num 0
  | .binary32 | .binary64 => if negative then .negZero else .num 0

/-- A nonzero rational rounded to a floating-point format, to nearest with ties to even; a magnitude that rounds to
`2^(maxExp+1)` or more becomes an infinity, one that rounds to zero keeps its sign. -/
def roundFloat (f : RealFmt) (q : Rat) : RealVal :=
  let negative : Bool := decide (q < 0)
  let a : Rat := if q < 0 then -q else q
  let ulp : Rat := pow2 (max (floorLog2 a) (minExp f) - (precision f - 1))
  let m : Rat := ((roundHalfEven (a / ulp) : Int) : Rat) * ulp
  if pow2 (maxExp f + 1) ≤ m then .inf negative
  else if m = 0 then zero f negative
  else .num (if negative then -m else m)

/-- A rational brought into the format (R17: "every literal is first rounded to the format"): itself under `exact`. -/
def lit (f : RealFmt) (q : Rat) : RealVal :=
  match f with
  | .exact => .num q
  | .binary32 => if q = 0 then .num 0 else roundFloat .binary32 q
  | .binary64 => if q = 0 then .num 0 else roundFloat .binary64 q

/-- An integer operand as a `Real` ("converted to `Real` exactly", R101, R124). -/
def ofInt (n : Int) : RealVal := .num (n : Rat)

/-- The sign bit of a value. -/
def signBit : RealVal → Bool
  | .num q => decide (q < 0)
  | .negZero => true
  | .inf negative => negative
  | .nan => false

/-- `−x`. -/
def neg (f : RealFmt) : RealVal → RealVal
  | .num q => if q = 0 then zero f true else .num (-q)
  | .negZero => .num 0
  | .inf negative => .inf (!negative)
  | .nan => .nan

/-- `abs(x) = x if x ≥ 0; −x otherwise` (R17), on every value of the format. -/
def abs : RealVal → RealVal
  | .num q => .num (if q < 0 then -q else q)
  | .negZero => .num 0
  | .inf _ => .inf false
  | .nan => .nan

/-- `x + y`. -/
def add (f : RealFmt) : RealVal → RealVal → RealVal
  | .nan, _ => .nan
  | .inf _, .nan => .nan
  | .inf a, .inf b => if a = b then .inf a else .nan
  | .inf a, .num _ => .inf a
  | .inf a, .negZero => .inf a
  | .num _, .nan => .nan
  | .num _, .inf b => .inf b
  | .num p, .num q => lit f (p + q)
  | .num p, .negZero => .num p
  | .negZero, .nan => .nan
  | .negZero, .inf b => .inf b
  | .negZero, .num q => .num q
  | .negZero, .negZero => .negZero

/-- `x − y`. -/
def sub (f : RealFmt) (x y : RealVal) : RealVal := add f x (neg f y)

/-- `x × y`. -/
def mul (f : RealFmt) (x y : RealVal) : RealVal :=
  match x.value?, y.value? with
  | some p, some q =>
    if p * q = 0 then zero f (signBit x != signBit y) else lit f (p * q)
  | some p, none =>
    match y with
    | .inf _ => if p = 0 then .nan else .inf (signBit x != signBit y)
    | _ => .nan
  | none, some q =>
    match x with
    | .inf _ => if q = 0 then .nan else .inf (signBit x != signBit y)
    | _ => .nan
  | none, none =>
    match x, y with
    | .inf a, .inf b => .inf (a != b)
    | _, _ => .nan

/-- `x / y`. Every divisor the rules write is a nonzero integer or literal (R90); a zero divisor is answered as
IEEE 754 does. -/
def div (f : RealFmt) (x y : RealVal) : RealVal :=
  match x.value?, y.value? with
  | some p, some q =>
    if q = 0 then (if p = 0 then .nan else .inf (signBit x != signBit y))
    else if p = 0 then zero f (signBit x != signBit y)
    else lit f (p / q)
  | some _, none =>
    match y with
    | .inf _ => zero f (signBit x != signBit y)
    | _ => .nan
  | none, some _ =>
    match x with
    | .inf _ => .inf (signBit x != signBit y)
    | _ => .nan
  | none, none => .nan

/-- `x < y`: false when either is a NaN; the two zeros are equal. -/
def lt : RealVal → RealVal → Bool
  | .nan, _ => false
  | .inf a, .inf b => a && !b
  | .inf a, .num _ => a
  | .inf a, .negZero => a
  | .inf _, .nan => false
  | .num p, .num q => decide (p < q)
  | .num p, .negZero => decide (p < 0)
  | .num _, .inf b => !b
  | .num _, .nan => false
  | .negZero, .num q => decide (0 < q)
  | .negZero, .negZero => false
  | .negZero, .inf b => !b
  | .negZero, .nan => false

/-- `clamp(x, lo, hi) = lo if x < lo; hi if x > hi; x otherwise` (R17). A NaN passes it. -/
def clamp (x lo hi : RealVal) : RealVal := if lt x lo then lo else if lt hi x then hi else x

/-- `clamp` on integers (R17). -/
def clampInt (n lo hi : Int) : Int := if n < lo then lo else if hi < n then hi else n

/-- `sign(x)` of a value, as an integer. -/
def signInt : RealVal → Int
  | .num q => if q < 0 then -1 else if q = 0 then 0 else 1
  | .negZero => 0
  | .inf negative => if negative then -1 else 1
  | .nan => 0

/-- `rha(x) = sign(x) × floor(|x| + 1/2)` (R17), round half away from zero. An infinity or a NaN has no floor, and
the answer is `none`. The `+` is one operation of the format. -/
def rha? (f : RealFmt) (x : RealVal) : Option Int :=
  match add f (abs x) (.num (1 / 2)) with
  | .num m => some (signInt x * m.floor)
  | .negZero => some 0
  | .inf _ => none
  | .nan => none

/-- The value belongs to the format: what a port of type `Real` can carry (R28: "The width in bits of a `Real` port is
fixed by `REAL_FMT`"). -/
def isOfFormat (f : RealFmt) (x : RealVal) : Bool :=
  match f, x with
  | .exact, .num _ => true
  | .exact, _ => false
  | _, .num q => decide (lit f q = .num q)
  | _, _ => true

/-- A finite magnitude `sig × 2^e` with a sign, in a floating-point format. -/
def assemble (f : RealFmt) (negative : Bool) (sig : Nat) (e : Int) : RealVal :=
  if sig = 0 then zero f negative
  else .num (if negative then -((sig : Rat) * pow2 e) else (sig : Rat) * pow2 e)

/-- The value a bit pattern stands for on a `Real` port: the low 32 bits under `binary32`, all 64 under `binary64`.
`exact` "has no bit encoding" (R28); there the pattern's integer stands for some rational (used only for the free
values of IU6, which `exact` never uses). -/
def ofBits (f : RealFmt) (w : BitVec 64) : RealVal :=
  match f with
  | .exact => .num (w.toInt : Rat)
  | .binary32 =>
    let s := w.getLsbD 31
    let ex := (w.extractLsb' 23 8).toNat
    let fr := (w.extractLsb' 0 23).toNat
    if ex = 255 then (if fr = 0 then .inf s else .nan)
    else if ex = 0 then assemble .binary32 s fr (-149)
    else assemble .binary32 s (fr + 2 ^ 23) ((ex : Int) - 150)
  | .binary64 =>
    let s := w.getLsbD 63
    let ex := (w.extractLsb' 52 11).toNat
    let fr := (w.extractLsb' 0 52).toNat
    if ex = 2047 then (if fr = 0 then .inf s else .nan)
    else if ex = 0 then assemble .binary64 s fr (-1074)
    else assemble .binary64 s (fr + 2 ^ 52) ((ex : Int) - 1075)

end Sys2Proof.Reals
end

