-- ==== Sys2Proof/Syntax.lean ====
section
/-! DEFINITION. The commands of the block (R4, R65, R66): one constructor per row of spec/opcode_table.json, each with
its operands in the order of rule R66; and the operand ports a command arrives on (R28). -/

namespace Sys2Proof

/-- The 17 commands with their operand records (R29 "the sum over the 17 commands of their operand records"). The
reserved `op` values of R68 select no operation and are no instruction: the decoder answers them by name. -/
inductive Instr where
  /-- R81: does `uval` fit in `width` unsigned bits. -/
  | fitsu (uval : U64) (width : U7)
  /-- R82: does `sval` fit in `width` signed bits. -/
  | fitss (sval : S64) (width : U7)
  /-- R83: unsigned field extraction. -/
  | getu (word : U64) (width : U7) (lsb : U7)
  /-- R84: signed field extraction. -/
  | gets (word : U64) (width : U7) (lsb : U7)
  /-- R85: unsigned field insertion. -/
  | insu (word : U64) (width : U7) (lsb : U7) (uval : U64)
  /-- R86: signed field insertion. -/
  | inss (word : U64) (width : U7) (lsb : U7) (sval : S64)
  /-- R101: pixel to luma/chroma. -/
  | rgb2ypp (px : Pixel) (maxValue : U8)
  /-- R102: luma/chroma to pixel. -/
  | ypp2rgb (y : RealVal) (pb : RealVal) (pr : RealVal) (maxValue : U8)
  /-- R112: four luma samples to four coefficients. -/
  | blkfwd (y : Quad RealVal)
  /-- R113: four coefficients to four luma samples. -/
  | blkinv (coef : Coef)
  /-- R114: mean Pb and mean Pr of a block. -/
  | cavg (pb : Quad RealVal) (pr : Quad RealVal)
  /-- R123: coefficients and chroma means to integer codes. -/
  | qfwd (coef : Coef) (pb : RealVal) (pr : RealVal)
  /-- R124: integer codes to coefficients and representative chroma. -/
  | qinv (q : QBlock)
  /-- R135: six codes to a codeword. -/
  | pack (pk : Pk)
  /-- R136: a codeword to six codes. -/
  | unpack (word : U64)
  /-- R145: encode one block. -/
  | encblk (px : Quad Pixel) (maxValue : U8)
  /-- R146: decode one block. -/
  | decblk (word : U64) (maxValue : U8)
deriving DecidableEq, Repr

/-- The input ports of R28 that carry a command: `op` and every operand port. "Operand and result ports are shared
between commands: a command uses only the ports rule R66 lists for it and ignores the others." -/
structure Ports where
  op : U5
  word : U64
  width : U7
  lsb : U7
  uval : U64
  sval : S64
  px : Quad Pixel
  maxValue : U8
  y : Quad RealVal
  pb : Quad RealVal
  pr : Quad RealVal
  coef : Coef
  q : QBlock
  pk : Pk
deriving DecidableEq, Repr

/-- Every operand port at zero, with the given `op`. -/
def Ports.ofOp (op : U5) : Ports where
  op := op
  word := 0
  width := 0
  lsb := 0
  uval := 0
  sval := 0
  px := Quad.all ⟨0, 0, 0⟩
  maxValue := 0
  y := Quad.all (.num 0)
  pb := Quad.all (.num 0)
  pr := Quad.all (.num 0)
  coef := ⟨.num 0, .num 0, .num 0, .num 0⟩
  q := ⟨0, 0, 0, 0, 0, 0⟩
  pk := ⟨0, 0, 0, 0, 0, 0⟩

end Sys2Proof
end

