-- ==== Sys2Proof/WellFormed.lean ====
section
/-! DEFINITION. Which commands the ports can carry. The integer operands carry every value of their port type (R66); a
real-valued operand must be a value of `REAL_FMT` (R28: "The width in bits of a `Real` port is fixed by `REAL_FMT`"). -/

namespace Sys2Proof

/-- All four values belong to the format. -/
def Quad.ofFormat (f : RealFmt) (v : Quad RealVal) : Bool :=
  Reals.isOfFormat f v.at0 && Reals.isOfFormat f v.at1 && Reals.isOfFormat f v.at2 && Reals.isOfFormat f v.at3

/-- All four coefficients belong to the format. -/
def Coef.ofFormat (f : RealFmt) (k : Coef) : Bool :=
  Reals.isOfFormat f k.a && Reals.isOfFormat f k.b && Reals.isOfFormat f k.c && Reals.isOfFormat f k.d

/-- The command can be presented on the ports of a block with this `REAL_FMT`. -/
def Instr.wf (f : RealFmt) : Instr → Bool
  | .fitsu _ _ => true
  | .fitss _ _ => true
  | .getu _ _ _ => true
  | .gets _ _ _ => true
  | .insu _ _ _ _ => true
  | .inss _ _ _ _ => true
  | .rgb2ypp _ _ => true
  | .ypp2rgb y pb pr _ => Reals.isOfFormat f y && Reals.isOfFormat f pb && Reals.isOfFormat f pr
  | .blkfwd y => y.ofFormat f
  | .blkinv k => k.ofFormat f
  | .cavg pb pr => pb.ofFormat f && pr.ofFormat f
  | .qfwd k pb pr => k.ofFormat f && Reals.isOfFormat f pb && Reals.isOfFormat f pr
  | .qinv _ => true
  | .pack _ => true
  | .unpack _ => true
  | .encblk _ _ => true
  | .decblk _ _ => true

end Sys2Proof
end

