-- ==== Sys2Proof/Decode.lean ====
section
/-! DEFINITION. The decoder and the encoder of the command port (R65, R66, R68). "There is one format: `op` on its own
port, operands on named ports; there are no instruction words." -/

namespace Sys2Proof

/-- Why a presented command selects no operation. -/
inductive DecodeError where
  /-- R68: `op ∈ {17, …, 31}` "selects no operation". -/
  | reservedOp (op : U5)
deriving DecidableEq, Repr

/-- The value of the `op` port that selects the command (R65). -/
def Instr.op : Instr → U5
  | .fitsu _ _ => 0
  | .fitss _ _ => 1
  | .getu _ _ _ => 2
  | .gets _ _ _ => 3
  | .insu _ _ _ _ => 4
  | .inss _ _ _ _ => 5
  | .rgb2ypp _ _ => 6
  | .ypp2rgb _ _ _ _ => 7
  | .blkfwd _ => 8
  | .blkinv _ => 9
  | .cavg _ _ => 10
  | .qfwd _ _ _ => 11
  | .qinv _ => 12
  | .pack _ => 13
  | .unpack _ => 14
  | .encblk _ _ => 15
  | .decblk _ _ => 16

/-- R65, R66: the command that `op` selects, with the operand ports its row lists and no other. Total: every `op`
value is a row of R65 or reserved (R68). -/
def decode (p : Ports) : Except DecodeError Instr :=
  match p.op.toNat with
  | 0 => .ok (.fitsu p.uval p.width)
  | 1 => .ok (.fitss p.sval p.width)
  | 2 => .ok (.getu p.word p.width p.lsb)
  | 3 => .ok (.gets p.word p.width p.lsb)
  | 4 => .ok (.insu p.word p.width p.lsb p.uval)
  | 5 => .ok (.inss p.word p.width p.lsb p.sval)
  | 6 => .ok (.rgb2ypp p.px.at0 p.maxValue)
  | 7 => .ok (.ypp2rgb p.y.at0 p.pb.at0 p.pr.at0 p.maxValue)
  | 8 => .ok (.blkfwd p.y)
  | 9 => .ok (.blkinv p.coef)
  | 10 => .ok (.cavg p.pb p.pr)
  | 11 => .ok (.qfwd p.coef p.pb.at0 p.pr.at0)
  | 12 => .ok (.qinv p.q)
  | 13 => .ok (.pack p.pk)
  | 14 => .ok (.unpack p.word)
  | 15 => .ok (.encblk p.px p.maxValue)
  | 16 => .ok (.decblk p.word p.maxValue)
  | _ => .error (.reservedOp p.op)

/-- The port values that present a command: its `op` and its operands on the ports of R66, every other port zero. -/
def encode : Instr → Ports
  | .fitsu uval width => { Ports.ofOp 0 with uval := uval, width := width }
  | .fitss sval width => { Ports.ofOp 1 with sval := sval, width := width }
  | .getu word width lsb => { Ports.ofOp 2 with word := word, width := width, lsb := lsb }
  | .gets word width lsb => { Ports.ofOp 3 with word := word, width := width, lsb := lsb }
  | .insu word width lsb uval => { Ports.ofOp 4 with word := word, width := width, lsb := lsb, uval := uval }
  | .inss word width lsb sval => { Ports.ofOp 5 with word := word, width := width, lsb := lsb, sval := sval }
  | .rgb2ypp px mv => { Ports.ofOp 6 with px := { Quad.all ⟨0, 0, 0⟩ with at0 := px }, maxValue := mv }
  | .ypp2rgb y pb pr mv =>
    { Ports.ofOp 7 with
      y := { Quad.all (.num 0) with at0 := y }
      pb := { Quad.all (.num 0) with at0 := pb }
      pr := { Quad.all (.num 0) with at0 := pr }
      maxValue := mv }
  | .blkfwd y => { Ports.ofOp 8 with y := y }
  | .blkinv k => { Ports.ofOp 9 with coef := k }
  | .cavg pb pr => { Ports.ofOp 10 with pb := pb, pr := pr }
  | .qfwd k pb pr =>
    { Ports.ofOp 11 with
      coef := k
      pb := { Quad.all (.num 0) with at0 := pb }
      pr := { Quad.all (.num 0) with at0 := pr } }
  | .qinv q => { Ports.ofOp 12 with q := q }
  | .pack pk => { Ports.ofOp 13 with pk := pk }
  | .unpack word => { Ports.ofOp 14 with word := word }
  | .encblk px mv => { Ports.ofOp 15 with px := px, maxValue := mv }
  | .decblk word mv => { Ports.ofOp 16 with word := word, maxValue := mv }

/-- The command a row of spec/opcode_table.json selects: the table gives a row the five bits of `op` (in one byte, its
upper three bits zero), and every operand port is zero. A number with a bit above bit 4 is no `op` value. -/
def decodeTableWord (nbits w : Nat) : Option Instr :=
  if w % 2 ^ nbits < 32 then
    match decode (Ports.ofOp (BitVec.ofNat 5 (w % 2 ^ nbits))) with
    | .ok i => some i
    | .error _ => none
  else none

end Sys2Proof
end

