-- ==== Sys2Proof/Config.lean ====
section
/-! DEFINITION. What an implementation fixes (R6, R8: "Not state, but configuration") and the values the spec leaves
free. The default values stand in Machine/Params.lean. -/

namespace Sys2Proof

/-- One row of a colour matrix, as the decimal literals the configuration writes. -/
structure Row3 where
  c0 : Rat
  c1 : Rat
  c2 : Rat
deriving DecidableEq, Repr

/-- A 3×3 colour matrix (R100). -/
structure Mat3 where
  row0 : Row3
  row1 : Row3
  row2 : Row3
deriving DecidableEq, Repr

/-- The open parameters of R6. The entries are literals: under a floating-point `REAL_FMT` each is rounded to the
format where it is used (R17). -/
structure Config where
  /-- `REAL_FMT` (R17). -/
  fmt : RealFmt
  /-- `COLOR_FWD` (R100). -/
  colorFwd : Mat3
  /-- `COLOR_INV` (R100). -/
  colorInv : Mat3
  /-- `CHROMA_TABLE` (R121), index 0..15. -/
  chromaTable : Vector Rat 16
deriving DecidableEq, Repr

/-- A value the spec leaves open (IU6 `any value`; a channel whose row is a NaN): the bits of the
open value number `slot` of a command under a configuration. It depends on nothing else (R48: "issuing the same command
twice with `STATUS.fatal = 0` gives the same response twice"). It has no body: nothing can be proved of it.
Log entry 5. -/
opaque Config.freeBits (config : Config) (command : Instr) (slot : Nat) : BitVec 64

/-- `LAT` (R6, R193): the clock edges between a command's acceptance and its response, "a natural number the
implementation chooses; it may differ per command and per operand values". It has no body. Used only by the
clock-edge model of Machine/Handshake.lean; "no rule depends on it". Log entry 6. -/
opaque Config.latency (command : Ports) : Nat

end Sys2Proof
end

