-- ==== Sys2Proof/Machine/Params.lean ====
section
/-! DEFINITION. The constants the source fixes (R6, R61, R120), the default configuration (R100, R121, marked by the
spec as general knowledge: log entry 2), and the requirements on a configuration (R121, IU13). -/

namespace Sys2Proof

/-- `A_MAX` (R120). -/
def Params.aMax : Int := 511
/-- `G_LIM` (R120). -/
def Params.gLim : Rat := mkRat 3 10
/-- `G_MAX` (R120). -/
def Params.gMax : Int := 15
/-- `C_LIM` (R120). -/
def Params.cLim : Rat := mkRat 1 2

/-- Default `COLOR_FWD` (R100; PRESUMED by the spec from general knowledge G1, log entry 2). -/
def Params.colorFwd : Mat3 where
  row0 := ⟨mkRat 299 1000, mkRat 587 1000, mkRat 114 1000⟩
  row1 := ⟨mkRat (-168736) 1000000, mkRat (-331264) 1000000, mkRat 5 10⟩
  row2 := ⟨mkRat 5 10, mkRat (-418688) 1000000, mkRat (-81312) 1000000⟩

/-- Default `COLOR_INV` (R100; PRESUMED by the spec from general knowledge G1, log entry 2). -/
def Params.colorInv : Mat3 where
  row0 := ⟨1, 0, mkRat 1402 1000⟩
  row1 := ⟨1, mkRat (-344136) 1000000, mkRat (-714136) 1000000⟩
  row2 := ⟨1, mkRat 1772 1000, 0⟩

/-- Default `CHROMA_TABLE` (R121; PRESUMED by the spec from general knowledge G3, log entry 2). -/
def Params.chromaTable : Vector Rat 16 :=
  #v[mkRat (-35) 100, mkRat (-20) 100, mkRat (-15) 100, mkRat (-10) 100,
     mkRat (-77) 1000, mkRat (-55) 1000, mkRat (-33) 1000, mkRat (-11) 1000,
     mkRat 11 1000, mkRat 33 1000, mkRat 55 1000, mkRat 77 1000,
     mkRat 10 100, mkRat 15 100, mkRat 20 100, mkRat 35 100]

/-- The default configuration: exact rationals with the default matrices and table (R6). -/
def Config.default : Config where
  fmt := .exact
  colorFwd := Params.colorFwd
  colorInv := Params.colorInv
  chromaTable := Params.chromaTable

/-- `CHROMA_TABLE[i]` (R18, R43): one `Real` entry. -/
def Config.entry (c : Config) (i : U4) : RealVal := Reals.lit c.fmt (c.chromaTable[i.toNat]'i.isLt)

/-- The sixteen table indices in ascending order. -/
def Params.indices : List U4 := [0, 1, 2, 3, 4, 5, 6, 7, 8, 9, 10, 11, 12, 13, 14, 15]

/-- (T1) of R121: "the 16 values are pairwise distinct". -/
def Config.tableDistinct (c : Config) : Bool :=
  Params.indices.all fun i => Params.indices.all fun j =>
    i == j || Reals.lt (c.entry i) (c.entry j) || Reals.lt (c.entry j) (c.entry i)

/-- (T2) of R121: "every value lies in [−0.5, 0.5]". -/
def Config.tableInRange (c : Config) : Bool :=
  Params.indices.all fun i =>
    !Reals.lt (c.entry i) (.num (-Params.cLim)) && !Reals.lt (.num Params.cLim) (c.entry i)

/-- The requirements "on any table a model is instantiated with" (R121). -/
def Config.admissible (c : Config) : Bool := c.tableDistinct && c.tableInRange

/-! ### The codeword's field layout (R61) -/

/-- Width of field `a`. -/
def Layout.aWidth : U7 := 9
/-- Offset of field `a`. -/
def Layout.aLsb : U7 := 23
/-- Width of each gradient field. -/
def Layout.gWidth : U7 := 5
/-- Offset of field `b`. -/
def Layout.bLsb : U7 := 18
/-- Offset of field `c`. -/
def Layout.cLsb : U7 := 13
/-- Offset of field `d`. -/
def Layout.dLsb : U7 := 8
/-- Width of each chroma index field. -/
def Layout.iWidth : U7 := 4
/-- Offset of field `pbIndex`. -/
def Layout.pbLsb : U7 := 4
/-- Offset of field `prIndex`. -/
def Layout.prLsb : U7 := 0

end Sys2Proof
end

