-- ==== Sys2Proof/Machine/State.lean ====
section
/-! DEFINITION. The machine's state, its responses, and the reasons a step can stop. The architectural state is the
`STATUS` register (R24, R29); beside it stand the configuration and the host's side of the ports. Plain data throughout. -/

namespace Sys2Proof.Machine

/-- The causes of `FATAL` (R163). -/
inductive Cause where
  | widthRange
  | fieldRange
  | maxValueZero
  | illegalOp
  | internal
deriving DecidableEq, Repr

/-- The two error classes of the source (R11, R160): how a command's own rule can end without a result. -/
inductive CmdErr where
  | overflow
  | fatal (cause : Cause)
deriving DecidableEq, Repr

/-- The result ports a command drives when its status is `OK` (R66), with their values. -/
inductive Payload where
  /-- `fits`: `FITSU`, `FITSS`. -/
  | fits (v : Bool)
  /-- `uout`: `GETU`, `INSU`, `INSS`, `PACK`, `ENCBLK`. -/
  | uout (v : U64)
  /-- `sout`, in two's complement: `GETS`. -/
  | sout (v : S64)
  /-- `px_o[0]`: `YPP2RGB`. -/
  | pixel (p : Pixel)
  /-- `px_o[0..3]`: `DECBLK`. -/
  | pixels (ps : Quad Pixel)
  /-- `ypp_o.y`, `ypp_o.pb`, `ypp_o.pr`: `RGB2YPP`. -/
  | ypp (v : Ypp)
  /-- `ypp_o.pb`, `ypp_o.pr`: `CAVG`. -/
  | chromaMean (v : Chroma)
  /-- `coef_o`: `BLKFWD`. -/
  | coef (k : Coef)
  /-- `y_o[0..3]`: `BLKINV`. -/
  | luma (v : Quad RealVal)
  /-- `coef_o` and `chroma_o`: `QINV`. -/
  | dequant (k : Coef) (ch : Chroma)
  /-- `q_o`: `QFWD`, `UNPACK`. -/
  | qblock (q : QBlock)
deriving DecidableEq, Repr

/-- A response (R29, R160): "`Rsp = ok(payload) | overflow | fatal(cause)`", so that no result value exists when the
status is not `OK`. `cause` is the value on `cause_o` with the response. -/
inductive Rsp where
  | ok (p : Payload)
  | overflow
  | fatal (cause : U3)
deriving DecidableEq, Repr

/-- What the host does next at the block's inputs (R14): assert reset for one edge, or present one command. -/
inductive Input where
  | reset
  | command (p : Ports)
deriving DecidableEq, Repr

/-- Why the machine can stop. The hardware's own errors stop nothing: `FATAL` and `OVERFLOW` are responses (R160). -/
inductive Fault where
  /-- Raised by fetching: an operand on a `Real` port is no value of `REAL_FMT` (an infinity under `exact`, a rational
  the floating-point format cannot hold). The ports of R28 cannot carry it, so no hardware state is concerned.
  Safe: the model stops where the hardware has no such case. Log entry 8. -/
  | operandNotOfFormat
deriving DecidableEq, Repr

/-- Why a command has no meaning here. -/
inductive Refusal where
  /-- Raised by no arm of `exec`: every command has its meaning. Safe. -/
  | notModelled (mnemonic : String)
  /-- Raised by fetching: the chroma table breaks (T1) or (T2) of R121; `93_implementation_defined.md` IU13 has the model
  `refuse` such a configuration. Safe. Log entry 7. -/
  | inadmissibleTable
deriving DecidableEq, Repr

/-- The machine. R29: "The whole architectural state is `State = { fatal : Bool, cause : U3 }`"; the other fields are
the configuration the step reads (R29 gives it as an argument) and the host's side of the ports (log entries 1, 3). -/
structure State where
  /-- The configuration: constant, unaffected by reset (R30, R186). -/
  cfg : Config
  /-- `STATUS.fatal`, the output `fatal_o` (R24). -/
  fatal : Bool
  /-- `STATUS.cause`, the output `cause_o` (R24). -/
  cause : U3
  /-- What the host has still to do at the inputs, next first (R8: "a program is the sequence of commands the host
  chooses to issue"). -/
  inbox : List Input
  /-- The responses the host has received, oldest first (R194: the "observable outcome is the list of responses and
  the final `STATUS`"). -/
  rsps : List Rsp
deriving DecidableEq, Repr

/-- R186: after reset `STATUS = { fatal = 0, cause = 0 }`; the block waits for the first command. The configuration is
the default one (R6). -/
def State.reset : State where
  cfg := Config.default
  fatal := false
  cause := 0
  inbox := []
  rsps := []

/-- How a step ends. -/
abbrev Result := Host.Outcome State Fault Refusal

end Sys2Proof.Machine
end

