-- ==== Sys2Proof/Machine/Flags.lean ====
section
/-! DEFINITION. The block has "no arithmetic flags … no condition codes and no predicates" (R22). Its Boolean results
are the two fit checks (R81, R82); its status encodings are the `status` port (R160), the cause codes (R163) and the
`STATUS` register (R24). -/

namespace Sys2Proof.Machine

/-- R81 `fits_unsigned(n, width)`: `n < 2^width`. -/
def fitsUnsigned (n : U64) (width : U7) : Bool := decide (n.toNat < 2 ^ width.toNat)

/-- R82 `fits_signed(n, width)`: nothing fits width 0; else `−2^(width−1) ≤ n ≤ 2^(width−1) − 1`. -/
def fitsSigned (n : S64) (width : U7) : Bool :=
  if width.toNat = 0 then false
  else decide (-(2 : Int) ^ (width.toNat - 1) ≤ n.toInt) && decide (n.toInt ≤ (2 : Int) ^ (width.toNat - 1) - 1)

/-- The value on the `status` port (R160): 0 `OK`, 1 `OVERFLOW`, 2 `FATAL`; 3 is never produced. -/
def Rsp.status : Rsp → U2
  | .ok _ => 0
  | .overflow => 1
  | .fatal _ => 2

/-- The cause codes of R163. -/
def Cause.code : Cause → U3
  | .widthRange => 1
  | .fieldRange => 2
  | .maxValueZero => 3
  | .illegalOp => 4
  | .internal => 5

/-- The `STATUS` register as its four bits (R24): `cause` in bits 3:1, `fatal` in bit 0. -/
def State.status (s : State) : BitVec 4 := s.cause ++ BitVec.ofBool s.fatal

/-- The output `fatal_o` (R25: "`fatal_o` equals `STATUS.fatal` … at all times"). -/
def State.fatalOut (s : State) : Bool := s.fatal

/-- The output `cause_o` (R25). -/
def State.causeOut (s : State) : U3 := s.cause

end Sys2Proof.Machine
end

