-- ==== Sys2Proof/Machine/Operands.lean ====
section
/-! DEFINITION. How operands are checked, extended and narrowed: the field-geometry preconditions (R80), the
`max_value` precondition (R101, R102, R145, R146), the extensions and narrowings of R67. -/

namespace Sys2Proof.Machine

/-- R80 `check_width`: `width > 64` is `WIDTH_RANGE`. -/
def checkWidth (width : U7) : Except CmdErr Unit :=
  if 64 < width.toNat then .error (.fatal .widthRange) else .ok ()

/-- R80 `check_field`: `WIDTH_RANGE` first, then `width + lsb > 64` is `FIELD_RANGE`; the sum is exact. -/
def checkField (width lsb : U7) : Except CmdErr Unit :=
  if 64 < width.toNat then .error (.fatal .widthRange)
  else if 64 < width.toNat + lsb.toNat then .error (.fatal .fieldRange)
  else .ok ()

/-- `max_value = 0` is `MAX_VALUE_ZERO` (R101, R102, R145, R146). -/
def checkMaxValue (maxValue : U8) : Except CmdErr Unit :=
  if maxValue.toNat = 0 then .error (.fatal .maxValueZero) else .ok ()

/-- `ext(q)` (R67): a `QBlock` zero- and sign-extended to the `pk` port types, which keeps each integer. -/
def ext (q : QBlock) : Pk where
  a := q.a.setWidth 64
  b := q.b.signExtend 64
  c := q.c.signExtend 64
  d := q.d.signExtend 64
  pbIndex := q.pbIndex.setWidth 64
  prIndex := q.prIndex.setWidth 64

/-- The integer codes a quantization yields, before they are narrowed to ports (R123: "only then is it narrowed to the
`QBlock` field"). -/
structure Codes where
  a : Int
  b : Int
  c : Int
  d : Int
  pbIndex : Int
  prIndex : Int
deriving DecidableEq, Repr

/-- The codes narrowed to the `QBlock` fields (R123). -/
def Codes.toQBlock (k : Codes) : QBlock where
  a := BitVec.ofInt 9 k.a
  b := BitVec.ofInt 5 k.b
  c := BitVec.ofInt 5 k.c
  d := BitVec.ofInt 5 k.d
  pbIndex := BitVec.ofInt 4 k.pbIndex
  prIndex := BitVec.ofInt 4 k.prIndex

/-- The codes on the `pk` ports. For codes in the ranges of R126 this is `ext` of their `QBlock` (R67). -/
def Codes.toPk (k : Codes) : Pk where
  a := BitVec.ofInt 64 k.a
  b := BitVec.ofInt 64 k.b
  c := BitVec.ofInt 64 k.c
  d := BitVec.ofInt 64 k.d
  pbIndex := BitVec.ofInt 64 k.pbIndex
  prIndex := BitVec.ofInt 64 k.prIndex

/-- No operand is an infinity or a NaN (IU6). -/
def allFinite (xs : List RealVal) : Bool := xs.all RealVal.isFinite

/-- A free value of type `Real` (IU6 `any value`): whatever bits the command's free value has, read in the format. -/
def freeReal (f : RealFmt) (free : Nat → BitVec 64) (slot : Nat) : RealVal := Reals.ofBits f (free slot)

/-- A free integer code. -/
def freeInt (free : Nat → BitVec 64) (slot : Nat) : Int := (free slot).toInt

/-- A free 8-bit channel. -/
def freeByte (free : Nat → BitVec 64) (slot : Nat) : U8 := (free slot).setWidth 8

/-- A free 8-bit channel in `0 .. maxValue` (R102: "each result lies in `0 .. max_value`"). -/
def freeUpTo (free : Nat → BitVec 64) (slot : Nat) (maxValue : U8) : U8 :=
  BitVec.ofNat 8 ((free slot).toNat % (maxValue.toNat + 1))

end Sys2Proof.Machine
end

