-- ==== Sys2Proof/Machine/Ops.lean ====
section
/-! DEFINITION. The shared operations over the state: answering a command, taking the two error classes (R161, R162),
the latched-fatal prologue (R165), and reset, which is the only return from a `FATAL` (R168, R185). The block has no
memory and no register file (R20, R40), so there are no others. -/

namespace Sys2Proof.Machine

/-- Delivering one response (R160: "Every command ends with exactly one response"). -/
def State.answer (s : State) (r : Rsp) : State := { s with rsps := s.rsps ++ [r] }

/-- `respond ok(…)` (R18): status `OK` with the result values; no state change. -/
def respondOk (p : Payload) (s : State) : State := s.answer (.ok p)

/-- `raise Overflow` (R162): status `OVERFLOW`, no result, "`STATUS` is untouched". -/
def raiseOverflow (s : State) : State := s.answer .overflow

/-- `raise Fatal(cause)` (R161), TAKING AN EXCEPTION: status `FATAL`, no result, and `STATUS.fatal <- 1`,
`STATUS.cause <- cause`. There is no handler, no saved pc and no mode (R167). -/
def raiseFatal (c : Cause) (s : State) : State :=
  { s with fatal := true, cause := c.code }.answer (.fatal c.code)

/-- (P1) of R165: with the latch set, "end the step with status FATAL, no result, STATUS unchanged". -/
def answerLatched (s : State) : State := s.answer (.fatal s.cause)

/-- Reset (R185), the RETURN FROM A `FATAL` (R168): "`STATUS.fatal <- 0`, `STATUS.cause <- 0`". The configuration is
not affected (R186). -/
def State.doReset (s : State) : State := { s with fatal := false, cause := 0 }

/-- The end of a command's own rule: its result, or the error its pseudocode raised. -/
def finish (r : Except CmdErr Payload) (s : State) : State :=
  match r with
  | .ok p => respondOk p s
  | .error .overflow => raiseOverflow s
  | .error (.fatal c) => raiseFatal c s

/-- A command: the prologue (P1) of R165, then the command's own rule. -/
def command (r : Except CmdErr Payload) (s : State) : Result :=
  .next (if s.fatal then answerLatched s else finish r s)

/-- (P1) and (P2) of R165 for a reserved `op` (R68): `FATAL(ILLEGAL_OP)`, unless the latch is already set. -/
def executeIllegal (s : State) : State := if s.fatal then answerLatched s else raiseFatal .illegalOp s

end Sys2Proof.Machine
end

