-- ==== Sys2Proof/Machine/Block.lean ====
section
/-! DEFINITION. The Block Transform and the chroma mean (R110 to R116). Operations in the written order. -/

namespace Sys2Proof.Machine

/-- R112, `forward(y0,y1,y2,y3)`. The sign pattern is the spec's (R110; PRESUMED from general knowledge G2, log
entry 2). -/
def blkfwd (f : RealFmt) (v : Quad RealVal) : Coef where
  a := Reals.div f (Reals.add f (Reals.add f (Reals.add f v.at3 v.at2) v.at1) v.at0) (.num 4)
  b := Reals.div f (Reals.sub f (Reals.sub f (Reals.add f v.at3 v.at2) v.at1) v.at0) (.num 4)
  c := Reals.div f (Reals.sub f (Reals.add f (Reals.sub f v.at3 v.at2) v.at1) v.at0) (.num 4)
  d := Reals.div f (Reals.add f (Reals.sub f (Reals.sub f v.at3 v.at2) v.at1) v.at0) (.num 4)

/-- R113, `inverse(a,b,c,d)`. -/
def blkinv (f : RealFmt) (k : Coef) : Quad RealVal where
  at0 := Reals.add f (Reals.sub f (Reals.sub f k.a k.b) k.c) k.d
  at1 := Reals.sub f (Reals.add f (Reals.sub f k.a k.b) k.c) k.d
  at2 := Reals.sub f (Reals.sub f (Reals.add f k.a k.b) k.c) k.d
  at3 := Reals.add f (Reals.add f (Reals.add f k.a k.b) k.c) k.d

/-- The mean of four values (R114). -/
def mean (f : RealFmt) (v : Quad RealVal) : RealVal :=
  Reals.div f (Reals.add f (Reals.add f (Reals.add f v.at0 v.at1) v.at2) v.at3) (.num 4)

/-- R114: mean Pb and mean Pr across the four block pixels. -/
def cavg (f : RealFmt) (pb pr : Quad RealVal) : Chroma := ⟨mean f pb, mean f pr⟩

/-- The result of `BLKFWD` on any operands: with an infinity or a NaN on an operand port it is any value (IU6). -/
def blkfwdAny (f : RealFmt) (free : Nat → BitVec 64) (y : Quad RealVal) : Coef :=
  if allFinite y.toList then blkfwd f y
  else ⟨freeReal f free 0, freeReal f free 1, freeReal f free 2, freeReal f free 3⟩

/-- The result of `BLKINV` on any operands (IU6). -/
def blkinvAny (f : RealFmt) (free : Nat → BitVec 64) (k : Coef) : Quad RealVal :=
  if allFinite [k.a, k.b, k.c, k.d] then blkinv f k
  else ⟨freeReal f free 0, freeReal f free 1, freeReal f free 2, freeReal f free 3⟩

/-- The result of `CAVG` on any operands (IU6). -/
def cavgAny (f : RealFmt) (free : Nat → BitVec 64) (pb pr : Quad RealVal) : Chroma :=
  if allFinite (pb.toList ++ pr.toList) then cavg f pb pr else ⟨freeReal f free 0, freeReal f free 1⟩

/-- What `BLKFWD` answers to these operands (R48). -/
def blkfwdOf (c : Config) (y : Quad RealVal) : Coef := blkfwdAny c.fmt (Config.freeBits c (.blkfwd y)) y

/-- What `BLKINV` answers to these operands (R48). -/
def blkinvOf (c : Config) (k : Coef) : Quad RealVal := blkinvAny c.fmt (Config.freeBits c (.blkinv k)) k

/-- What `CAVG` answers to these operands (R48). -/
def cavgOf (c : Config) (pb pr : Quad RealVal) : Chroma := cavgAny c.fmt (Config.freeBits c (.cavg pb pr)) pb pr

/-- `BLKFWD` (R112). -/
def execBlkfwd (y : Quad RealVal) (s : State) : Result :=
  command (.ok (.coef (blkfwdOf s.cfg y))) s

/-- `BLKINV` (R113). -/
def execBlkinv (k : Coef) (s : State) : Result :=
  command (.ok (.luma (blkinvOf s.cfg k))) s

/-- `CAVG` (R114). -/
def execCavg (pb pr : Quad RealVal) (s : State) : Result :=
  command (.ok (.chromaMean (cavgOf s.cfg pb pr))) s

end Sys2Proof.Machine
end

