-- ==== Sys2Proof/Machine/BitField.lean ====
section
/-! DEFINITION. The BitField Codec (R80 to R90): the result functions `fitsu`, `fitss`, `getu`, `gets`, `insu`, `inss`
(R18: "the pure result function of that command's rule") and the six commands. Arithmetic is exact, on integers. -/

namespace Sys2Proof.Machine

/-- The field as an unsigned integer: `(word div 2^lsb) mod 2^width` (R83, R84). -/
def fieldNat (word : U64) (width lsb : U7) : Nat := word.toNat / 2 ^ lsb.toNat % 2 ^ width.toNat

/-- The field as a signed integer (R84): its bit `width − 1` is the sign. Width 0 has no such bit and gives 0. -/
def fieldInt (word : U64) (width lsb : U7) : Int :=
  if 1 ≤ width.toNat ∧ 2 ^ (width.toNat - 1) ≤ fieldNat word width lsb
  then (fieldNat word width lsb : Int) - 2 ^ width.toNat
  else fieldNat word width lsb

/-- The field's mask: `(2^width − 1) × 2^lsb` (R85). -/
def fieldMask (width lsb : U7) : Nat := (2 ^ width.toNat - 1) * 2 ^ lsb.toNat

/-- `(word − (word bitand m)) + v × 2^lsb` (R85, R86): the field replaced by `v`. -/
def putField (word : U64) (width lsb : U7) (v : Nat) : U64 :=
  BitVec.ofNat 64 (word.toNat - (word.toNat &&& fieldMask width lsb) + v * 2 ^ lsb.toNat)

/-- R81. -/
def fitsu (uval : U64) (width : U7) : Except CmdErr Bool := do
  checkWidth width
  return fitsUnsigned uval width

/-- R82. -/
def fitss (sval : S64) (width : U7) : Except CmdErr Bool := do
  checkWidth width
  return fitsSigned sval width

/-- R83. -/
def getu (word : U64) (width lsb : U7) : Except CmdErr U64 := do
  checkField width lsb
  return BitVec.ofNat 64 (fieldNat word width lsb)

/-- R84. -/
def gets (word : U64) (width lsb : U7) : Except CmdErr S64 := do
  checkField width lsb
  return BitVec.ofInt 64 (fieldInt word width lsb)

/-- R85. The geometry is tested before the fit (R166). -/
def insu (word : U64) (width lsb : U7) (uval : U64) : Except CmdErr U64 := do
  checkField width lsb
  if fitsUnsigned uval width then return putField word width lsb uval.toNat
  else throw .overflow

/-- R86. The field receives `sval mod 2^width`. -/
def inss (word : U64) (width lsb : U7) (sval : S64) : Except CmdErr U64 := do
  checkField width lsb
  if fitsSigned sval width then return putField word width lsb (sval.toInt % 2 ^ width.toNat).toNat
  else throw .overflow

/-- `FITSU` (R81). -/
def execFitsu (uval : U64) (width : U7) (s : State) : Result := command (.fits <$> fitsu uval width) s

/-- `FITSS` (R82). -/
def execFitss (sval : S64) (width : U7) (s : State) : Result := command (.fits <$> fitss sval width) s

/-- `GETU` (R83). -/
def execGetu (word : U64) (width lsb : U7) (s : State) : Result := command (.uout <$> getu word width lsb) s

/-- `GETS` (R84). -/
def execGets (word : U64) (width lsb : U7) (s : State) : Result := command (.sout <$> gets word width lsb) s

/-- `INSU` (R85). -/
def execInsu (word : U64) (width lsb : U7) (uval : U64) (s : State) : Result :=
  command (.uout <$> insu word width lsb uval) s

/-- `INSS` (R86). -/
def execInss (word : U64) (width lsb : U7) (sval : S64) (s : State) : Result :=
  command (.uout <$> inss word width lsb sval) s

end Sys2Proof.Machine
end

