-- ==== Sys2Proof/Machine/Codeword.lean ====
section
/-! DEFINITION. The Codeword Packer and Unpacker (R135 to R138), through the BitField Codec and the layout of R61. -/

namespace Sys2Proof.Machine

/-- R135: six insertions into a zero word, in the order written; `Overflow` propagates. -/
def pack (pk : Pk) : Except CmdErr U64 := do
  let w1 ← insu 0 Layout.aWidth Layout.aLsb pk.a
  let w2 ← inss w1 Layout.gWidth Layout.bLsb pk.b
  let w3 ← inss w2 Layout.gWidth Layout.cLsb pk.c
  let w4 ← inss w3 Layout.gWidth Layout.dLsb pk.d
  let w5 ← insu w4 Layout.iWidth Layout.pbLsb pk.pbIndex
  insu w5 Layout.iWidth Layout.prLsb pk.prIndex

/-- R136: the six extractions, narrowed to the `QBlock` fields (R67). Bits 63:32 are not read (R69). -/
def unpack (word : U64) : QBlock where
  a := BitVec.ofNat 9 (fieldNat word Layout.aWidth Layout.aLsb)
  b := BitVec.ofInt 5 (fieldInt word Layout.gWidth Layout.bLsb)
  c := BitVec.ofInt 5 (fieldInt word Layout.gWidth Layout.cLsb)
  d := BitVec.ofInt 5 (fieldInt word Layout.gWidth Layout.dLsb)
  pbIndex := BitVec.ofNat 4 (fieldNat word Layout.iWidth Layout.pbLsb)
  prIndex := BitVec.ofNat 4 (fieldNat word Layout.iWidth Layout.prLsb)

/-- `PACK` (R135). -/
def execPack (pk : Pk) (s : State) : Result := command (.uout <$> pack pk) s

/-- `UNPACK` (R136). -/
def execUnpack (word : U64) (s : State) : Result := command (.ok (.qblock (unpack word))) s

end Sys2Proof.Machine
end

