-- ==== Sys2Proof/Machine/Color.lean ====
section
/-! DEFINITION. The Color Transform (R100 to R104). -/

namespace Sys2Proof.Machine

/-- One row of a matrix applied to three values, in the written order: `(m0 × x + m1 × y) + m2 × z` (R101, R102). -/
def applyRow (f : RealFmt) (m : Row3) (x y z : RealVal) : RealVal :=
  Reals.add f (Reals.add f (Reals.mul f (Reals.lit f m.c0) x) (Reals.mul f (Reals.lit f m.c1) y))
    (Reals.mul f (Reals.lit f m.c2) z)

/-- A channel normalized by `max_value` (R101). -/
def normalize (f : RealFmt) (v maxValue : U8) : RealVal :=
  Reals.div f (Reals.ofInt v.toNat) (Reals.ofInt maxValue.toNat)

/-- The luma/chroma triple of a pixel for a nonzero `max_value` (R101). A sample above `max_value` is not checked. -/
def lumaChroma (c : Config) (px : Pixel) (maxValue : U8) : Ypp :=
  let rn := normalize c.fmt px.r maxValue
  let gn := normalize c.fmt px.g maxValue
  let bn := normalize c.fmt px.b maxValue
  { y := applyRow c.fmt c.colorFwd.row0 rn gn bn
    pb := applyRow c.fmt c.colorFwd.row1 rn gn bn
    pr := applyRow c.fmt c.colorFwd.row2 rn gn bn }

/-- R101, `to_luma_chroma(pixel, max_value)`. -/
def rgb2ypp (c : Config) (px : Pixel) (maxValue : U8) : Except CmdErr Ypp := do
  checkMaxValue maxValue
  return lumaChroma c px maxValue

/-- One channel of R102: clamp to [0,1], scale by `max_value`, round half away from zero. Only a NaN passes the clamp
(finite operands reach one where a floating-point format overflows both ways inside a row); its channel is a free
value in `0 .. max_value`. Log entry 5. -/
def channel (f : RealFmt) (free : Nat → BitVec 64) (slot : Nat) (x : RealVal) (maxValue : U8) : U8 :=
  match Reals.rha? f (Reals.mul f (Reals.clamp x (.num 0) (.num 1)) (Reals.ofInt maxValue.toNat)) with
  | some n => BitVec.ofInt 8 n
  | none => freeUpTo free slot maxValue

/-- The pixel of a luma/chroma triple for a nonzero `max_value` (R102). -/
def tristimulus (c : Config) (free : Nat → BitVec 64) (y pb pr : RealVal) (maxValue : U8) : Pixel where
  r := channel c.fmt free 0 (applyRow c.fmt c.colorInv.row0 y pb pr) maxValue
  g := channel c.fmt free 1 (applyRow c.fmt c.colorInv.row1 y pb pr) maxValue
  b := channel c.fmt free 2 (applyRow c.fmt c.colorInv.row2 y pb pr) maxValue

/-- R102, `to_tristimulus(lumaChroma, max_value)`; with an infinity or a NaN on an operand port the result is any
value (IU6). -/
def ypp2rgb (c : Config) (free : Nat → BitVec 64) (y pb pr : RealVal) (maxValue : U8) : Except CmdErr Pixel := do
  checkMaxValue maxValue
  if allFinite [y, pb, pr] then return tristimulus c free y pb pr maxValue
  else return ⟨freeByte free 0, freeByte free 1, freeByte free 2⟩

/-- R102 with the command's own free values: what `YPP2RGB` answers to these operands (R48). -/
def ypp2rgbOf (c : Config) (y pb pr : RealVal) (maxValue : U8) : Except CmdErr Pixel :=
  ypp2rgb c (Config.freeBits c (.ypp2rgb y pb pr maxValue)) y pb pr maxValue

/-- `RGB2YPP` (R101). -/
def execRgb2ypp (px : Pixel) (maxValue : U8) (s : State) : Result :=
  command (.ypp <$> rgb2ypp s.cfg px maxValue) s

/-- `YPP2RGB` (R102). -/
def execYpp2rgb (y pb pr : RealVal) (maxValue : U8) (s : State) : Result :=
  command (.pixel <$> ypp2rgbOf s.cfg y pb pr maxValue) s

end Sys2Proof.Machine
end

