-- ==== Sys2Proof/Machine/Quantizer.lean ====
section
/-! DEFINITION. The Quantizer (R120 to R126). -/

namespace Sys2Proof.Machine

/-- `abs(x − CHROMA_TABLE[i])` (R122). -/
def chromaDist (c : Config) (x : RealVal) (i : U4) : RealVal := Reals.abs (Reals.sub c.fmt x (c.entry i))

/-- R122 `index_of_chroma`: an ascending scan with a strict comparison, so the lowest index among the nearest
entries. -/
def indexOfChroma (c : Config) (x : RealVal) : U4 :=
  (Params.indices.drop 1).foldl
    (fun best i => if Reals.lt (chromaDist c x i) (chromaDist c x best) then i else best) 0

/-- `clamp(rha(x), lo, hi)` (R123: "the clamp is applied to that integer"). An infinity, which a finite operand reaches
where the scaling overflows a floating-point format, lies beyond every bound, and the clamp answers the bound on its
side: "`a < 0` gives 0 and `a > 1` gives 511". A NaN is never rounded here: the operands are finite and the scale
factors are no zero (`quantize_scaled`, Laws/Quantizer.lean). -/
def roundClamp (f : RealFmt) (lo hi : Int) (x : RealVal) : Int :=
  match Reals.rha? f x with
  | some n => Reals.clampInt n lo hi
  | none => if Reals.signBit x then lo else hi

/-- `qa(x) = clamp(rha(x × 511), 0, 511)` (R123). -/
def quantA (f : RealFmt) (x : RealVal) : Int :=
  roundClamp f 0 Params.aMax (Reals.mul f x (Reals.ofInt Params.aMax))

/-- `qg(x) = clamp(rha((x / 0.3) × 15), −15, 15)` (R123). -/
def quantG (f : RealFmt) (x : RealVal) : Int :=
  roundClamp f (-Params.gMax) Params.gMax
    (Reals.mul f (Reals.div f x (Reals.lit f Params.gLim)) (Reals.ofInt Params.gMax))

/-- `qc(x) = index_of_chroma(clamp(x, −0.5, 0.5))` (R123). -/
def quantC (c : Config) (x : RealVal) : U4 :=
  indexOfChroma c (Reals.clamp x (.num (-Params.cLim)) (.num Params.cLim))

/-- R123: the six codes of finite operands, before they are narrowed. -/
def quantize (c : Config) (k : Coef) (ch : Chroma) : Codes where
  a := quantA c.fmt k.a
  b := quantG c.fmt k.b
  c := quantG c.fmt k.c
  d := quantG c.fmt k.d
  pbIndex := (quantC c ch.pb).toNat
  prIndex := (quantC c ch.pr).toNat

/-- The codes of any operands: with an infinity or a NaN on an operand port they are any integers (IU6; R145: "a NaN
could defeat the clamps"). -/
def codesAny (c : Config) (free : Nat → BitVec 64) (k : Coef) (ch : Chroma) : Codes :=
  if allFinite [k.a, k.b, k.c, k.d, ch.pb, ch.pr] then quantize c k ch
  else ⟨freeInt free 0, freeInt free 1, freeInt free 2, freeInt free 3, freeInt free 4, freeInt free 5⟩

/-- R123, Quantizer "Forward": the codes narrowed to the `QBlock` fields. -/
def qfwd (c : Config) (free : Nat → BitVec 64) (k : Coef) (ch : Chroma) : QBlock := (codesAny c free k ch).toQBlock

/-- The codes `QFWD` finds for these operands (R48). -/
def codesOf (c : Config) (k : Coef) (ch : Chroma) : Codes := codesAny c (Config.freeBits c (.qfwd k ch.pb ch.pr)) k ch

/-- `(code × 0.3) / 15` (R124). -/
def dequantG (f : RealFmt) (code : S5) : RealVal :=
  Reals.div f (Reals.mul f (Reals.ofInt code.toInt) (Reals.lit f Params.gLim)) (Reals.ofInt Params.gMax)

/-- R124, the coefficients of a quantized block. The gradient code −16 is accepted. -/
def dequantCoef (f : RealFmt) (q : QBlock) : Coef where
  a := Reals.div f (Reals.ofInt q.a.toNat) (Reals.ofInt Params.aMax)
  b := dequantG f q.b
  c := dequantG f q.c
  d := dequantG f q.d

/-- R124, the representative chroma of a quantized block. -/
def dequantChroma (c : Config) (q : QBlock) : Chroma := ⟨c.entry q.pbIndex, c.entry q.prIndex⟩

/-- `QFWD` (R123). -/
def execQfwd (k : Coef) (pb pr : RealVal) (s : State) : Result :=
  command (.ok (.qblock (codesOf s.cfg k ⟨pb, pr⟩).toQBlock)) s

/-- `QINV` (R124). -/
def execQinv (q : QBlock) (s : State) : Result :=
  command (.ok (.dequant (dequantCoef s.cfg.fmt q) (dequantChroma s.cfg q))) s

end Sys2Proof.Machine
end

