-- ==== Sys2Proof/Machine/Pipeline.lean ====
section
/-! DEFINITION. The pipeline composites (R145 to R148): they "add no arithmetic of their own". Each is what its commands
answer, one after the other, their free values included (R148). -/

namespace Sys2Proof.Machine

/-- The operands `QFWD` gets for a block of pixels with a nonzero `max_value`: `RGB2YPP` ×4, `BLKFWD`, `CAVG` (R145). -/
def blockOperands (c : Config) (px : Quad Pixel) (maxValue : U8) : Coef × Chroma :=
  let v := px.map fun p => lumaChroma c p maxValue
  (blkfwdOf c (v.map Ypp.y), cavgOf c (v.map Ypp.pb) (v.map Ypp.pr))

/-- The codes of a block of pixels (R145). -/
def blockCodes (c : Config) (px : Quad Pixel) (maxValue : U8) : Codes :=
  codesOf c (blockOperands c px maxValue).1 (blockOperands c px maxValue).2

/-- R145: an overflow of the internal `pack` is escalated to `FATAL(INTERNAL)`. -/
def encblk (c : Config) (px : Quad Pixel) (maxValue : U8) : Except CmdErr U64 := do
  checkMaxValue maxValue
  match pack (blockCodes c px maxValue).toPk with
  | .ok cw => return cw
  | .error _ => throw (.fatal .internal)

/-- R146: `UNPACK`, `QINV`, `BLKINV`, `YPP2RGB` ×4; the four pixels share the chroma pair. -/
def decblk (c : Config) (word : U64) (maxValue : U8) : Except CmdErr (Quad Pixel) := do
  checkMaxValue maxValue
  let q := unpack word
  let ch := dequantChroma c q
  let y := blkinvOf c (dequantCoef c.fmt q)
  let p0 ← ypp2rgbOf c y.at0 ch.pb ch.pr maxValue
  let p1 ← ypp2rgbOf c y.at1 ch.pb ch.pr maxValue
  let p2 ← ypp2rgbOf c y.at2 ch.pb ch.pr maxValue
  let p3 ← ypp2rgbOf c y.at3 ch.pb ch.pr maxValue
  return ⟨p0, p1, p2, p3⟩

/-- `ENCBLK` (R145). -/
def execEncblk (px : Quad Pixel) (maxValue : U8) (s : State) : Result :=
  command (.uout <$> encblk s.cfg px maxValue) s

/-- `DECBLK` (R146). -/
def execDecblk (word : U64) (maxValue : U8) (s : State) : Result :=
  command (.pixels <$> decblk s.cfg word maxValue) s

end Sys2Proof.Machine
end

