-- ==== Sys2Proof/Machine/Dispatch.lean ====
section
/-! DEFINITION. One arm per command. -/

namespace Sys2Proof.Machine

def exec (i : Instr) (s : State) : Host.Outcome State Fault Refusal :=
  match i with
  | .fitsu uval width => Sys2Proof.Machine.execFitsu uval width s
  | .fitss sval width => Sys2Proof.Machine.execFitss sval width s
  | .getu word width lsb => Sys2Proof.Machine.execGetu word width lsb s
  | .gets word width lsb => Sys2Proof.Machine.execGets word width lsb s
  | .insu word width lsb uval => Sys2Proof.Machine.execInsu word width lsb uval s
  | .inss word width lsb sval => Sys2Proof.Machine.execInss word width lsb sval s
  | .rgb2ypp px maxValue => Sys2Proof.Machine.execRgb2ypp px maxValue s
  | .ypp2rgb y pb pr maxValue => Sys2Proof.Machine.execYpp2rgb y pb pr maxValue s
  | .blkfwd y => Sys2Proof.Machine.execBlkfwd y s
  | .blkinv coef => Sys2Proof.Machine.execBlkinv coef s
  | .cavg pb pr => Sys2Proof.Machine.execCavg pb pr s
  | .qfwd coef pb pr => Sys2Proof.Machine.execQfwd coef pb pr s
  | .qinv q => Sys2Proof.Machine.execQinv q s
  | .pack pk => Sys2Proof.Machine.execPack pk s
  | .unpack word => Sys2Proof.Machine.execUnpack word s
  | .encblk px maxValue => Sys2Proof.Machine.execEncblk px maxValue s
  | .decblk word maxValue => Sys2Proof.Machine.execDecblk word maxValue s

end Sys2Proof.Machine
end

