-- ==== Sys2Proof/Machine/Fetch.lean ====
section
/-! DEFINITION. How the block takes its next command: the acceptance of a presented command (R190, R191) as one atomic
step (R29), and a reset edge (R185). The block fetches nothing from a memory (R50). -/

namespace Sys2Proof.Machine

/-- One presented command executed: a configuration that breaks R121 is refused (IU13), a reserved `op` is illegal
(R68), an operand that is no value of its port stops the model, and every other command is executed. -/
def runCommand (p : Ports) (s : State) : Result :=
  if s.cfg.admissible then
    match decode p with
    | .error (.reservedOp _) => .next (executeIllegal s)
    | .ok i => if i.wf s.cfg.fmt then exec i s else .fault .operandNotOfFormat
  else .refused .inadmissibleTable

/-- The host's next action (R14). With nothing presented the block idles (R182, R186: "it waits for the first
command"). -/
def takeInput (s : State) : Result :=
  match s.inbox with
  | [] => .next s
  | .reset :: rest => .next { s with inbox := rest }.doReset
  | .command p :: rest => runCommand p { s with inbox := rest }

/-- The table word `w` presented as the next command, with every operand port zero. A number that is no `op` value
presents nothing. -/
def presentWord (s : State) (nbits w : Nat) : State :=
  if w % 2 ^ nbits < 32 then
    { s with inbox := .command (Ports.ofOp (BitVec.ofNat 5 (w % 2 ^ nbits))) :: s.inbox }
  else s

end Sys2Proof.Machine
end

