-- ==== Sys2Proof/Machine/Step.lean ====
section
/-! DEFINITION. The step: one command, or one reset, or one idle turn (R7, R29, R191). -/

namespace Sys2Proof.Machine

/-- One atomic step of the block (R29, R191: "A model executes each command as one atomic step"). -/
def step (s : State) : Host.Outcome State Fault Refusal := takeInput s

/-- The state in which the next step executes the table's word `w` (log entry 9: a program is the host's sequence of
commands, and this stands for the host presenting one). -/
def State.withFetchWord (s : State) (nbits w : Nat) : State := presentWord s nbits w

end Sys2Proof.Machine
end

