-- ==== Sys2Proof/Machine/Handshake.lean ====
section
/-! DEFINITION. The block at its clock edges (R185, R189 to R191, R193): the ports `rst`, `cmd_valid`, `cmd_ready`,
`rsp_valid` of R28 around the atomic step. A presented command is accepted, waits `LAT` edges, and is then executed
and answered at one edge. The latency is a parameter `lat` of every definition; the machine's own is
`Config.latency` (`edge`). -/

namespace Sys2Proof.Machine

/-- The inputs sampled at one rising edge of `clk` (R28, R189). -/
structure EdgeIn where
  rst : Bool
  cmdValid : Bool
  ports : Ports
deriving DecidableEq, Repr

/-- A command accepted and not yet answered: its sampled ports (R54, R190) and how many further edges pass before the
edge that answers it. -/
structure InFlight where
  cmd : Ports
  remaining : Nat
deriving DecidableEq, Repr

/-- The block between two edges: its state, the command in flight (at most one, R191), and the response the last edge
delivered. -/
structure Link where
  core : State
  flight : Option InFlight
  rsp : Option Rsp
deriving DecidableEq, Repr

/-- `cmd_ready` (R190: "After acceptance `cmd_ready = 0` until the response has been delivered"). -/
def Link.cmdReady (l : Link) : Bool := l.flight.isNone

/-- `rsp_valid` (R190: "1 for one cycle per accepted command and 0 otherwise"). -/
def Link.rspValid (l : Link) : Bool := l.rsp.isSome

/-- The cycle after reset (R186: `cmd_ready = 1`, `rsp_valid = 0`). -/
def Link.reset : Link := ⟨State.reset, none, none⟩

/-- The edge that answers a command: the command is executed (R191: "as one atomic step") and its response delivered.
That `STATUS` changes at this edge and not at acceptance is log entry 10. -/
def deliver (p : Ports) (l : Link) : Host.Outcome Link Fault Refusal :=
  match runCommand p l.core with
  | .next t => .next { core := t, flight := none, rsp := t.rsps.getLast? }
  | .fault r => .fault r
  | .refused r => .refused r

/-- One rising edge. Reset has priority: it clears `STATUS`, discards the command in flight, delivers nothing and
accepts nothing (R185). -/
def edgeWith (lat : Ports → Nat) (e : EdgeIn) (l : Link) : Host.Outcome Link Fault Refusal :=
  if e.rst then .next { core := l.core.doReset, flight := none, rsp := none }
  else
    match l.flight with
    | some f =>
      match f.remaining with
      | 0 => deliver f.cmd l
      | n + 1 => .next { l with flight := some ⟨f.cmd, n⟩, rsp := none }
    | none =>
      if e.cmdValid then
        match lat e.ports with
        | 0 => deliver e.ports l
        | n + 1 => .next { l with flight := some ⟨e.ports, n⟩, rsp := none }
      else .next { l with rsp := none }

/-- One rising edge of the block with its own latency (R193). -/
def edge (e : EdgeIn) (l : Link) : Host.Outcome Link Fault Refusal := edgeWith Config.latency e l

/-- A sequence of edges, stopping at the first fault or refusal. -/
def runEdges (lat : Ports → Nat) : List EdgeIn → Link → Host.Outcome Link Fault Refusal
  | [], l => .next l
  | e :: es, l =>
    match edgeWith lat e l with
    | .next l' => runEdges lat es l'
    | .fault r => .fault r
    | .refused r => .refused r

end Sys2Proof.Machine
end

