-- ==== Sys2Proof/Machine/Instances.lean ====
section
/-! DEFINITION. Several instances of the block side by side (R53, R180): "each with its own ports and its own `STATUS`;
instances share nothing". -/

namespace Sys2Proof.Machine

/-- Instance `k` of a bank takes one step; the others stand still. An instance that stops leaves the bank as it is. -/
def stepInstance (k : Nat) (bank : List State) : List State :=
  match bank[k]? with
  | some s =>
    match step s with
    | .next t => bank.set k t
    | .fault _ => bank
    | .refused _ => bank
  | none => bank

end Sys2Proof.Machine
end

