-- ==== Sys2Proof/Machine/Wire.lean ====
section
/-! DEFINITION. The external formats at the core's boundary (R44 to R46, R111). "They bind the host, not the block": no
step reads them. The header text and its separators are the excluded I/O layer's (R5). -/

namespace Sys2Proof.Machine

/-- R45: the eight bytes of a codeword in stream order, most significant byte first. -/
def wireBytes (cw : U64) : List U8 :=
  [cw.extractLsb' 56 8, cw.extractLsb' 48 8, cw.extractLsb' 40 8, cw.extractLsb' 32 8,
   cw.extractLsb' 24 8, cw.extractLsb' 16 8, cw.extractLsb' 8 8, cw.extractLsb' 0 8]

/-- R45: the codeword of eight bytes, `B0 || B1 || … || B7`; any other number of bytes is none. -/
def wireWord : List U8 → Option U64
  | [b0, b1, b2, b3, b4, b5, b6, b7] => some (b0 ++ b1 ++ b2 ++ b3 ++ b4 ++ b5 ++ b6 ++ b7)
  | _ => none

/-- R44: the body of a stream, each codeword "serialized as exactly 8 bytes in most-significant-byte-first order". -/
def streamBody (cws : List U64) : List U8 := cws.flatMap wireBytes

/-- R46: the offset in the raw pixel buffer of channel `k` of the pixel at row `i`, column `j`. -/
def pixelOffset (width i j k : Nat) : Nat := 3 * (i * width + j) + k

/-- R46: the number of blocks of an image. -/
def blockCount (width height : Nat) : Nat := width * height / 4

/-- The pixel at row `i`, column `j` of a raw buffer, where the buffer holds its three bytes. -/
def pixelAt (buffer : List U8) (width i j : Nat) : Option Pixel :=
  match buffer[pixelOffset width i j 0]?, buffer[pixelOffset width i j 1]?, buffer[pixelOffset width i j 2]? with
  | some r, some g, some b => some ⟨r, g, b⟩
  | _, _, _ => none

/-- R111: the block whose top-left pixel is at row `2i`, column `2j`: positions 0..3 are (2i, 2j), (2i, 2j+1),
(2i+1, 2j), (2i+1, 2j+1). -/
def blockAt (buffer : List U8) (width i j : Nat) : Option (Quad Pixel) :=
  match pixelAt buffer width (2 * i) (2 * j), pixelAt buffer width (2 * i) (2 * j + 1),
    pixelAt buffer width (2 * i + 1) (2 * j), pixelAt buffer width (2 * i + 1) (2 * j + 1) with
  | some p0, some p1, some p2, some p3 => some ⟨p0, p1, p2, p3⟩
  | _, _, _, _ => none

end Sys2Proof.Machine
end

