-- ==== Sys2Proof/Safety.lean ====
section
/-! DEFINITION. The terms claims are stated in: the legal values of `STATUS`, the error table of R164 read off the
operands alone, what makes a run a good one (R161, R194), and the requirements on a configuration's matrices. -/

namespace Sys2Proof.Machine

/-- R24 "Legal values: `fatal = 0` implies `cause = 0`; `fatal = 1` implies `cause ∈ {1, 2, 3, 4, 5}`." -/
def statusLegal (fatal : Bool) (cause : U3) : Bool :=
  if fatal then decide (1 ≤ cause.toNat) && decide (cause.toNat ≤ 5) else decide (cause.toNat = 0)

/-- Every real value of a payload is a value of the format. -/
def Payload.ofFormat (f : RealFmt) : Payload → Bool
  | .fits _ => true
  | .uout _ => true
  | .sout _ => true
  | .pixel _ => true
  | .pixels _ => true
  | .ypp v => Reals.isOfFormat f v.y && Reals.isOfFormat f v.pb && Reals.isOfFormat f v.pr
  | .chromaMean v => Reals.isOfFormat f v.pb && Reals.isOfFormat f v.pr
  | .coef k => k.ofFormat f
  | .luma v => v.ofFormat f
  | .dequant k ch => k.ofFormat f && Reals.isOfFormat f ch.pb && Reals.isOfFormat f ch.pr
  | .qblock _ => true

/-- A response the block can deliver: a `FATAL` carries one of the five causes (R163), a result port of type `Real`
carries a value of the format (R28). -/
def Rsp.legal (f : RealFmt) : Rsp → Bool
  | .ok p => p.ofFormat f
  | .overflow => true
  | .fatal c => statusLegal true c

/-- The invariant of the machine: `STATUS` is legal (R24) and every response delivered is one the block can deliver. -/
def State.inv (s : State) : Bool := statusLegal s.fatal s.cause && s.rsps.all (Rsp.legal s.cfg.fmt)

/-- "No fatal recorded" (R161, R187): the launch premise of a claim about a command sequence. -/
def State.clear (s : State) : Prop := s.fatal = false ∧ s.cause = 0

/-- What the host presents is presentable: every command's operands are values of their ports. -/
def Input.presentable (f : RealFmt) : Input → Bool
  | .reset => true
  | .command p =>
    match decode p with
    | .ok i => i.wf f
    | .error _ => true

/-- How many commands a list of host actions presents. -/
def commandCount : List Input → Nat
  | [] => 0
  | .reset :: rest => commandCount rest
  | .command _ :: rest => commandCount rest + 1

/-! ### The table of R164 and R66, read off the operands -/

/-- R164, the column "own `FATAL` causes", as conditions on the operands (R80, R101, R102, R145, R146); `INTERNAL` is
stated apart, since it is no condition on operands. -/
def ownFatal : Instr → Option Cause
  | .fitsu _ width => if 64 < width.toNat then some .widthRange else none
  | .fitss _ width => if 64 < width.toNat then some .widthRange else none
  | .getu _ width lsb | .gets _ width lsb | .insu _ width lsb _ | .inss _ width lsb _ =>
    if 64 < width.toNat then some .widthRange
    else if 64 < width.toNat + lsb.toNat then some .fieldRange
    else none
  | .rgb2ypp _ mv | .ypp2rgb _ _ _ mv | .encblk _ mv | .decblk _ mv => if mv = 0 then some .maxValueZero else none
  | .blkfwd _ | .blkinv _ | .cavg _ _ | .qfwd _ _ _ | .qinv _ | .pack _ | .unpack _ => none

/-- R164, the column `OVERFLOW`, as conditions on the operands (R81, R82, R138). -/
def overflows : Instr → Prop
  | .insu _ width _ uval => 2 ^ width.toNat ≤ uval.toNat
  | .inss _ width _ sval =>
    width.toNat = 0 ∨ sval.toInt < -(2 : Int) ^ (width.toNat - 1) ∨ (2 : Int) ^ (width.toNat - 1) - 1 < sval.toInt
  | .pack k =>
    511 < k.a.toNat ∨ k.b.toInt < -16 ∨ 15 < k.b.toInt ∨ k.c.toInt < -16 ∨ 15 < k.c.toInt ∨ k.d.toInt < -16 ∨
      15 < k.d.toInt ∨ 15 < k.pbIndex.toNat ∨ 15 < k.prIndex.toNat
  | .fitsu _ _ | .fitss _ _ | .getu _ _ _ | .gets _ _ _ | .rgb2ypp _ _ | .ypp2rgb _ _ _ _ | .blkfwd _ | .blkinv _
  | .cavg _ _ | .qfwd _ _ _ | .qinv _ | .unpack _ | .encblk _ _ | .decblk _ _ => False

/-- R66, the column "result ports": the payload is the one the command's row lists. -/
def drives : Instr → Payload → Bool
  | .fitsu _ _, .fits _ => true
  | .fitss _ _, .fits _ => true
  | .getu _ _ _, .uout _ => true
  | .gets _ _ _, .sout _ => true
  | .insu _ _ _ _, .uout _ => true
  | .inss _ _ _ _, .uout _ => true
  | .rgb2ypp _ _, .ypp _ => true
  | .ypp2rgb _ _ _ _, .pixel _ => true
  | .blkfwd _, .coef _ => true
  | .blkinv _, .luma _ => true
  | .cavg _ _, .chromaMean _ => true
  | .qfwd _ _ _, .qblock _ => true
  | .qinv _, .dequant _ _ => true
  | .pack _, .uout _ => true
  | .unpack _, .qblock _ => true
  | .encblk _ _, .uout _ => true
  | .decblk _ _, .pixels _ => true
  | _, _ => false

/-- R66, the column "operand ports": two port values agree on the ports the command's row lists. -/
def agreesOn : Instr → Ports → Ports → Prop
  | .fitsu _ _, p, q => p.uval = q.uval ∧ p.width = q.width
  | .fitss _ _, p, q => p.sval = q.sval ∧ p.width = q.width
  | .getu _ _ _, p, q => p.word = q.word ∧ p.width = q.width ∧ p.lsb = q.lsb
  | .gets _ _ _, p, q => p.word = q.word ∧ p.width = q.width ∧ p.lsb = q.lsb
  | .insu _ _ _ _, p, q => p.word = q.word ∧ p.width = q.width ∧ p.lsb = q.lsb ∧ p.uval = q.uval
  | .inss _ _ _ _, p, q => p.word = q.word ∧ p.width = q.width ∧ p.lsb = q.lsb ∧ p.sval = q.sval
  | .rgb2ypp _ _, p, q => p.px.at0 = q.px.at0 ∧ p.maxValue = q.maxValue
  | .ypp2rgb _ _ _ _, p, q =>
    p.y.at0 = q.y.at0 ∧ p.pb.at0 = q.pb.at0 ∧ p.pr.at0 = q.pr.at0 ∧ p.maxValue = q.maxValue
  | .blkfwd _, p, q => p.y = q.y
  | .blkinv _, p, q => p.coef = q.coef
  | .cavg _ _, p, q => p.pb = q.pb ∧ p.pr = q.pr
  | .qfwd _ _ _, p, q => p.coef = q.coef ∧ p.pb.at0 = q.pb.at0 ∧ p.pr.at0 = q.pr.at0
  | .qinv _, p, q => p.q = q.q
  | .pack _, p, q => p.pk = q.pk
  | .unpack _, p, q => p.word = q.word
  | .encblk _ _, p, q => p.px = q.px ∧ p.maxValue = q.maxValue
  | .decblk _ _, p, q => p.word = q.word ∧ p.maxValue = q.maxValue

/-! ### Real-valued results, in plain rational arithmetic (`REAL_FMT = exact`) -/

/-- Round half away from zero, on rationals (R17). -/
def roundAway (x : Rat) : Int := if x < 0 then -(-x + 1 / 2).floor else (x + 1 / 2).floor

/-- A row of a colour matrix applied to three rationals. -/
def rowSum (m : Row3) (x y z : Rat) : Rat := m.c0 * x + m.c1 * y + m.c2 * z

/-- R102's channel of a real value: clamped to [0,1], scaled, rounded. -/
def channelOf (x : Rat) (maxValue : U8) : Int := roundAway (max 0 (min 1 x) * (maxValue.toNat : Rat))

/-- R122: `i` is the smallest index that minimises the distance to `x`. -/
def isNearest (c : Config) (x : Rat) (i : U4) : Prop :=
  ∀ j : U4, |x - c.chromaTable[i.toNat]'i.isLt| ≤ |x - c.chromaTable[j.toNat]'j.isLt| ∧
    (j.toNat < i.toNat → |x - c.chromaTable[i.toNat]'i.isLt| < |x - c.chromaTable[j.toNat]'j.isLt|)

/-- R122 in the arithmetic of `REAL_FMT`: `i` is the smallest index that minimises `abs(x − CHROMA_TABLE[i])`. -/
def firstNearest (c : Config) (x : RealVal) (i : U4) : Prop :=
  ∀ j : U4, Reals.lt (chromaDist c x j) (chromaDist c x i) = false ∧
    (j.toNat < i.toNat → Reals.lt (chromaDist c x i) (chromaDist c x j) = true)

/-! ### The values of the floating-point formats, written without the rounding (R17; log entry 4) -/

/-- A significand and an exponent of `binary32` (24 bits, exponents −149..104) or `binary64` (53 bits, exponents
−1074..971), the significand full or the exponent the least one, so that a value has one of them. -/
def floatParts (f : RealFmt) (k e : Int) : Prop :=
  match f with
  | .exact => False
  | .binary32 => |k| < 2 ^ 24 ∧ -149 ≤ e ∧ e ≤ 104 ∧ (2 ^ 23 ≤ |k| ∨ e = -149)
  | .binary64 => |k| < 2 ^ 53 ∧ -1074 ≤ e ∧ e ≤ 971 ∧ (2 ^ 52 ≤ |k| ∨ e = -1074)

/-- The rational is a value of the floating-point format: `k × 2^e`. -/
def floatValue (f : RealFmt) (u : Rat) : Prop := ∃ k e : Int, floatParts f k e ∧ u = k * (2 : Rat) ^ e

/-- The magnitude from which a rational rounds to an infinity: half a step above the largest value. -/
def overflowBound : RealFmt → Rat
  | .exact => 0
  | .binary32 => (2 : Rat) ^ (128 : Int) - (2 : Rat) ^ (103 : Int)
  | .binary64 => (2 : Rat) ^ (1024 : Int) - (2 : Rat) ^ (970 : Int)

/-- `z` is the exact result `r` rounded to the format; a zero of either sign where `r` is 0. -/
def isRounded (f : RealFmt) (r : Rat) (z : RealVal) : Prop := if r = 0 then z.value? = some 0 else z = Reals.lit f r

/-- The gradient codes of a block lie in −15..15, as every block `QFWD` puts out does (R125, R126). -/
def codesInRange (q : QBlock) : Prop := q.b.toInt ≠ -16 ∧ q.c.toInt ≠ -16 ∧ q.d.toInt ≠ -16

/-- R104, the source's bound on any configuration: at `max_value = 255` the colour round trip moves no channel by more
than one unit. It is a requirement on the matrices, not a check a step makes. -/
def colorRoundTrip (c : Config) (free : Nat → BitVec 64) : Prop :=
  ∀ px : Pixel, ∃ v p, rgb2ypp c px 255 = .ok v ∧ ypp2rgb c free v.y v.pb v.pr 255 = .ok p ∧
    ((p.r.toNat : Int) - px.r.toNat).natAbs ≤ 1 ∧ ((p.g.toNat : Int) - px.g.toNat).natAbs ≤ 1 ∧
    ((p.b.toNat : Int) - px.b.toNat).natAbs ≤ 1

end Sys2Proof.Machine
end

