-- ==== Sys2Proof/Certificates/Slice0/Obligations.lean ====
section
/-! DEFINITION. The statements about the machine. Most are made per command, with the next state written out as
`s.answer r`: the state `s` with one response `r` added and nothing else changed (`STATUS`, the configuration and the
host's list stand as they were). -/

section
open Sys2Proof Sys2Proof.Machine

/-! ### Encoding (R65, R66, R68) -/

/-- R65, R66. Decoding the ports that present a command gives the command back, with every operand at every value; and
a command read from any ports is presented again by the same `op` and the same values on the ports its row lists. -/
def Obligations.DecodeAndEncodeAgree : Prop :=
  (∀ i : Instr, decode (encode i) = .ok i) ∧
  ∀ (p : Ports) (i : Instr), decode p = .ok i → (encode i).op = p.op ∧ agreesOn i p (encode i)

/-- R66, R48. A command reads only the operand ports in its row: ports that agree on `op` and on those ports decode to
the same command. -/
def Obligations.DecodeReadsOnlyTheListedPorts : Prop :=
  ∀ (p q : Ports) (i : Instr), decode p = .ok i → q.op = p.op → agreesOn i p q → decode q = .ok i

/-- R65, R68. Every `op` value selects its command or is reserved: 0..16 select one, 17..31 none. -/
def Obligations.EveryOpSelectsACommandOrIsReserved : Prop :=
  ∀ p : Ports, (p.op.toNat ≤ 16 → ∃ i, decode p = .ok i ∧ i.op = p.op) ∧
    (17 ≤ p.op.toNat → decode p = .error (.reservedOp p.op))

/-- R65. The `op` words of the table, one of each family, written out bit by bit. -/
def Obligations.WrittenOpWordsDecode : Prop :=
  decodeTableWord 8 0b00000 = some (.fitsu 0 0) ∧
  decodeTableWord 8 0b00111 = some (.ypp2rgb (.num 0) (.num 0) (.num 0) 0) ∧
  decodeTableWord 8 0b01010 = some (.cavg (Quad.all (.num 0)) (Quad.all (.num 0))) ∧
  decodeTableWord 8 0b01100 = some (.qinv ⟨0, 0, 0, 0, 0, 0⟩) ∧
  decodeTableWord 8 0b01110 = some (.unpack 0) ∧
  decodeTableWord 8 0b10000 = some (.decblk 0 0) ∧
  decodeTableWord 8 0b10001 = none ∧ decodeTableWord 8 0b11111 = none

/-! ### The step (R7, R29, R190) -/

/-- R29, R190. A step on a presented command that is well formed is that command's meaning, in the state whose host
list has moved past it. -/
def Obligations.StepRunsTheDecodedCommand : Prop :=
  ∀ (s : State) (p : Ports) (rest : List Input) (i : Instr), s.inbox = .command p :: rest →
    s.cfg.admissible = true → decode p = .ok i → i.wf s.cfg.fmt = true → step s = exec i { s with inbox := rest }

/-- R14, R185, R186. A step with nothing presented changes nothing; a step on a reset clears `STATUS` and changes
nothing else. -/
def Obligations.StepIdlesAndResets : Prop :=
  (∀ s : State, s.inbox = [] → step s = .next s) ∧
  ∀ (s : State) (rest : List Input), s.inbox = .reset :: rest →
    step s = .next { s with inbox := rest, fatal := false, cause := 0 }

/-- The model's stops (log entries 7 and 8): a configuration that breaks (T1) or (T2) of R121 is refused, and an operand
that is no value of its port stops the model. -/
def Obligations.StepStopsOnlyWhereNoHardwareIs : Prop :=
  (∀ s : State, (∃ r, step s = .fault r) → ∃ p rest i, s.inbox = .command p :: rest ∧ decode p = .ok i ∧
    i.wf s.cfg.fmt = false) ∧
  ∀ s : State, (∃ r, step s = .refused r) → ∃ p rest, s.inbox = .command p :: rest ∧ s.cfg.admissible = false

/-- R30. What reset leaves: `STATUS = { fatal = 0, cause = 0 }` in the state after reset, after a reset step and after a
reset edge from any state; the configuration is the same before and after; in the cycle after reset `rsp_valid = 0` and
`cmd_ready = 1`. -/
def Obligations.ResetStatusIsClear : Prop :=
  State.reset.clear ∧ Link.reset.core = State.reset ∧ Link.reset.cmdReady = true ∧ Link.reset.rspValid = false ∧
  (∀ s : State, s.doReset.clear ∧ s.doReset.cfg = s.cfg ∧ s.doReset.status = 0) ∧
  ∀ (lat : Ports → Nat) (l m : Link) (e : EdgeIn), e.rst = true → edgeWith lat e l = .next m →
    m.core.clear ∧ m.core.cfg = l.core.cfg ∧ m.rspValid = false ∧ m.cmdReady = true

/-- R24, R25, R160, R163. `STATUS` is four bits, `fatal` in bit 0 and `cause` in bits 3:1; the outputs `fatal_o` and
`cause_o` equal its fields; a response's `status` is 0, 1 or 2, and the cause codes are 1 to 5. -/
def Obligations.StatusBitsAndCodes : Prop :=
  (∀ s : State, s.status.getLsbD 0 = s.fatal ∧ s.status.extractLsb' 1 3 = s.cause ∧ s.fatalOut = s.fatal ∧
    s.causeOut = s.cause) ∧
  (∀ p : Payload, (Rsp.ok p).status = 0) ∧ Rsp.status .overflow = 1 ∧ (∀ c : U3, (Rsp.fatal c).status = 2) ∧
  Cause.code .widthRange = 1 ∧ Cause.code .fieldRange = 2 ∧ Cause.code .maxValueZero = 3 ∧
  Cause.code .illegalOp = 4 ∧ Cause.code .internal = 5

/-! ### Errors: the latch, the causes, the priorities (R160 to R168) -/

/-- R165. The common prologue: with the latch set, every command, whatever its `op` and operands, answers `FATAL` with
the first cause and `STATUS` is unchanged (P1); else a reserved `op` raises `ILLEGAL_OP` (P2); else the command's own
rule runs, in the same state. -/
def Obligations.CommonPrologue : Prop :=
  ∀ (s : State) (p : Ports) (rest : List Input), s.inbox = .command p :: rest → s.cfg.admissible = true →
    Input.presentable s.cfg.fmt (.command p) = true →
    (s.fatal = true → step s = .next { s with inbox := rest, rsps := s.rsps ++ [.fatal s.cause] }) ∧
    (s.fatal = false → 17 ≤ p.op.toNat → step s =
      .next { s with inbox := rest, fatal := true, cause := 4, rsps := s.rsps ++ [.fatal 4] }) ∧
    (s.fatal = false → p.op.toNat ≤ 16 → ∃ i, decode p = .ok i ∧ step s = exec i { s with inbox := rest })

/-- R68. A reserved `op` selects no operation: it answers `FATAL` with cause `ILLEGAL_OP` (4) and sets the latch; where
the latch is already set the first cause stands. It reads no operand port: the answer is the same on any ports with
this `op`, values of the format or not. -/
def Obligations.ReservedOpIsIllegal : Prop :=
  ∀ (s : State) (p : Ports) (rest : List Input), s.inbox = .command p :: rest → s.cfg.admissible = true →
    17 ≤ p.op.toNat →
    (∀ i, decode p ≠ .ok i) ∧
    step s = .next (if s.fatal then { s with inbox := rest, rsps := s.rsps ++ [.fatal s.cause] }
      else { s with inbox := rest, fatal := true, cause := 4, rsps := s.rsps ++ [.fatal 4] })

/-- R164, R66, R160, R166, under every `REAL_FMT`: each command, from a clear latch, answers exactly what the table
says of its operands: its own `FATAL` cause first, then `OVERFLOW`, else `OK` on its row's result ports. `FATAL` sets
the latch and the cause; the other two leave `STATUS`. Only `ENCBLK` under a floating-point format may answer
`FATAL(INTERNAL)` in place of `OK` (IU6). Nothing but the response list, and `STATUS` on a `FATAL`, changes. -/
def Obligations.EveryCommandAnswersAsItsRow : Prop :=
  ∀ (i : Instr) (s : State), s.fatal = false →
    match ownFatal i with
    | some c =>
      exec i s = .next { s with fatal := true, cause := c.code, rsps := s.rsps ++ [.fatal c.code] }
    | none =>
      (overflows i → exec i s = .next (s.answer .overflow)) ∧
      (¬ overflows i →
        (∃ p, drives i p = true ∧ exec i s = .next (s.answer (.ok p))) ∨
        (s.cfg.fmt ≠ .exact ∧ (∃ px mv, i = .encblk px mv) ∧
          exec i s = .next { s with fatal := true, cause := 5, rsps := s.rsps ++ [.fatal 5] }))

/-- R24, R161, R168, R185: the whole-machine rule. Once the latch is set only reset clears it, and the first cause is
kept: a step from a state with the latch set either is a reset or keeps `STATUS` as it was. -/
def Obligations.OnlyResetClearsTheLatch : Prop :=
  ∀ s t : State, s.fatal = true → step s = .next t →
    (t.fatal = true ∧ t.cause = s.cause) ∨ ((∃ rest, s.inbox = .reset :: rest) ∧ t.clear)

/-- R24 "Legal values", R163: every step keeps `STATUS` legal: `fatal = 0` with `cause = 0`, or `fatal = 1` with one of
the five causes. -/
def Obligations.StepKeepsStatusLegal : Prop :=
  ∀ s t : State, statusLegal s.fatal s.cause = true → step s = .next t → statusLegal t.fatal t.cause = true

/-- R24, R28, R160, R163, under every `REAL_FMT`: every step keeps the machine's invariant: `STATUS` is legal, every
`FATAL` delivered carries one of the five causes, and every real value delivered is a value of the format. -/
def Obligations.StepKeepsInvariant : Prop :=
  ∀ s t : State, s.inv = true → step s = .next t → t.inv = true

/-- R186: the state after reset meets the machine's invariant, and its configuration the requirements of R121. -/
def Obligations.ResetMeetsTheInvariants : Prop :=
  State.reset.inv = true ∧ State.reset.cfg.admissible = true

/-- R30, R186, R54. No step changes the configuration, none takes back a response, and none reads past the host's next
action: it delivers at most one response and consumes at most one action. -/
def Obligations.StepFrame : Prop :=
  ∀ s t : State, step s = .next t →
    t.cfg = s.cfg ∧ t.inbox = s.inbox.drop 1 ∧
    (t.rsps = s.rsps ∨ ∃ r, t.rsps = s.rsps ++ [r]) ∧
    ((∃ p rest, s.inbox = .command p :: rest) ↔ t.rsps ≠ s.rsps)

/-! ### Purity, runs and their end (R47, R48, R194) -/

/-- R48. The response to a command is a function of the command (its `op` and the operand ports its row lists), the
configuration and `STATUS.fatal`: two states that agree on the last two, and port values that agree on the first, give
the same response, whatever else differs; with the latch clear it is the same result too. (With the latch set the
status is `FATAL` and there is no result.) `STATUS` after it is the same: from a clear latch with a legal `STATUS` (R24)
in `fatal` and `cause`, whether the command sets the latch or not; a set latch keeps its own first cause. -/
def Obligations.ResponseDependsOnCommandAlone : Prop :=
  ∀ (p q : Ports) (s t s' : State), q.op = p.op → (∀ i, decode p = .ok i → agreesOn i p q) → s.cfg = t.cfg →
    s.fatal = t.fatal → runCommand p s = .next s' →
    ∃ (t' : State) (r r' : Rsp), runCommand q t = .next t' ∧ s'.rsps = s.rsps ++ [r] ∧ t'.rsps = t.rsps ++ [r'] ∧
      r.status = r'.status ∧ (s.fatal = false → r = r') ∧ (s.fatal = true → r.status = 2) ∧ s'.fatal = t'.fatal ∧
      (s.fatal = false → s'.fatal = true → s'.cause = t'.cause) ∧
      (s.fatal = false → statusLegal s.fatal s.cause = true → statusLegal t.fatal t.cause = true →
        s'.cause = t'.cause) ∧
      (s.fatal = true → s'.cause = s.cause ∧ t'.cause = t.cause)

/-- R194, R160. A run over a finite list of presentable host actions ends with the list used up and exactly one response
per command, after the responses delivered before it. -/
def Obligations.EveryCommandOfARunIsAnswered : Prop :=
  ∀ s : State, s.cfg.admissible = true → s.inbox.all (Input.presentable s.cfg.fmt) = true →
    ∃ t : State, Host.Core.run Sys2Proof.core s.inbox.length s = .next t ∧ t.inbox = [] ∧
      ∃ new : List Rsp, t.rsps = s.rsps ++ new ∧ new.length = commandCount s.inbox

/-- R161 (d), R194. A run that starts with the latch set and meets no reset ends with `STATUS` as it was, and every
response it delivered is `FATAL` with the first cause. -/
def Obligations.LatchedRunAnswersOnlyFatal : Prop :=
  ∀ s : State, s.fatal = true → s.cfg.admissible = true → s.inbox.all (Input.presentable s.cfg.fmt) = true →
    (∀ x ∈ s.inbox, x ≠ Input.reset) →
    ∃ t : State, Host.Core.run Sys2Proof.core s.inbox.length s = .next t ∧ t.fatal = true ∧ t.cause = s.cause ∧
      t.rsps = s.rsps ++ List.replicate s.inbox.length (.fatal s.cause)

/-- R53, R180. Each instance follows the spec on its own and instances share nothing: a step of instance `k` is the
block's own step of that instance's state, and changes no other instance; steps of two different instances commute.
That instances step one at a time, and that an instance whose step stops leaves the bank as it is, are the model's
choice (log entry 15). -/
def Obligations.InstancesDoNotInterfere : Prop :=
  ∀ (bank : List State) (j k : Nat),
    (∀ s t : State, bank[k]? = some s → step s = .next t → (stepInstance k bank)[k]? = some t) ∧
    (∀ s : State, bank[k]? = some s → (∀ t, step s ≠ .next t) → stepInstance k bank = bank) ∧
    (stepInstance k bank).length = bank.length ∧
    (j ≠ k → (stepInstance j bank)[k]? = bank[k]? ∧
      stepInstance j (stepInstance k bank) = stepInstance k (stepInstance j bank))

/-! ### The handshake at the clock edges (R185, R190, R191) -/

/-- R190, R193, R194. From an idle block, a command accepted at an edge is answered exactly `LAT` edges later, with no
response and `cmd_ready = 0` on the way, whatever the host shows meanwhile; the response and the state are those of the
atomic step. `rsp_valid` is 1 for one cycle: the next edge brings it back to 0, unless it answers another command with
latency 0. That `STATUS` stands unchanged until the edge of the response (the clause `m.core = l.core`) is the model's
choice, log entry 10. -/
def Obligations.AcceptedCommandIsAnsweredAfterLatency : Prop :=
  ∀ (lat : Ports → Nat) (l : Link) (e : EdgeIn) (es : List EdgeIn) (t : State), l.flight = none → e.rst = false →
    e.cmdValid = true → (∀ x ∈ es, x.rst = false) → runCommand e.ports l.core = .next t →
    (es.length = lat e.ports →
      (runEdges lat (e :: es) l = .next ⟨t, none, t.rsps.getLast?⟩ ∧ t.rsps.getLast?.isSome) ∧
      (∀ x : EdgeIn, x.rst = false → x.cmdValid = false →
        runEdges lat (e :: es ++ [x]) l = .next ⟨t, none, none⟩) ∧
      ∀ x : EdgeIn, x.rst = false → lat x.ports ≠ 0 →
        ∃ m, runEdges lat (e :: es ++ [x]) l = .next m ∧ m.rspValid = false ∧ m.core = t) ∧
    (es.length < lat e.ports → ∃ m, runEdges lat (e :: es) l = .next m ∧ m.cmdReady = false ∧ m.rspValid = false ∧
      m.core = l.core)

/-- R185. An edge with `rst = 1` clears `STATUS`, discards a command in flight, accepts nothing, delivers nothing and
leaves the block ready; the discarded command is never answered: without a new command no later edge delivers a
response. And reset is the only way to clear the latch: any other edge keeps it with its cause. -/
def Obligations.ResetEdgeDiscardsTheCommandInFlight : Prop :=
  ∀ (lat : Ports → Nat) (l : Link) (e : EdgeIn),
    (e.rst = true → ∃ m, edgeWith lat e l = .next m ∧ m.core.fatal = false ∧ m.core.cause = 0 ∧ m.flight = none ∧
      m.cmdReady = true ∧ m.rspValid = false ∧ m.core.rsps = l.core.rsps ∧ m.core.cfg = l.core.cfg ∧
      ∀ es : List EdgeIn, (∀ x ∈ es, x.cmdValid = false) →
        ∃ n, runEdges lat es m = .next n ∧ n.rspValid = false ∧ n.core.rsps = l.core.rsps) ∧
    (e.rst = false → l.core.fatal = true → ∀ m, edgeWith lat e l = .next m →
      m.core.fatal = true ∧ m.core.cause = l.core.cause)

/-- R191. While a command is in flight the block accepts no other: without reset, what the host shows at an edge makes
no difference to it. -/
def Obligations.OneCommandInFlight : Prop :=
  ∀ (lat : Ports → Nat) (l : Link) (f : InFlight) (d e : EdgeIn), l.flight = some f → d.rst = false → e.rst = false →
    edgeWith lat d l = edgeWith lat e l

/-! ### BitField Codec (R80 to R90) -/

/-- R80, R81. -/
def Obligations.FitsUnsignedCommand : Prop :=
  ∀ (uval : U64) (width : U7) (s : State), (encode (.fitsu uval width)).op = 0 ∧ (s.fatal = false →
    (64 < width.toNat → exec (.fitsu uval width) s =
      .next { s with fatal := true, cause := 1, rsps := s.rsps ++ [.fatal 1] }) ∧
    (width.toNat ≤ 64 → exec (.fitsu uval width) s =
      .next (s.answer (.ok (.fits (decide (uval.toNat < 2 ^ width.toNat)))))))

/-- R80, R82. -/
def Obligations.FitsSignedCommand : Prop :=
  ∀ (sval : S64) (width : U7) (s : State), (encode (.fitss sval width)).op = 1 ∧ (s.fatal = false →
    (64 < width.toNat → exec (.fitss sval width) s =
      .next { s with fatal := true, cause := 1, rsps := s.rsps ++ [.fatal 1] }) ∧
    (width.toNat = 0 → exec (.fitss sval width) s = .next (s.answer (.ok (.fits false)))) ∧
    (1 ≤ width.toNat → width.toNat ≤ 64 → exec (.fitss sval width) s =
      .next (s.answer (.ok (.fits (decide (-(2 : Int) ^ (width.toNat - 1) ≤ sval.toInt ∧
        sval.toInt ≤ (2 : Int) ^ (width.toNat - 1) - 1)))))))

/-- R89, the boundaries of the fit checks on their domains, at the port values the spec names. -/
def Obligations.FitBoundaries : Prop :=
  (∀ w : U7, w.toNat ≤ 63 → fitsUnsigned (BitVec.ofNat 64 (2 ^ w.toNat)) w = false ∧
    (1 ≤ w.toNat → fitsUnsigned (BitVec.ofNat 64 (2 ^ w.toNat - 1)) w = true)) ∧
  (∀ w : U7, 1 ≤ w.toNat → w.toNat ≤ 63 →
    fitsSigned (BitVec.ofInt 64 (2 ^ (w.toNat - 1))) w = false ∧
    fitsSigned (BitVec.ofInt 64 (2 ^ (w.toNat - 1) - 1)) w = true ∧
    fitsSigned (BitVec.ofInt 64 (-(2 : Int) ^ (w.toNat - 1))) w = true ∧
    fitsSigned (BitVec.ofInt 64 (-(2 : Int) ^ (w.toNat - 1) - 1)) w = false) ∧
  (∀ n : U64, fitsUnsigned n 64 = true) ∧ ∀ n : S64, fitsSigned n 64 = true

/-- R80: the geometry preconditions of the six commands: `width > 64` is `WIDTH_RANGE` (1); then, for the four with an
`lsb`, `width + lsb > 64`, an exact sum, is `FIELD_RANGE` (2); both before any fit check. Where they hold there is no
`FATAL`. -/
def Obligations.FieldGeometryIsCheckedFirst : Prop :=
  ∀ (word : U64) (width lsb : U7) (v : U64) (i j : Instr) (s : State), s.fatal = false →
    (i = .fitsu v width ∨ i = .fitss v width) →
    (j = .getu word width lsb ∨ j = .gets word width lsb ∨ j = .insu word width lsb v ∨ j = .inss word width lsb v) →
    (64 < width.toNat → exec i s = .next { s with fatal := true, cause := 1, rsps := s.rsps ++ [.fatal 1] } ∧
      exec j s = .next { s with fatal := true, cause := 1, rsps := s.rsps ++ [.fatal 1] }) ∧
    (width.toNat ≤ 64 → ∃ b : Bool, exec i s = .next (s.answer (.ok (.fits b)))) ∧
    (width.toNat ≤ 64 → 64 < width.toNat + lsb.toNat →
      exec j s = .next { s with fatal := true, cause := 2, rsps := s.rsps ++ [.fatal 2] }) ∧
    (width.toNat + lsb.toNat ≤ 64 → ∃ r : Rsp, exec j s = .next (s.answer r) ∧ ∀ c, r ≠ .fatal c)

/-- R83: the field, zero-extended, as a number and bit by bit; else the geometry's `FATAL`. -/
def Obligations.GetUnsignedExtractsTheField : Prop :=
  ∀ (word : U64) (width lsb : U7) (s : State), (encode (.getu word width lsb)).op = 2 ∧ (s.fatal = false →
    (64 < width.toNat → exec (.getu word width lsb) s =
      .next { s with fatal := true, cause := 1, rsps := s.rsps ++ [.fatal 1] }) ∧
    (width.toNat ≤ 64 → 64 < width.toNat + lsb.toNat → exec (.getu word width lsb) s =
      .next { s with fatal := true, cause := 2, rsps := s.rsps ++ [.fatal 2] }) ∧
    (width.toNat + lsb.toNat ≤ 64 → ∃ v : U64, exec (.getu word width lsb) s = .next (s.answer (.ok (.uout v))) ∧
      v.toNat = word.toNat / 2 ^ lsb.toNat % 2 ^ width.toNat ∧ fitsUnsigned v width = true ∧
      ∀ i : Nat, v.getLsbD i = (decide (i < width.toNat) && word.getLsbD (lsb.toNat + i))))

/-- R84: the field, sign-extended, as a number and bit by bit (above the field copies of its top bit); width 0 gives 0;
else the geometry's `FATAL`. -/
def Obligations.GetSignedExtendsTheField : Prop :=
  ∀ (word : U64) (width lsb : U7) (s : State), (encode (.gets word width lsb)).op = 3 ∧ (s.fatal = false →
    (64 < width.toNat → exec (.gets word width lsb) s =
      .next { s with fatal := true, cause := 1, rsps := s.rsps ++ [.fatal 1] }) ∧
    (width.toNat ≤ 64 → 64 < width.toNat + lsb.toNat → exec (.gets word width lsb) s =
      .next { s with fatal := true, cause := 2, rsps := s.rsps ++ [.fatal 2] }) ∧
    (width.toNat + lsb.toNat ≤ 64 → ∃ v : S64, exec (.gets word width lsb) s = .next (s.answer (.ok (.sout v))) ∧
      (width.toNat = 0 → v = 0) ∧
      (∀ f : Int, f = word.toNat / 2 ^ lsb.toNat % 2 ^ width.toNat →
        v.toInt = if 1 ≤ width.toNat ∧ (2 : Int) ^ (width.toNat - 1) ≤ f then f - 2 ^ width.toNat else f) ∧
      (1 ≤ width.toNat → fitsSigned v width = true ∧ ∀ i : Nat, i < 64 →
        v.getLsbD i = word.getLsbD (lsb.toNat + if i < width.toNat then i else width.toNat - 1))))

/-- R85: the geometry's `FATAL` first; a value that does not fit is answered `OVERFLOW`; one that fits replaces the
field: the closed form, and bit by bit. -/
def Obligations.InsertUnsignedReplacesTheField : Prop :=
  ∀ (word uval : U64) (width lsb : U7) (s : State), (encode (.insu word width lsb uval)).op = 4 ∧ (s.fatal = false →
    (64 < width.toNat → exec (.insu word width lsb uval) s =
      .next { s with fatal := true, cause := 1, rsps := s.rsps ++ [.fatal 1] }) ∧
    (width.toNat ≤ 64 → 64 < width.toNat + lsb.toNat → exec (.insu word width lsb uval) s =
      .next { s with fatal := true, cause := 2, rsps := s.rsps ++ [.fatal 2] }) ∧
    (width.toNat + lsb.toNat ≤ 64 → 2 ^ width.toNat ≤ uval.toNat →
      exec (.insu word width lsb uval) s = .next (s.answer .overflow)) ∧
    (width.toNat + lsb.toNat ≤ 64 → uval.toNat < 2 ^ width.toNat → ∃ v : U64,
      exec (.insu word width lsb uval) s = .next (s.answer (.ok (.uout v))) ∧
      v.toNat = word.toNat - (word.toNat &&& (2 ^ width.toNat - 1) * 2 ^ lsb.toNat) + uval.toNat * 2 ^ lsb.toNat ∧
      ∀ i : Nat, v.getLsbD i =
        if lsb.toNat ≤ i ∧ i < lsb.toNat + width.toNat then uval.getLsbD (i - lsb.toNat) else word.getLsbD i))

/-- R86: as `INSU`, with the signed fit check; width 0 always overflows; the field receives `sval mod 2^width`, the low
`width` bits of the two's complement form. -/
def Obligations.InsertSignedReplacesTheField : Prop :=
  ∀ (word : U64) (sval : S64) (width lsb : U7) (s : State), (encode (.inss word width lsb sval)).op = 5 ∧
    (s.fatal = false →
    (64 < width.toNat → exec (.inss word width lsb sval) s =
      .next { s with fatal := true, cause := 1, rsps := s.rsps ++ [.fatal 1] }) ∧
    (width.toNat ≤ 64 → 64 < width.toNat + lsb.toNat → exec (.inss word width lsb sval) s =
      .next { s with fatal := true, cause := 2, rsps := s.rsps ++ [.fatal 2] }) ∧
    (width.toNat + lsb.toNat ≤ 64 →
      width.toNat = 0 ∨ sval.toInt < -(2 : Int) ^ (width.toNat - 1) ∨ (2 : Int) ^ (width.toNat - 1) ≤ sval.toInt →
      exec (.inss word width lsb sval) s = .next (s.answer .overflow)) ∧
    (width.toNat + lsb.toNat ≤ 64 → 1 ≤ width.toNat → -(2 : Int) ^ (width.toNat - 1) ≤ sval.toInt →
      sval.toInt < (2 : Int) ^ (width.toNat - 1) →
      ∃ v : U64, exec (.inss word width lsb sval) s = .next (s.answer (.ok (.uout v))) ∧
        (v.toNat : Int) = (word.toNat : Int) - (word.toNat &&& (2 ^ width.toNat - 1) * 2 ^ lsb.toNat : Nat) +
          sval.toInt % 2 ^ width.toNat * 2 ^ lsb.toNat ∧
        ∀ i : Nat, v.getLsbD i =
          if lsb.toNat ≤ i ∧ i < lsb.toNat + width.toNat then sval.getLsbD (i - lsb.toNat) else word.getLsbD i))

/-- R87: reading back an inserted field, unsigned and signed, from any starting word; and the mixed reading (the spec's
inference). -/
def Obligations.InsertThenGetReturnsTheValue : Prop :=
  ∀ (word v : U64) (width lsb : U7), width.toNat + lsb.toNat ≤ 64 →
    (fitsUnsigned v width = true → ∃ w, insu word width lsb v = .ok w ∧ getu w width lsb = .ok v) ∧
    (fitsSigned v width = true → ∃ w, inss word width lsb v = .ok w ∧ gets w width lsb = .ok v ∧
      ∃ u, getu w width lsb = .ok u ∧ (u.toNat : Int) = v.toInt % 2 ^ width.toNat)

/-- R88 (the spec's inference from R83, R85, R86), for both insertions and both ways of mixing them: a successful
insertion changes no bit outside its field; fields that do not overlap do not disturb each other (nothing read from the
other changes, and the two insertions commute); inserting twice into one field keeps the second value. -/
def Obligations.DisjointFieldsDoNotInterfere : Prop :=
  ∀ (word v1 v2 : U64) (w1 l1 w2 l2 : U7) (put1 put2 : U64 → Except CmdErr U64),
    w1.toNat + l1.toNat ≤ 64 → w2.toNat + l2.toNat ≤ 64 →
    ((fitsUnsigned v1 w1 = true ∧ put1 = fun w => insu w w1 l1 v1) ∨
      (fitsSigned v1 w1 = true ∧ put1 = fun w => inss w w1 l1 v1)) →
    ((fitsUnsigned v2 w2 = true ∧ put2 = fun w => insu w w2 l2 v2) ∨
      (fitsSigned v2 w2 = true ∧ put2 = fun w => inss w w2 l2 v2)) →
    ∃ a b c d, put1 word = .ok a ∧ put2 word = .ok b ∧ put2 a = .ok c ∧ put1 b = .ok d ∧
      (∀ i : Nat, i < l1.toNat ∨ l1.toNat + w1.toNat ≤ i → a.getLsbD i = word.getLsbD i) ∧
      (l1.toNat + w1.toNat ≤ l2.toNat ∨ l2.toNat + w2.toNat ≤ l1.toNat →
        c = d ∧ getu a w2 l2 = getu word w2 l2 ∧ gets a w2 l2 = gets word w2 l2) ∧
      (w1 = w2 → l1 = l2 → c = b)

/-! ### Color Transform (R100 to R104) -/

/-- R101, `REAL_FMT = exact`: the result, and `FATAL(MAX_VALUE_ZERO)` for a zero `max_value`. -/
def Obligations.RgbToYppCommand : Prop :=
  ∀ (px : Pixel) (mv : U8) (s : State), s.fatal = false → s.cfg.fmt = .exact →
    (mv = 0 → exec (.rgb2ypp px mv) s = .next { s with fatal := true, cause := 3, rsps := s.rsps ++ [.fatal 3] }) ∧
    (mv ≠ 0 → ∀ r g b : Rat, r = px.r.toNat / (mv.toNat : Rat) → g = px.g.toNat / (mv.toNat : Rat) →
      b = px.b.toNat / (mv.toNat : Rat) →
      exec (.rgb2ypp px mv) s = .next (s.answer (.ok (.ypp ⟨.num (rowSum s.cfg.colorFwd.row0 r g b),
        .num (rowSum s.cfg.colorFwd.row1 r g b), .num (rowSum s.cfg.colorFwd.row2 r g b)⟩))))

/-- R101, R103, with the default matrices (log entry 2): channels in `0 .. max_value` give `0 ≤ y ≤ 1` and chroma in
[−0.5, 0.5], and a grey pixel gives its level and chroma exactly 0. -/
def Obligations.DefaultLumaChromaRanges : Prop :=
  ∀ (px : Pixel) (mv : U8), mv ≠ 0 → ∃ y pb pr : Rat,
    rgb2ypp Config.default px mv = .ok ⟨.num y, .num pb, .num pr⟩ ∧
    (px.r.toNat ≤ mv.toNat → px.g.toNat ≤ mv.toNat → px.b.toNat ≤ mv.toNat →
      0 ≤ y ∧ y ≤ 1 ∧ -(1 / 2) ≤ pb ∧ pb ≤ 1 / 2 ∧ -(1 / 2) ≤ pr ∧ pr ≤ 1 / 2) ∧
    (px.r = px.g → px.g = px.b → y = px.r.toNat / (mv.toNat : Rat) ∧ pb = 0 ∧ pr = 0)

/-- R102, `REAL_FMT = exact`: clamp to [0,1], scale, round half away from zero; every channel lies in `0 .. max_value`
whatever the inputs; and `FATAL(MAX_VALUE_ZERO)` for a zero `max_value`. -/
def Obligations.YppToRgbCommand : Prop :=
  ∀ (y pb pr : Rat) (mv : U8) (s : State), s.fatal = false → s.cfg.fmt = .exact →
    (mv = 0 → exec (.ypp2rgb (.num y) (.num pb) (.num pr) mv) s =
      .next { s with fatal := true, cause := 3, rsps := s.rsps ++ [.fatal 3] }) ∧
    (mv ≠ 0 → ∃ p : Pixel,
      exec (.ypp2rgb (.num y) (.num pb) (.num pr) mv) s = .next (s.answer (.ok (.pixel p))) ∧
      (p.r.toNat : Int) = channelOf (rowSum s.cfg.colorInv.row0 y pb pr) mv ∧
      (p.g.toNat : Int) = channelOf (rowSum s.cfg.colorInv.row1 y pb pr) mv ∧
      (p.b.toNat : Int) = channelOf (rowSum s.cfg.colorInv.row2 y pb pr) mv ∧
      p.r.toNat ≤ mv.toNat ∧ p.g.toNat ≤ mv.toNat ∧ p.b.toNat ≤ mv.toNat)

/-- R104, with the default matrices (log entry 2): the colour round trip at `max_value = 255` returns every pixel
unchanged; so the default configuration meets the source's bound of one unit. -/
def Obligations.DefaultColorRoundTripIsTheIdentity : Prop :=
  ∀ (px : Pixel) (free : Nat → BitVec 64), ∃ v, rgb2ypp Config.default px 255 = .ok v ∧
    ypp2rgb Config.default free v.y v.pb v.pr 255 = .ok px

/-! ### Block Transform (R110 to R116) -/

/-- R112, `REAL_FMT = exact`, with the spec's sign pattern (log entry 2). -/
def Obligations.BlockForwardCommand : Prop :=
  ∀ (y0 y1 y2 y3 : Rat) (s : State), s.fatal = false → s.cfg.fmt = .exact →
    exec (.blkfwd ⟨.num y0, .num y1, .num y2, .num y3⟩) s = .next (s.answer (.ok (.coef
      ⟨.num ((y3 + y2 + y1 + y0) / 4), .num ((y3 + y2 - y1 - y0) / 4), .num ((y3 - y2 + y1 - y0) / 4),
        .num ((y3 - y2 - y1 + y0) / 4)⟩)))

/-- R113, `REAL_FMT = exact`. -/
def Obligations.BlockInverseCommand : Prop :=
  ∀ (a b c d : Rat) (s : State), s.fatal = false → s.cfg.fmt = .exact →
    exec (.blkinv ⟨.num a, .num b, .num c, .num d⟩) s = .next (s.answer (.ok (.luma
      ⟨.num (a - b - c + d), .num (a - b + c - d), .num (a + b - c - d), .num (a + b + c + d)⟩)))

/-- R114, `REAL_FMT = exact`: the two means, not clamped. -/
def Obligations.ChromaMeanCommand : Prop :=
  ∀ (b0 b1 b2 b3 r0 r1 r2 r3 : Rat) (s : State), s.fatal = false → s.cfg.fmt = .exact →
    exec (.cavg ⟨.num b0, .num b1, .num b2, .num b3⟩ ⟨.num r0, .num r1, .num r2, .num r3⟩) s =
      .next (s.answer (.ok (.chromaMean ⟨.num ((b0 + b1 + b2 + b3) / 4), .num ((r0 + r1 + r2 + r3) / 4)⟩)))

/-- R115, `REAL_FMT = exact`: the two transforms undo each other exactly, both ways. -/
def Obligations.BlockTransformRoundTrips : Prop :=
  ∀ p q r t : Rat,
    blkinv .exact (blkfwd .exact ⟨.num p, .num q, .num r, .num t⟩) = ⟨.num p, .num q, .num r, .num t⟩ ∧
    blkfwd .exact (blkinv .exact ⟨.num p, .num q, .num r, .num t⟩) = ⟨.num p, .num q, .num r, .num t⟩

/-- R116: for luma in [0,1], `a ∈ [0,1]` and `b, c, d ∈ [−1/2, 1/2]`, and the bound 1/2 is reached. -/
def Obligations.BlockCoefficientRanges : Prop :=
  (∀ p q r t : Rat, 0 ≤ p → p ≤ 1 → 0 ≤ q → q ≤ 1 → 0 ≤ r → r ≤ 1 → 0 ≤ t → t ≤ 1 → ∃ a b c d : Rat,
    blkfwd .exact ⟨.num p, .num q, .num r, .num t⟩ = ⟨.num a, .num b, .num c, .num d⟩ ∧
    0 ≤ a ∧ a ≤ 1 ∧ |b| ≤ 1 / 2 ∧ |c| ≤ 1 / 2 ∧ |d| ≤ 1 / 2) ∧
  blkfwd .exact ⟨.num 0, .num 0, .num 1, .num 1⟩ = ⟨.num (1 / 2), .num (1 / 2), .num 0, .num 0⟩

/-! ### Quantizer (R120 to R126) -/

/-- R123, R120, R122, `REAL_FMT = exact`: the six codes: `a` rounded from `511 × a` and clamped to 0..511, the gradients
rounded from `50 × x` and clamped to −15..15, and the chroma indices the lowest nearest entries of the table to the
mean clamped to [−0.5, 0.5]. -/
def Obligations.QuantizeCommand : Prop :=
  ∀ (a b c d pb pr : Rat) (s : State), s.fatal = false → s.cfg.fmt = .exact → ∃ q : QBlock,
    exec (.qfwd ⟨.num a, .num b, .num c, .num d⟩ (.num pb) (.num pr)) s = .next (s.answer (.ok (.qblock q))) ∧
    (q.a.toNat : Int) = max 0 (min 511 (roundAway (a * 511))) ∧
    q.b.toInt = max (-15) (min 15 (roundAway (b * 50))) ∧
    q.c.toInt = max (-15) (min 15 (roundAway (c * 50))) ∧
    q.d.toInt = max (-15) (min 15 (roundAway (d * 50))) ∧
    isNearest s.cfg (max (-(1 / 2)) (min (1 / 2) pb)) q.pbIndex ∧
    isNearest s.cfg (max (-(1 / 2)) (min (1 / 2) pr)) q.prIndex

/-- R126, under every `REAL_FMT`, for finite operands: the gradient code −16 is never produced, and the codes packed are
the zero- and sign-extension of the block put out. -/
def Obligations.QuantizerOutputRanges : Prop :=
  ∀ (c : Config) (free : Nat → BitVec 64) (k : Coef) (ch : Chroma),
    allFinite [k.a, k.b, k.c, k.d, ch.pb, ch.pr] = true →
    codesInRange (qfwd c free k ch) ∧ ext (qfwd c free k ch) = (quantize c k ch).toPk ∧
    ∃ w, pack (ext (qfwd c free k ch)) = .ok w

/-- R124, `REAL_FMT = exact`: the coefficients and the representative chroma of a quantized block; the gradient code −16
is accepted by the same formula. -/
def Obligations.DequantizeCommand : Prop :=
  ∀ (q : QBlock) (s : State), s.fatal = false → s.cfg.fmt = .exact →
    exec (.qinv q) s = .next (s.answer (.ok (.dequant
      ⟨.num (q.a.toNat / 511), .num (q.b.toInt * (3 / 10) / 15), .num (q.c.toInt * (3 / 10) / 15),
        .num (q.d.toInt * (3 / 10) / 15)⟩
      ⟨.num (s.cfg.chromaTable[q.pbIndex.toNat]'q.pbIndex.isLt),
        .num (s.cfg.chromaTable[q.prIndex.toNat]'q.prIndex.isLt)⟩)))

/-- R125, `REAL_FMT = exact`, any table that meets (T1) and (T2): quantizing a dequantized block gives the block back,
for every block whose gradient codes are in −15..15. -/
def Obligations.QuantizationIsIdempotent : Prop :=
  ∀ (c : Config) (free : Nat → BitVec 64) (q : QBlock), c.fmt = .exact → c.admissible = true → codesInRange q →
    qfwd c free (dequantCoef c.fmt q) (dequantChroma c q) = q

/-! ### Codeword (R135 to R138, R60 to R69) -/

/-- R135, R138: `PACK` answers `OVERFLOW` if and only if one of the nine conditions holds; else the closed form, whose
bits 63:32 are zero (R60). -/
def Obligations.PackCommand : Prop :=
  ∀ (k : Pk) (s : State), s.fatal = false →
    (exec (.pack k) s = .next (s.answer .overflow) ↔
      511 < k.a.toNat ∨ k.b.toInt < -16 ∨ 15 < k.b.toInt ∨ k.c.toInt < -16 ∨ 15 < k.c.toInt ∨ k.d.toInt < -16 ∨
        15 < k.d.toInt ∨ 15 < k.pbIndex.toNat ∨ 15 < k.prIndex.toNat) ∧
    (exec (.pack k) s = .next (s.answer .overflow) ∨ ∃ w : U64,
      exec (.pack k) s = .next (s.answer (.ok (.uout w))) ∧ w.toNat < 2 ^ 32 ∧
      (w.toNat : Int) = k.a.toNat * 2 ^ 23 + k.b.toInt % 32 * 2 ^ 18 + k.c.toInt % 32 * 2 ^ 13 +
        k.d.toInt % 32 * 2 ^ 8 + k.pbIndex.toNat * 2 ^ 4 + k.prIndex.toNat)

/-- R136: `UNPACK` reads the six fields as `getu` and `gets` read them, each narrowed to its `QBlock` field without
loss; as bits, 31:23, 22:18, 17:13, 12:8, 7:4 and 3:0 of the word and nothing else. -/
def Obligations.UnpackCommand : Prop :=
  ∀ (word : U64) (s : State), (encode (.unpack word)).op = 14 ∧ (s.fatal = false → ∃ q : QBlock,
    exec (.unpack word) s = .next (s.answer (.ok (.qblock q))) ∧
    getu word 9 23 = .ok (q.a.setWidth 64) ∧ gets word 5 18 = .ok (q.b.signExtend 64) ∧
    gets word 5 13 = .ok (q.c.signExtend 64) ∧ gets word 5 8 = .ok (q.d.signExtend 64) ∧
    getu word 4 4 = .ok (q.pbIndex.setWidth 64) ∧ getu word 4 0 = .ok (q.prIndex.setWidth 64) ∧
    q = ⟨word.extractLsb' 23 9, word.extractLsb' 18 5, word.extractLsb' 13 5, word.extractLsb' 8 5,
      word.extractLsb' 4 4, word.extractLsb' 0 4⟩)

/-- R137: packing is lossless and exactly invertible: (1) every block packs and unpacks to itself; (2) packing what a
word unpacks to is the word modulo `2^32`; (3) every word with a zero upper half is the codeword of exactly one
block. -/
def Obligations.PackingIsLossless : Prop :=
  (∀ q : QBlock, ∃ w, pack (ext q) = .ok w ∧ unpack w = q) ∧
  (∀ w : U64, ∃ v, pack (ext (unpack w)) = .ok v ∧ v.toNat = w.toNat % 2 ^ 32) ∧
  ∀ w : U64, w.toNat < 2 ^ 32 → ∃! q : QBlock, pack (ext q) = .ok w

/-! ### Pipeline (R145 to R148) -/

/-- R145, R148, R60, under every `REAL_FMT`: `ENCBLK` answers exactly what the host obtains by the eight commands, each
result carried to the next command's operands. The one difference R148 names is the escalation to `FATAL(INTERNAL)`,
which happens only where an operand of the `QFWD` in the chain is an infinity or a NaN (IU6), so never under `exact`.
Bits 63:32 are zero. -/
def Obligations.EncodeBlockIsTheComposition : Prop :=
  ∀ (px : Quad Pixel) (mv : U8) (s : State), s.fatal = false →
    (mv = 0 → exec (.encblk px mv) s = .next { s with fatal := true, cause := 3, rsps := s.rsps ++ [.fatal 3] }) ∧
    (mv ≠ 0 → ∃ (v0 v1 v2 v3 : Ypp) (k : Coef) (ch : Chroma) (q : QBlock) (cw : U64),
      exec (.rgb2ypp px.at0 mv) s = .next (s.answer (.ok (.ypp v0))) ∧
      exec (.rgb2ypp px.at1 mv) s = .next (s.answer (.ok (.ypp v1))) ∧
      exec (.rgb2ypp px.at2 mv) s = .next (s.answer (.ok (.ypp v2))) ∧
      exec (.rgb2ypp px.at3 mv) s = .next (s.answer (.ok (.ypp v3))) ∧
      exec (.blkfwd ⟨v0.y, v1.y, v2.y, v3.y⟩) s = .next (s.answer (.ok (.coef k))) ∧
      exec (.cavg ⟨v0.pb, v1.pb, v2.pb, v3.pb⟩ ⟨v0.pr, v1.pr, v2.pr, v3.pr⟩) s =
        .next (s.answer (.ok (.chromaMean ch))) ∧
      exec (.qfwd k ch.pb ch.pr) s = .next (s.answer (.ok (.qblock q))) ∧
      exec (.pack (ext q)) s = .next (s.answer (.ok (.uout cw))) ∧ cw.toNat < 2 ^ 32 ∧
      (exec (.encblk px mv) s = .next (s.answer (.ok (.uout cw))) ∨
        (allFinite [k.a, k.b, k.c, k.d, ch.pb, ch.pr] = false ∧
          exec (.encblk px mv) s = .next { s with fatal := true, cause := 5, rsps := s.rsps ++ [.fatal 5] })) ∧
      (s.cfg.fmt = .exact → allFinite [k.a, k.b, k.c, k.d, ch.pb, ch.pr] = true))

/-- R146, R148, under every `REAL_FMT`: `DECBLK` answers exactly what the host obtains by `UNPACK`, `QINV`, `BLKINV` and
four `YPP2RGB`, the four pixels sharing one chroma pair. With a table that meets (T1) and (T2) of R121 no value on the
way is an infinity or a NaN, and every channel lies in `0 .. max_value`. -/
def Obligations.DecodeBlockIsTheComposition : Prop :=
  ∀ (word : U64) (mv : U8) (s : State), s.fatal = false →
    (mv = 0 → exec (.decblk word mv) s = .next { s with fatal := true, cause := 3, rsps := s.rsps ++ [.fatal 3] }) ∧
    (mv ≠ 0 → ∃ (q : QBlock) (k : Coef) (ch : Chroma) (y : Quad RealVal) (p : Quad Pixel),
      exec (.unpack word) s = .next (s.answer (.ok (.qblock q))) ∧
      exec (.qinv q) s = .next (s.answer (.ok (.dequant k ch))) ∧
      exec (.blkinv k) s = .next (s.answer (.ok (.luma y))) ∧
      exec (.ypp2rgb y.at0 ch.pb ch.pr mv) s = .next (s.answer (.ok (.pixel p.at0))) ∧
      exec (.ypp2rgb y.at1 ch.pb ch.pr mv) s = .next (s.answer (.ok (.pixel p.at1))) ∧
      exec (.ypp2rgb y.at2 ch.pb ch.pr mv) s = .next (s.answer (.ok (.pixel p.at2))) ∧
      exec (.ypp2rgb y.at3 ch.pb ch.pr mv) s = .next (s.answer (.ok (.pixel p.at3))) ∧
      exec (.decblk word mv) s = .next (s.answer (.ok (.pixels p))) ∧
      (s.cfg.admissible = true →
        allFinite ([k.a, k.b, k.c, k.d, ch.pb, ch.pr] ++ y.toList) = true ∧
        ∀ v ∈ p.toList, v.r.toNat ≤ mv.toNat ∧ v.g.toNat ≤ mv.toNat ∧ v.b.toNat ≤ mv.toNat))

/-- R69, R146: two codewords that differ only in bits 63:32 decode alike, by `UNPACK` and by `DECBLK`, from every
state. -/
def Obligations.DecodersIgnoreTheUpperHalf : Prop :=
  ∀ (v w : U64) (mv : U8) (s : State), v.toNat % 2 ^ 32 = w.toNat % 2 ^ 32 →
    exec (.unpack v) s = exec (.unpack w) s ∧ exec (.decblk v mv) s = exec (.decblk w mv) s

/-- R147, the half that holds, `REAL_FMT = exact`, any matrices: a uniform block compresses to a codeword whose `b`,
`c`, `d` fields are 0 and whose `a` field is `round(511 × Y)` clamped, `Y` the luma of the pixel; and with the default
matrices (log entry 2) the luma of a grey pixel of level `v` is `v / max_value`. -/
def Obligations.UniformBlockHasNoGradient : Prop :=
  (∀ (px : Pixel) (mv : U8) (s : State), s.fatal = false → s.cfg.fmt = .exact → mv ≠ 0 → ∃ (y : Rat) (v : Ypp) (cw : U64),
    rgb2ypp s.cfg px mv = .ok v ∧ v.y = .num y ∧
    exec (.encblk (Quad.all px) mv) s = .next (s.answer (.ok (.uout cw))) ∧
    (unpack cw).b = 0 ∧ (unpack cw).c = 0 ∧ (unpack cw).d = 0 ∧
    ((unpack cw).a.toNat : Int) = max 0 (min 511 (roundAway (y * 511)))) ∧
  ∀ (v mv : U8), mv ≠ 0 → ∃ w : Ypp, rgb2ypp Config.default ⟨v, v, v⟩ mv = .ok w ∧
    w.y = .num (v.toNat / (mv.toNat : Rat))

/-! ### Real-valued commands under every `REAL_FMT` (R17) -/

/-- R17, R101, R102, R112, R113, R114, R123, R124, under every `REAL_FMT`, for finite operands: every result is the
rule's pseudocode with one operation of the format per written operator, in the written order and association, and with
every literal and table entry first rounded to the format (what one operation gives is `EachOperatorRoundsTheExactResult`,
what rounding is `RoundingIsToNearest`). A channel is stated where its row is no NaN (log entry 5); a scaled value that
overflowed to an infinity has the code the clamp gives on its side. -/
def Obligations.EveryOperatorIsOneOperationOfTheFormat : Prop :=
  ∀ (s : State) (f : RealFmt), s.fatal = false → s.cfg.fmt = f →
    (∀ (px : Pixel) (mv : U8) (rn gn bn : RealVal) (row : Row3 → RealVal), mv ≠ 0 →
      rn = Reals.div f (.num px.r.toNat) (.num mv.toNat) → gn = Reals.div f (.num px.g.toNat) (.num mv.toNat) →
      bn = Reals.div f (.num px.b.toNat) (.num mv.toNat) →
      (∀ m, row m = Reals.add f (Reals.add f (Reals.mul f (Reals.lit f m.c0) rn) (Reals.mul f (Reals.lit f m.c1) gn))
        (Reals.mul f (Reals.lit f m.c2) bn)) →
      exec (.rgb2ypp px mv) s =
        .next (s.answer (.ok (.ypp ⟨row s.cfg.colorFwd.row0, row s.cfg.colorFwd.row1, row s.cfg.colorFwd.row2⟩)))) ∧
    (∀ (y pb pr : RealVal) (mv : U8) (row : Row3 → RealVal) (r g b : Int), mv ≠ 0 → allFinite [y, pb, pr] = true →
      (∀ m, row m = Reals.add f (Reals.add f (Reals.mul f (Reals.lit f m.c0) y) (Reals.mul f (Reals.lit f m.c1) pb))
        (Reals.mul f (Reals.lit f m.c2) pr)) →
      Reals.rha? f (Reals.mul f (Reals.clamp (row s.cfg.colorInv.row0) (.num 0) (.num 1)) (.num mv.toNat)) = some r →
      Reals.rha? f (Reals.mul f (Reals.clamp (row s.cfg.colorInv.row1) (.num 0) (.num 1)) (.num mv.toNat)) = some g →
      Reals.rha? f (Reals.mul f (Reals.clamp (row s.cfg.colorInv.row2) (.num 0) (.num 1)) (.num mv.toNat)) = some b →
      exec (.ypp2rgb y pb pr mv) s =
        .next (s.answer (.ok (.pixel ⟨BitVec.ofInt 8 r, BitVec.ofInt 8 g, BitVec.ofInt 8 b⟩)))) ∧
    (∀ y0 y1 y2 y3 : RealVal, allFinite [y0, y1, y2, y3] = true →
      exec (.blkfwd ⟨y0, y1, y2, y3⟩) s = .next (s.answer (.ok (.coef
        ⟨Reals.div f (Reals.add f (Reals.add f (Reals.add f y3 y2) y1) y0) (.num 4),
          Reals.div f (Reals.sub f (Reals.sub f (Reals.add f y3 y2) y1) y0) (.num 4),
          Reals.div f (Reals.sub f (Reals.add f (Reals.sub f y3 y2) y1) y0) (.num 4),
          Reals.div f (Reals.add f (Reals.sub f (Reals.sub f y3 y2) y1) y0) (.num 4)⟩)))) ∧
    (∀ a b c d : RealVal, allFinite [a, b, c, d] = true →
      exec (.blkinv ⟨a, b, c, d⟩) s = .next (s.answer (.ok (.luma
        ⟨Reals.add f (Reals.sub f (Reals.sub f a b) c) d, Reals.sub f (Reals.add f (Reals.sub f a b) c) d,
          Reals.sub f (Reals.sub f (Reals.add f a b) c) d, Reals.add f (Reals.add f (Reals.add f a b) c) d⟩)))) ∧
    (∀ b0 b1 b2 b3 r0 r1 r2 r3 : RealVal, allFinite [b0, b1, b2, b3, r0, r1, r2, r3] = true →
      exec (.cavg ⟨b0, b1, b2, b3⟩ ⟨r0, r1, r2, r3⟩) s = .next (s.answer (.ok (.chromaMean
        ⟨Reals.div f (Reals.add f (Reals.add f (Reals.add f b0 b1) b2) b3) (.num 4),
          Reals.div f (Reals.add f (Reals.add f (Reals.add f r0 r1) r2) r3) (.num 4)⟩)))) ∧
    (∀ (k : Coef) (pb pr : RealVal), allFinite [k.a, k.b, k.c, k.d, pb, pr] = true → ∃ q : QBlock,
      exec (.qfwd k pb pr) s = .next (s.answer (.ok (.qblock q))) ∧
      (∀ v : Int, Reals.rha? f (Reals.mul f k.a (.num 511)) = some v → (q.a.toNat : Int) = max 0 (min 511 v)) ∧
      (∀ neg : Bool, Reals.mul f k.a (.num 511) = .inf neg → q.a.toNat = if neg then 0 else 511) ∧
      firstNearest s.cfg (Reals.clamp pb (.num (-(1 / 2))) (.num (1 / 2))) q.pbIndex ∧
      firstNearest s.cfg (Reals.clamp pr (.num (-(1 / 2))) (.num (1 / 2))) q.prIndex ∧
      ∀ (x : RealVal) (code : S5), (x, code) ∈ [(k.b, q.b), (k.c, q.c), (k.d, q.d)] →
        (∀ v : Int, Reals.rha? f (Reals.mul f (Reals.div f x (Reals.lit f (3 / 10))) (.num 15)) = some v →
          code.toInt = max (-15) (min 15 v)) ∧
        ∀ neg : Bool, Reals.mul f (Reals.div f x (Reals.lit f (3 / 10))) (.num 15) = .inf neg →
          code.toInt = if neg then -15 else 15) ∧
    ∀ q : QBlock, exec (.qinv q) s = .next (s.answer (.ok (.dequant
      ⟨Reals.div f (.num q.a.toNat) (.num 511),
        Reals.div f (Reals.mul f (.num q.b.toInt) (Reals.lit f (3 / 10))) (.num 15),
        Reals.div f (Reals.mul f (.num q.c.toInt) (Reals.lit f (3 / 10))) (.num 15),
        Reals.div f (Reals.mul f (.num q.d.toInt) (Reals.lit f (3 / 10))) (.num 15)⟩
      ⟨Reals.lit f (s.cfg.chromaTable[q.pbIndex.toNat]'q.pbIndex.isLt),
        Reals.lit f (s.cfg.chromaTable[q.prIndex.toNat]'q.prIndex.isLt)⟩)))

/-! ### Formats at the boundary (R45) and rounding (R17) -/

/-- R45: the wire form of a codeword is eight bytes, most significant first, and reading them gives the codeword back;
for a codeword below `2^32` the first four bytes are zero. -/
def Obligations.WireFormIsBigEndian : Prop :=
  (∀ w : U64, (wireBytes w).length = 8 ∧ wireWord (wireBytes w) = some w ∧
    ∀ k : Nat, k < 8 → ∀ b, (wireBytes w)[k]? = some b → b.toNat = w.toNat / 2 ^ (8 * (7 - k)) % 256) ∧
  ∀ w : U64, w.toNat < 2 ^ 32 → (wireBytes w).take 4 = [0, 0, 0, 0]

/-- R17 "(round to nearest, ties to even)", for `binary32` and `binary64` as log entry 4 reads them, the values of the
format being those of `floatValue`, written without the rounding: a rational that rounds to the finite value `v` has
no value of the format nearer than `v`, and where another is as near, the significand of `v` is even; a rational rounds
to an infinity of its sign exactly from half a step above the largest value on, and never to a NaN; and the rationals
the format's ports carry are the values of the format. -/
def Obligations.RoundingIsToNearest : Prop :=
  ∀ (f : RealFmt) (q : Rat), f ≠ .exact →
    (∀ v : Rat, (Reals.lit f q).value? = some v →
      floatValue f v ∧ (∀ u, floatValue f u → |q - v| ≤ |q - u|) ∧
      ∀ u, floatValue f u → u ≠ v → |q - u| = |q - v| →
        ∃ k e : Int, floatParts f k e ∧ v = k * (2 : Rat) ^ e ∧ k % 2 = 0) ∧
    (∀ neg : Bool, Reals.lit f q = .inf neg ↔ overflowBound f ≤ |q| ∧ neg = decide (q < 0)) ∧
    Reals.lit f q ≠ .nan ∧
    (Reals.isOfFormat f (.num q) = true ↔ floatValue f q)

/-- R17, under every `REAL_FMT`: "every `+`, `−`, `×`, `/` in a rule is one correctly rounded operation". On finite
operands of the format each gives the exact rational result rounded to the format (a result of exactly 0 is a zero, its
sign log entry 4), and under `exact` the exact result itself; the comparison, `abs` and `clamp` are those of the
rationals; and `rha` is the floor of the magnitude plus 1/2, that sum one rounded operation (log entry 4), with the
operand's sign. -/
def Obligations.EachOperatorRoundsTheExactResult : Prop :=
  (∀ r : Rat, Reals.lit .exact r = .num r) ∧
  ∀ (f : RealFmt) (x y : RealVal) (p q : Rat), Reals.isOfFormat f x = true → Reals.isOfFormat f y = true →
    x.value? = some p → y.value? = some q →
    isRounded f (p + q) (Reals.add f x y) ∧ isRounded f (p - q) (Reals.sub f x y) ∧
    isRounded f (p * q) (Reals.mul f x y) ∧ (q ≠ 0 → isRounded f (p / q) (Reals.div f x y)) ∧
    Reals.lt x y = decide (p < q) ∧ (Reals.abs x).value? = some |p| ∧
    (∀ lo hi : Rat, lo ≤ hi → (Reals.clamp x (.num lo) (.num hi)).value? = some (max lo (min hi p))) ∧
    ∃ w : Rat, Reals.lit f (|p| + 1 / 2) = .num w ∧
      Reals.rha? f x = some ((if p < 0 then -1 else if p = 0 then 0 else 1) * w.floor)

/-- R123 "`a < 0` gives 0 and `a > 1` gives 511", and the saturation of the gradients from ±0.3 on (the literal as the
format rounds it), under every `REAL_FMT`, for finite operands of any magnitude: also where the scaling overflows the
format. -/
def Obligations.QuantizerSaturatesUnderEveryFormat : Prop :=
  ∀ (k : Coef) (pb pr : RealVal) (s : State), s.fatal = false →
    allFinite [k.a, k.b, k.c, k.d, pb, pr] = true → ∃ q : QBlock,
    exec (.qfwd k pb pr) s = .next (s.answer (.ok (.qblock q))) ∧
    (Reals.lt (.num 1) k.a = true → q.a.toNat = 511) ∧ (Reals.lt k.a (.num 0) = true → q.a.toNat = 0) ∧
    ∀ (x : RealVal) (code : S5), (x, code) ∈ [(k.b, q.b), (k.c, q.c), (k.d, q.d)] →
      (Reals.lt x (Reals.lit s.cfg.fmt (3 / 10)) = false → code.toInt = 15) ∧
      (Reals.lt (Reals.lit s.cfg.fmt (-(3 / 10))) x = false → code.toInt = -15)

/-- R102 "each result lies in `0 .. max_value` and so fits `U8`", under every `REAL_FMT`, for finite operands of any
magnitude: also where a row overflows the format. -/
def Obligations.ChannelsNeverExceedMaxValue : Prop :=
  ∀ (y pb pr : RealVal) (mv : U8) (s : State), s.fatal = false → mv ≠ 0 → allFinite [y, pb, pr] = true →
    ∃ p : Pixel, exec (.ypp2rgb y pb pr mv) s = .next (s.answer (.ok (.pixel p))) ∧
      p.r.toNat ≤ mv.toNat ∧ p.g.toNat ≤ mv.toNat ∧ p.b.toNat ≤ mv.toNat
end
end

