-- ==== Sys2Proof/Laws/State.lean ====
section
/-! SUPPORT. One lemma per field per update of the state. -/

namespace Sys2Proof.Machine

variable (s : State) (r : Rsp) (p : Payload) (c : Cause)

@[simp] theorem answer_cfg : (s.answer r).cfg = s.cfg := rfl
@[simp] theorem answer_fatal : (s.answer r).fatal = s.fatal := rfl
@[simp] theorem answer_cause : (s.answer r).cause = s.cause := rfl
@[simp] theorem answer_inbox : (s.answer r).inbox = s.inbox := rfl
@[simp] theorem answer_rsps : (s.answer r).rsps = s.rsps ++ [r] := rfl

@[simp] theorem raiseFatal_cfg : (raiseFatal c s).cfg = s.cfg := rfl
@[simp] theorem raiseFatal_fatal : (raiseFatal c s).fatal = true := rfl
@[simp] theorem raiseFatal_cause : (raiseFatal c s).cause = c.code := rfl
@[simp] theorem raiseFatal_inbox : (raiseFatal c s).inbox = s.inbox := rfl
@[simp] theorem raiseFatal_rsps : (raiseFatal c s).rsps = s.rsps ++ [.fatal c.code] := rfl

@[simp] theorem doReset_cfg : s.doReset.cfg = s.cfg := rfl
@[simp] theorem doReset_fatal : s.doReset.fatal = false := rfl
@[simp] theorem doReset_cause : s.doReset.cause = 0 := rfl
@[simp] theorem doReset_inbox : s.doReset.inbox = s.inbox := rfl
@[simp] theorem doReset_rsps : s.doReset.rsps = s.rsps := rfl

@[simp] theorem respondOk_eq : respondOk p s = s.answer (.ok p) := rfl
@[simp] theorem raiseOverflow_eq : raiseOverflow s = s.answer .overflow := rfl
@[simp] theorem answerLatched_eq : answerLatched s = s.answer (.fatal s.cause) := rfl

end Sys2Proof.Machine
end

