-- ==== Sys2Proof/Laws/Ops.lean ====
section
/-! SUPPORT. What each shared operation can do, said once. -/

namespace Sys2Proof.Machine

variable {s : State} {r : Except CmdErr Payload}

@[simp] theorem finish_ok (p : Payload) (s : State) : finish (.ok p) s = s.answer (.ok p) := rfl
@[simp] theorem finish_overflow (s : State) : finish (.error .overflow) s = s.answer .overflow := rfl
@[simp] theorem finish_fatal (c : Cause) (s : State) : finish (.error (.fatal c)) s = raiseFatal c s := rfl

/-- A command under the latch. -/
theorem command_latched (h : s.fatal = true) (r : Except CmdErr Payload) :
    command r s = .next (s.answer (.fatal s.cause)) := by simp [command, h]

/-- A command with the latch clear. -/
theorem command_clear (h : s.fatal = false) (r : Except CmdErr Payload) : command r s = .next (finish r s) := by
  simp [command, h]

/-- What a command's ending can do: one response, and `STATUS` only on a `FATAL`. -/
theorem finish_cases (r : Except CmdErr Payload) (s : State) :
    (∃ p, r = .ok p ∧ finish r s = s.answer (.ok p)) ∨ (r = .error .overflow ∧ finish r s = s.answer .overflow) ∨
      ∃ c, r = .error (.fatal c) ∧ finish r s = raiseFatal c s := by
  rcases r with (_ | c) | p
  · exact .inr (.inl ⟨rfl, rfl⟩)
  · exact .inr (.inr ⟨c, rfl, rfl⟩)
  · exact .inl ⟨p, rfl, rfl⟩

/-- With finite operands no free value enters a result. -/
theorem blkfwdAny_finite {f : RealFmt} {free : Nat → BitVec 64} {y : Quad RealVal} (h : allFinite y.toList = true) :
    blkfwdAny f free y = blkfwd f y := if_pos h

theorem blkinvAny_finite {f : RealFmt} {free : Nat → BitVec 64} {k : Coef} (h : allFinite [k.a, k.b, k.c, k.d] = true) :
    blkinvAny f free k = blkinv f k := if_pos h

theorem cavgAny_finite {f : RealFmt} {free : Nat → BitVec 64} {pb pr : Quad RealVal}
    (h : allFinite (pb.toList ++ pr.toList) = true) : cavgAny f free pb pr = cavg f pb pr := if_pos h

theorem codesAny_finite {c : Config} {free : Nat → BitVec 64} {k : Coef} {ch : Chroma}
    (h : allFinite [k.a, k.b, k.c, k.d, ch.pb, ch.pr] = true) : codesAny c free k ch = quantize c k ch := if_pos h

/-- The result of a command's own rule under the configuration: every meaning is the prologue and this result. -/
def rule (c : Config) : Instr → Except CmdErr Payload
  | .fitsu uval width => .fits <$> fitsu uval width
  | .fitss sval width => .fits <$> fitss sval width
  | .getu word width lsb => .uout <$> getu word width lsb
  | .gets word width lsb => .sout <$> gets word width lsb
  | .insu word width lsb uval => .uout <$> insu word width lsb uval
  | .inss word width lsb sval => .uout <$> inss word width lsb sval
  | .rgb2ypp px mv => .ypp <$> rgb2ypp c px mv
  | .ypp2rgb y pb pr mv => .pixel <$> ypp2rgbOf c y pb pr mv
  | .blkfwd y => .ok (.coef (blkfwdOf c y))
  | .blkinv k => .ok (.luma (blkinvOf c k))
  | .cavg pb pr => .ok (.chromaMean (cavgOf c pb pr))
  | .qfwd k pb pr => .ok (.qblock (codesOf c k ⟨pb, pr⟩).toQBlock)
  | .qinv q => .ok (.dequant (dequantCoef c.fmt q) (dequantChroma c q))
  | .pack pk => .uout <$> pack pk
  | .unpack word => .ok (.qblock (unpack word))
  | .encblk px mv => .uout <$> encblk c px mv
  | .decblk word mv => .pixels <$> decblk c word mv

/-- Every meaning, said once: the prologue, then the rule's result. -/
theorem exec_eq (i : Instr) (s : State) :
    exec i s = .next (if s.fatal then s.answer (.fatal s.cause)
      else finish (rule s.cfg i) s) := by
  cases i <;> rfl

/-- A meaning under the latch. -/
theorem exec_latched (i : Instr) {s : State} (h : s.fatal = true) : exec i s = .next (s.answer (.fatal s.cause)) := by
  simp [exec_eq, h]

/-- A meaning with the latch clear: the rule's result is answered. -/
theorem exec_clear (i : Instr) {s : State} (h : s.fatal = false) :
    exec i s = .next (finish (rule s.cfg i) s) := by simp [exec_eq, h]

/-- Everything a meaning can do: one response is added; `STATUS` changes only when a `FATAL` is raised from a clear
latch; nothing else changes. -/
theorem exec_cases (i : Instr) (s : State) :
    (s.fatal = true ∧ exec i s = .next (s.answer (.fatal s.cause))) ∨
      (s.fatal = false ∧ ∃ p, exec i s = .next (s.answer (.ok p))) ∨
      (s.fatal = false ∧ exec i s = .next (s.answer .overflow)) ∨
      (s.fatal = false ∧ ∃ c, exec i s = .next (raiseFatal c s)) := by
  by_cases h : s.fatal = true
  · exact .inl ⟨h, exec_latched i h⟩
  · have h : s.fatal = false := by simpa using h
    have e := exec_clear i h
    refine .inr ?_
    rcases finish_cases (rule s.cfg i) s with ⟨p, -, e'⟩ | ⟨-, e'⟩ | ⟨c, -, e'⟩
    · exact .inl ⟨h, p, by rw [e, e']⟩
    · exact .inr (.inl ⟨h, by rw [e, e']⟩)
    · exact .inr (.inr ⟨h, c, by rw [e, e']⟩)

/-- Everything a presented command can do. -/
theorem runCommand_cases (p : Ports) (s : State) :
    (s.cfg.admissible = false ∧ runCommand p s = .refused .inadmissibleTable) ∨
      (s.cfg.admissible = true ∧ ∃ op, decode p = .error (.reservedOp op) ∧ runCommand p s = .next (executeIllegal s)) ∨
      (s.cfg.admissible = true ∧ ∃ i, decode p = .ok i ∧ i.wf s.cfg.fmt = true ∧ runCommand p s = exec i s) ∨
      (s.cfg.admissible = true ∧ ∃ i, decode p = .ok i ∧ i.wf s.cfg.fmt = false ∧
        runCommand p s = .fault .operandNotOfFormat) := by
  unfold runCommand
  cases ha : s.cfg.admissible with
  | false => exact .inl ⟨rfl, rfl⟩
  | true =>
    rcases hd : decode p with ⟨⟨op⟩⟩ | i
    · exact .inr (.inl ⟨rfl, op, rfl, by simp⟩)
    · cases hw : i.wf s.cfg.fmt with
      | true => exact .inr (.inr (.inl ⟨rfl, i, rfl, hw, by simp [hw]⟩))
      | false => exact .inr (.inr (.inr ⟨rfl, i, rfl, hw, by simp [hw]⟩))

/-- A reserved `op` under the latch, and with the latch clear. -/
theorem executeIllegal_eq (s : State) :
    executeIllegal s = if s.fatal then s.answer (.fatal s.cause) else raiseFatal .illegalOp s := rfl

end Sys2Proof.Machine
end

