-- ==== Sys2Proof/Laws/BitField.lean ====
section
/-! SUPPORT. The BitField Codec's shared operations, bit by bit. -/

namespace Sys2Proof.Machine

theorem checkWidth_ok {width : U7} (h : width.toNat ≤ 64) : checkWidth width = .ok () := by
  simp [checkWidth, Nat.not_lt.mpr h]

theorem checkWidth_range {width : U7} (h : 64 < width.toNat) : checkWidth width = .error (.fatal .widthRange) := by
  simp [checkWidth, h]

theorem checkField_ok {width lsb : U7} (h : width.toNat + lsb.toNat ≤ 64) : checkField width lsb = .ok () := by
  have h1 : ¬ 64 < width.toNat := by omega
  have h2 : ¬ 64 < width.toNat + lsb.toNat := by omega
  simp [checkField, h1, h2]

theorem checkField_width {width : U7} (lsb : U7) (h : 64 < width.toNat) :
    checkField width lsb = .error (.fatal .widthRange) := by simp [checkField, h]

theorem checkField_field {width lsb : U7} (h : width.toNat ≤ 64) (h' : 64 < width.toNat + lsb.toNat) :
    checkField width lsb = .error (.fatal .fieldRange) := by simp [checkField, Nat.not_lt.mpr h, h']

theorem fitsUnsigned_iff (n : U64) (width : U7) : fitsUnsigned n width = true ↔ n.toNat < 2 ^ width.toNat := by
  simp [fitsUnsigned]

theorem fitsSigned_iff (n : S64) (width : U7) : fitsSigned n width = true ↔
    1 ≤ width.toNat ∧ -(2 : Int) ^ (width.toNat - 1) ≤ n.toInt ∧ n.toInt < (2 : Int) ^ (width.toNat - 1) := by
  unfold fitsSigned
  split
  · simp_all
  · simp only [Bool.and_eq_true, decide_eq_true_eq]
    omega

/-- The field is below `2^width`. -/
theorem fieldNat_lt (word : U64) (width lsb : U7) : fieldNat word width lsb < 2 ^ width.toNat :=
  Nat.mod_lt _ (by positivity)

/-- The field fits the port. -/
theorem fieldNat_lt_64 (word : U64) (width lsb : U7) : fieldNat word width lsb < 2 ^ 64 :=
  lt_of_le_of_lt (le_trans (Nat.mod_le _ _) (Nat.div_le_self _ _)) word.isLt

/-- The bits of the field are the word's bits from `lsb` on. -/
theorem fieldNat_testBit (word : U64) (width lsb : U7) (i : Nat) :
    (fieldNat word width lsb).testBit i = (decide (i < width.toNat) && word.getLsbD (lsb.toNat + i)) := by
  simp [fieldNat, Nat.testBit_mod_two_pow, Nat.testBit_div_two_pow, BitVec.getLsbD, Nat.add_comm]

theorem and_mask (x w l : Nat) : x &&& ((2 ^ w - 1) * 2 ^ l) = x / 2 ^ l % 2 ^ w * 2 ^ l := by
  apply Nat.eq_of_testBit_eq
  intro i
  rw [← Nat.shiftLeft_eq, ← Nat.shiftLeft_eq]
  simp only [Nat.testBit_and, Nat.testBit_shiftLeft, Nat.testBit_two_pow_sub_one, Nat.testBit_mod_two_pow,
    Nat.testBit_div_two_pow]
  by_cases h : l ≤ i
  · have : i - l + l = i := by omega
    simp [h, this, Bool.and_comm]
  · simp [h]

/-- A word is its part above a field, the field, and its part below. -/
theorem field_split (x w l : Nat) : x = 2 ^ (l + w) * (x / 2 ^ (l + w)) + (2 ^ l * (x / 2 ^ l % 2 ^ w) + x % 2 ^ l) := by
  have h1 := Nat.div_add_mod x (2 ^ l)
  have h2 := Nat.div_add_mod (x / 2 ^ l) (2 ^ w)
  rw [Nat.div_div_eq_div_mul, ← pow_add] at h2
  calc x = 2 ^ l * (x / 2 ^ l) + x % 2 ^ l := h1.symm
    _ = 2 ^ l * (2 ^ w * (x / 2 ^ (l + w)) + x / 2 ^ l % 2 ^ w) + x % 2 ^ l := by rw [h2]
    _ = _ := by rw [pow_add]; ring

/-- Replacing a field, on naturals: the parts above and below stand. -/
theorem replace_field (x w l v : Nat) : x - (x &&& ((2 ^ w - 1) * 2 ^ l)) + v * 2 ^ l =
    2 ^ (l + w) * (x / 2 ^ (l + w)) + (2 ^ l * v + x % 2 ^ l) := by
  rw [and_mask]
  have h := field_split x w l
  generalize x / 2 ^ (l + w) = hi at *
  generalize x / 2 ^ l % 2 ^ w = f at *
  generalize x % 2 ^ l = lo at *
  rw [h, Nat.mul_comm f, Nat.mul_comm v]
  omega

theorem replace_field_inner {x w l v : Nat} (hv : v < 2 ^ w) : 2 ^ l * v + x % 2 ^ l < 2 ^ (l + w) := by
  have h1 : x % 2 ^ l < 2 ^ l := Nat.mod_lt _ (by positivity)
  have h2 : 2 ^ l * (v + 1) ≤ 2 ^ l * 2 ^ w := Nat.mul_le_mul_left _ hv
  rw [pow_add]
  rw [Nat.mul_add, Nat.mul_one] at h2
  omega

/-- Replacing a field keeps a 64-bit word below `2^64` (R85). -/
theorem replace_field_lt {x w l v : Nat} (hx : x < 2 ^ 64) (hv : v < 2 ^ w) (hw : w + l ≤ 64) :
    x - (x &&& ((2 ^ w - 1) * 2 ^ l)) + v * 2 ^ l < 2 ^ 64 := by
  rw [replace_field]
  have h1 := replace_field_inner (x := x) (l := l) hv
  have e : 2 ^ 64 = 2 ^ (l + w) * 2 ^ (64 - (l + w)) := by rw [← pow_add]; congr 1; omega
  have h2 : x / 2 ^ (l + w) < 2 ^ (64 - (l + w)) := by
    rw [Nat.div_lt_iff_lt_mul (by positivity)]
    rw [e, Nat.mul_comm] at hx
    exact hx
  have h3 : 2 ^ (l + w) * (x / 2 ^ (l + w) + 1) ≤ 2 ^ (l + w) * 2 ^ (64 - (l + w)) := Nat.mul_le_mul_left _ h2
  rw [Nat.mul_add, Nat.mul_one] at h3
  omega

theorem putField_toNat (word : U64) (width lsb : U7) (v : Nat) (hv : v < 2 ^ width.toNat)
    (h : width.toNat + lsb.toNat ≤ 64) : (putField word width lsb v).toNat =
      2 ^ (lsb.toNat + width.toNat) * (word.toNat / 2 ^ (lsb.toNat + width.toNat)) +
        (2 ^ lsb.toNat * v + word.toNat % 2 ^ lsb.toNat) := by
  rw [← replace_field]
  exact Nat.mod_eq_of_lt (replace_field_lt word.isLt hv h)

/-- Replacing a field, bit by bit (R85, R88). -/
theorem putField_getLsbD (word : U64) (width lsb : U7) (v : Nat) (hv : v < 2 ^ width.toNat)
    (h : width.toNat + lsb.toNat ≤ 64) (i : Nat) : (putField word width lsb v).getLsbD i =
      if lsb.toNat ≤ i ∧ i < lsb.toNat + width.toNat then v.testBit (i - lsb.toNat) else word.getLsbD i := by
  rw [BitVec.getLsbD, putField_toNat word width lsb v hv h,
    Nat.testBit_two_pow_mul_add _ (replace_field_inner hv)]
  have hlo : word.toNat % 2 ^ lsb.toNat < 2 ^ lsb.toNat := Nat.mod_lt _ (by positivity)
  by_cases h1 : i < lsb.toNat + width.toNat
  · rw [if_pos h1, Nat.testBit_two_pow_mul_add _ hlo]
    by_cases h2 : lsb.toNat ≤ i
    · have : ¬ i < lsb.toNat := by omega
      simp [h1, h2, this]
    · have : i < lsb.toNat := by omega
      simp [h2, this, Nat.testBit_mod_two_pow, BitVec.getLsbD]
  · have : lsb.toNat + width.toNat + (i - (lsb.toNat + width.toNat)) = i := by omega
    have h3 : ¬ (lsb.toNat ≤ i ∧ i < lsb.toNat + width.toNat) := by omega
    rw [if_neg h1, if_neg h3, Nat.testBit_div_two_pow, Nat.add_comm, this, BitVec.getLsbD]

/-- The field just written is read back, as a number. -/
theorem fieldNat_putField (word : U64) (width lsb : U7) (v : Nat) (hv : v < 2 ^ width.toNat)
    (h : width.toNat + lsb.toNat ≤ 64) : fieldNat (putField word width lsb v) width lsb = v := by
  apply Nat.eq_of_testBit_eq
  intro i
  rw [fieldNat_testBit, putField_getLsbD word width lsb v hv h]
  by_cases hi : i < width.toNat
  · simp [hi]
  · have : v.testBit i = false := by
      apply Nat.testBit_lt_two_pow
      exact lt_of_lt_of_le hv (Nat.pow_le_pow_right (by norm_num) (by omega))
    simp [hi, this]

theorem fitsu_ok {uval : U64} {width : U7} (h : width.toNat ≤ 64) :
    fitsu uval width = .ok (fitsUnsigned uval width) := by simp [fitsu, checkWidth_ok h]

theorem fitss_ok {sval : S64} {width : U7} (h : width.toNat ≤ 64) :
    fitss sval width = .ok (fitsSigned sval width) := by simp [fitss, checkWidth_ok h]

theorem getu_ok {word : U64} {width lsb : U7} (h : width.toNat + lsb.toNat ≤ 64) :
    getu word width lsb = .ok (BitVec.ofNat 64 (fieldNat word width lsb)) := by simp [getu, checkField_ok h]

theorem gets_ok {word : U64} {width lsb : U7} (h : width.toNat + lsb.toNat ≤ 64) :
    gets word width lsb = .ok (BitVec.ofInt 64 (fieldInt word width lsb)) := by simp [gets, checkField_ok h]

theorem insu_ok {word uval : U64} {width lsb : U7} (h : width.toNat + lsb.toNat ≤ 64)
    (hf : fitsUnsigned uval width = true) : insu word width lsb uval = .ok (putField word width lsb uval.toNat) := by
  simp [insu, checkField_ok h, hf]

theorem insu_overflow {word uval : U64} {width lsb : U7} (h : width.toNat + lsb.toNat ≤ 64)
    (hf : fitsUnsigned uval width = false) : insu word width lsb uval = .error .overflow := by
  simp [insu, checkField_ok h, hf]; rfl

theorem inss_ok {word sval : U64} {width lsb : U7} (h : width.toNat + lsb.toNat ≤ 64)
    (hf : fitsSigned sval width = true) :
    inss word width lsb sval = .ok (putField word width lsb (sval.toInt % 2 ^ width.toNat).toNat) := by
  simp [inss, checkField_ok h, hf]

theorem inss_overflow {word sval : U64} {width lsb : U7} (h : width.toNat + lsb.toNat ≤ 64)
    (hf : fitsSigned sval width = false) : inss word width lsb sval = .error .overflow := by
  simp [inss, checkField_ok h, hf]; rfl

/-- The low `width` bits of a signed value, as a number, fit the field. -/
theorem twos_lt (v : Int) (w : Nat) : (v % 2 ^ w).toNat < 2 ^ w := by
  have h1 : (0 : Int) < 2 ^ w := by positivity
  have := Int.emod_lt_of_pos v h1
  have := Int.emod_nonneg v h1.ne'
  have hc : ((2 ^ w : Nat) : Int) = (2 : Int) ^ w := by push_cast; rfl
  omega

/-- The low `width` bits of a signed value, bit by bit. -/
theorem twos_testBit (v : S64) (w : Nat) (hw : w ≤ 64) (i : Nat) (hi : i < w) :
    (v.toInt % 2 ^ w).toNat.testBit i = v.getLsbD i := by
  have e : (v.toInt % 2 ^ w).toNat = v.toNat % 2 ^ w := by
    rw [BitVec.toInt_eq_toNat_bmod, Int.bmod_def]
    have hd : ((2 : Int) ^ w) ∣ ((2 ^ 64 : Nat) : Int) := by push_cast; exact pow_dvd_pow 2 hw
    have hc : ((2 ^ w : Nat) : Int) = (2 : Int) ^ w := by push_cast; rfl
    split
    · rw [Int.emod_emod_of_dvd _ hd, ← hc, ← Int.natCast_emod, Int.toNat_natCast]
    · rw [Int.sub_emod, Int.emod_eq_zero_of_dvd hd, Int.sub_zero, Int.emod_emod_of_dvd _ hd, Int.emod_emod, ← hc,
        ← Int.natCast_emod, Int.toNat_natCast]
  rw [e, Nat.testBit_mod_two_pow, BitVec.getLsbD]
  simp [hi]

theorem toInt_ofInt_64 {x : Int} (a : -2 ^ 63 ≤ x) (b : x < 2 ^ 63) : (BitVec.ofInt 64 x).toInt = x := by
  rw [BitVec.toInt_ofInt]; apply Int.bmod_eq_of_le <;> omega

/-- A signed field lies in its width's signed range. -/
theorem fieldInt_range (word : U64) (width lsb : U7) (h : 1 ≤ width.toNat) :
    -(2 : Int) ^ (width.toNat - 1) ≤ fieldInt word width lsb ∧
      fieldInt word width lsb < (2 : Int) ^ (width.toNat - 1) := by
  have hlt := fieldNat_lt word width lsb
  unfold fieldInt
  generalize fieldNat word width lsb = f at *
  obtain ⟨k, hk⟩ : ∃ k, width.toNat = k + 1 := ⟨width.toNat - 1, by omega⟩
  rw [hk] at hlt ⊢
  simp only [Nat.add_sub_cancel]
  have hc : ((2 ^ k : Nat) : Int) = (2 : Int) ^ k := by push_cast; rfl
  rw [pow_succ] at hlt
  rw [pow_succ, ← hc]
  split <;> omega

/-- The sign bit of a field, as a comparison of its number. -/
theorem fieldNat_sign (word : U64) (width lsb : U7) (h1 : 1 ≤ width.toNat) :
    2 ^ (width.toNat - 1) ≤ fieldNat word width lsb ↔ word.getLsbD (lsb.toNat + (width.toNat - 1)) = true := by
  have hlt := fieldNat_lt word width lsb
  have e := fieldNat_testBit word width lsb (width.toNat - 1)
  rw [show decide (width.toNat - 1 < width.toNat) = true by simp; omega, Bool.true_and] at e
  rw [← e]
  constructor
  · intro hle
    have : fieldNat word width lsb / 2 ^ (width.toNat - 1) = 1 := by
      apply Nat.div_eq_of_lt_le <;>
        rw [show width.toNat = (width.toNat - 1) + 1 by omega, pow_succ] at hlt <;> omega
    simp [Nat.testBit, Nat.shiftRight_eq_div_pow, this]
  · intro ht; exact Nat.ge_two_pow_of_testBit ht

/-- A signed field on the 64-bit port, bit by bit: above the field, copies of its top bit (R84). -/
theorem fieldInt_getLsbD (word : U64) (width lsb : U7) (hg : width.toNat + lsb.toNat ≤ 64) (h1 : 1 ≤ width.toNat)
    (i : Nat) (hi : i < 64) : (BitVec.ofInt 64 (fieldInt word width lsb)).getLsbD i =
      word.getLsbD (lsb.toNat + if i < width.toNat then i else width.toNat - 1) := by
  have hlt := fieldNat_lt word width lsb
  have hb := fieldNat_testBit word width lsb
  have hsign := fieldNat_sign word width lsb h1
  have hpw : 2 ^ width.toNat ≤ 2 ^ 64 := Nat.pow_le_pow_right (by norm_num) (by omega)
  have hc : ((2 ^ width.toNat : Nat) : Int) = (2 : Int) ^ width.toNat := by push_cast; rfl
  unfold fieldInt
  by_cases hs : 2 ^ (width.toNat - 1) ≤ fieldNat word width lsb
  · rw [if_pos ⟨h1, hs⟩]
    have e : (BitVec.ofInt 64 ((fieldNat word width lsb : Int) - 2 ^ width.toNat)).toNat =
        2 ^ width.toNat * (2 ^ (64 - width.toNat) - 1) + fieldNat word width lsb := by
      rw [BitVec.toNat_ofInt]
      have e64 : 2 ^ 64 = 2 ^ width.toNat * 2 ^ (64 - width.toNat) := by rw [← pow_add]; congr 1; omega
      have hm : 2 ^ width.toNat * (2 ^ (64 - width.toNat) - 1) = 2 ^ 64 - 2 ^ width.toNat := by
        rw [Nat.mul_sub, ← e64, Nat.mul_one]
      rw [hm]
      have : ((fieldNat word width lsb : Int) - 2 ^ width.toNat) % ((2 : Nat) ^ 64 : Nat) =
          (fieldNat word width lsb : Int) - 2 ^ width.toNat + 2 ^ 64 := by
        rw [← hc, Int.emod_eq_iff (by norm_num)]
        refine ⟨by omega, by push_cast; omega, ⟨1, by push_cast; ring⟩⟩
      rw [this, ← hc]
      omega
    rw [BitVec.getLsbD, e, Nat.testBit_two_pow_mul_add _ hlt]
    by_cases hi' : i < width.toNat
    · rw [if_pos hi', if_pos hi', hb]; simp [hi']
    · rw [if_neg hi', if_neg hi', Nat.testBit_two_pow_sub_one, hsign.mp hs]; simp; omega
  · rw [if_neg (by tauto)]
    have e : BitVec.ofInt 64 (fieldNat word width lsb : Int) = BitVec.ofNat 64 (fieldNat word width lsb) := by simp
    rw [e, BitVec.getLsbD, BitVec.toNat_ofNat, Nat.mod_eq_of_lt (fieldNat_lt_64 word width lsb), hb]
    by_cases hi' : i < width.toNat
    · simp [hi']
    · rw [if_neg hi']
      simp only [hi', decide_false, Bool.false_and]
      rw [eq_comm, Bool.eq_false_iff]
      exact fun hh => hs (hsign.mpr hh)

end Sys2Proof.Machine
end

