-- ==== Sys2Proof/Laws/Codeword.lean ====
section
/-! SUPPORT. The packer and the unpacker, with the layout of R61 filled in. -/

namespace Sys2Proof.Machine

theorem fits_g (v : S64) : fitsSigned v Layout.gWidth = true ↔ -16 ≤ v.toInt ∧ v.toInt ≤ 15 := by
  rw [fitsSigned_iff]; simp [Layout.gWidth]; omega

theorem fits_a (v : U64) : fitsUnsigned v Layout.aWidth = true ↔ v.toNat ≤ 511 := by
  rw [fitsUnsigned_iff]; simp [Layout.aWidth]; omega

theorem fits_i (v : U64) : fitsUnsigned v Layout.iWidth = true ↔ v.toNat ≤ 15 := by
  rw [fitsUnsigned_iff]; simp [Layout.iWidth]; omega

theorem insu_a (w v : U64) : insu w Layout.aWidth Layout.aLsb v =
    if v.toNat ≤ 511 then .ok (putField w Layout.aWidth Layout.aLsb v.toNat) else .error .overflow := by
  split
  · rename_i h; exact insu_ok (by decide) ((fits_a v).mpr h)
  · rename_i h; exact insu_overflow (by decide) (by rw [Bool.eq_false_iff, ne_eq, fits_a]; exact h)

theorem insu_i (w v : U64) (l : U7) (hl : 4 + l.toNat ≤ 64) : insu w Layout.iWidth l v =
    if v.toNat ≤ 15 then .ok (putField w Layout.iWidth l v.toNat) else .error .overflow := by
  split
  · rename_i h; exact insu_ok hl ((fits_i v).mpr h)
  · rename_i h; exact insu_overflow hl (by rw [Bool.eq_false_iff, ne_eq, fits_i]; exact h)

theorem inss_g (w v : U64) (l : U7) (hl : 5 + l.toNat ≤ 64) : inss w Layout.gWidth l v =
    if -16 ≤ v.toInt ∧ v.toInt ≤ 15 then .ok (putField w Layout.gWidth l (v.toInt % 32).toNat)
    else .error .overflow := by
  split
  · rename_i h; exact inss_ok hl ((fits_g v).mpr h)
  · rename_i h; exact inss_overflow hl (by rw [Bool.eq_false_iff, ne_eq, fits_g]; exact h)

/-- All six codes lie in their fields' ranges. -/
def inFields (k : Pk) : Prop :=
  k.a.toNat ≤ 511 ∧ (-16 ≤ k.b.toInt ∧ k.b.toInt ≤ 15) ∧ (-16 ≤ k.c.toInt ∧ k.c.toInt ≤ 15) ∧
    (-16 ≤ k.d.toInt ∧ k.d.toInt ≤ 15) ∧ k.pbIndex.toNat ≤ 15 ∧ k.prIndex.toNat ≤ 15

/-- Packing codes out of range. -/
theorem pack_out {k : Pk} (h : ¬ inFields k) : pack k = .error .overflow := by
  unfold pack
  simp only [insu_a, inss_g _ _ Layout.bLsb (by decide), inss_g _ _ Layout.cLsb (by decide),
    inss_g _ _ Layout.dLsb (by decide), insu_i _ _ Layout.pbLsb (by decide), insu_i _ _ Layout.prLsb (by decide)]
  by_cases ha : k.a.toNat ≤ 511
  swap; · simp [ha]; rfl
  by_cases hb : -16 ≤ k.b.toInt ∧ k.b.toInt ≤ 15
  swap; · simp [ha, hb]; rfl
  by_cases hc : -16 ≤ k.c.toInt ∧ k.c.toInt ≤ 15
  swap; · simp [ha, hb, hc]; rfl
  by_cases hd : -16 ≤ k.d.toInt ∧ k.d.toInt ≤ 15
  swap; · simp [ha, hb, hc, hd]; rfl
  by_cases hp : k.pbIndex.toNat ≤ 15
  swap; · simp [ha, hb, hc, hd, hp]; rfl
  by_cases hr : k.prIndex.toNat ≤ 15
  swap; · simp [ha, hb, hc, hd, hp, hr]; rfl
  exact absurd ⟨ha, hb, hc, hd, hp, hr⟩ h

/-- Packing codes in range: the closed form. -/
theorem pack_in {k : Pk} (h : inFields k) : ∃ w, pack k = .ok w ∧
    (w.toNat : Int) = k.a.toNat * 2 ^ 23 + k.b.toInt % 32 * 2 ^ 18 + k.c.toInt % 32 * 2 ^ 13 +
      k.d.toInt % 32 * 2 ^ 8 + k.pbIndex.toNat * 2 ^ 4 + k.prIndex.toNat := by
  obtain ⟨ha, hb, hc, hd, hp, hr⟩ := h
  unfold pack
  simp only [insu_a, inss_g _ _ Layout.bLsb (by decide), inss_g _ _ Layout.cLsb (by decide),
    inss_g _ _ Layout.dLsb (by decide), insu_i _ _ Layout.pbLsb (by decide), insu_i _ _ Layout.prLsb (by decide),
    if_pos ha, if_pos hb, if_pos hc, if_pos hd, if_pos hp, if_pos hr]
  refine ⟨_, rfl, ?_⟩
  rw [putField_toNat _ _ _ _ (by simp [Layout.iWidth]; omega) (by decide),
    putField_toNat _ _ _ _ (by simp [Layout.iWidth]; omega) (by decide),
    putField_toNat _ _ _ _ (by simp [Layout.gWidth]; omega) (by decide),
    putField_toNat _ _ _ _ (by simp [Layout.gWidth]; omega) (by decide),
    putField_toNat _ _ _ _ (by simp [Layout.gWidth]; omega) (by decide),
    putField_toNat _ _ _ _ (by simp [Layout.aWidth]; omega) (by decide)]
  have e1 : (0 : U64).toNat = 0 := rfl
  simp only [Layout.aWidth, Layout.aLsb, Layout.gWidth, Layout.bLsb, Layout.cLsb, Layout.dLsb, Layout.iWidth,
    Layout.pbLsb, Layout.prLsb, e1, Nat.reducePow, Nat.reduceMod, Nat.reduceAdd,
    BitVec.reduceToNat]
  omega

/-- A signed field as a number (R84), read back as its bits. -/
theorem gets_bits (word : U64) (l : U7) :
    BitVec.ofInt 5 (fieldInt word Layout.gWidth l) = word.extractLsb' l.toNat 5 := by
  apply BitVec.eq_of_toNat_eq
  have e : (word.extractLsb' l.toNat 5).toNat = fieldNat word Layout.gWidth l := by
    simp [BitVec.extractLsb'_toNat, fieldNat, Layout.gWidth, Nat.shiftRight_eq_div_pow]
  rw [e]
  have hl := fieldNat_lt word Layout.gWidth l
  unfold fieldInt
  generalize fieldNat word Layout.gWidth l = F at *
  simp only [Layout.gWidth, BitVec.reduceToNat] at *
  simp only [BitVec.toNat_ofInt]
  by_cases hF : 16 ≤ F
  · simp [hF]; omega
  · simp [hF]; omega

/-- An unsigned field as a number (R83), read back as its bits. -/
theorem getu_bits (word : U64) (l w : U7) :
    BitVec.ofNat w.toNat (fieldNat word w l) = word.extractLsb' l.toNat w.toNat := by
  apply BitVec.eq_of_toNat_eq
  simp [BitVec.extractLsb'_toNat, fieldNat, Nat.shiftRight_eq_div_pow]

/-- An unsigned field read on the 64-bit port is its narrow value, zero-extended. -/
theorem getu_setWidth (word : U64) (w l : U7) (n : Nat) (hn : n = w.toNat) (h : w.toNat + l.toNat ≤ 64) :
    getu word w l = .ok ((BitVec.ofNat n (fieldNat word w l)).setWidth 64) := by
  have := fieldNat_lt word w l
  rw [getu_ok h]; congr 1
  apply BitVec.eq_of_toNat_eq
  subst hn
  simp [Nat.mod_eq_of_lt this]

/-- A gradient field read on the 64-bit port is its narrow value, sign-extended. -/
theorem gets_signExtend (word : U64) (l : U7) (h : 5 + l.toNat ≤ 64) :
    gets word 5 l = .ok ((BitVec.ofInt 5 (fieldInt word 5 l)).signExtend 64) := by
  have := fieldInt_range word 5 l (by decide)
  simp only [BitVec.reduceToNat] at this
  rw [gets_ok (by exact h)]; congr 1
  apply BitVec.eq_of_toInt_eq
  rw [BitVec.toInt_signExtend_of_le (by omega), toInt_ofInt_64 (by omega) (by omega), BitVec.toInt_ofInt]
  symm; apply Int.bmod_eq_of_le <;> omega

/-- What unpacking reads, as bits of the word. -/
theorem unpack_eq (word : U64) : unpack word =
    ⟨word.extractLsb' 23 9, word.extractLsb' 18 5, word.extractLsb' 13 5, word.extractLsb' 8 5,
      word.extractLsb' 4 4, word.extractLsb' 0 4⟩ := by
  unfold unpack
  congr 1
  · exact getu_bits word Layout.aLsb Layout.aWidth
  · exact gets_bits word Layout.bLsb
  · exact gets_bits word Layout.cLsb
  · exact gets_bits word Layout.dLsb
  · exact getu_bits word Layout.pbLsb Layout.iWidth
  · exact getu_bits word Layout.prLsb Layout.iWidth

/-- The codeword of a quantized block, as a number. -/
theorem pack_ext (q : QBlock) : ∃ w, pack (ext q) = .ok w ∧ w.toNat = q.a.toNat * 2 ^ 23 + q.b.toNat * 2 ^ 18 +
    q.c.toNat * 2 ^ 13 + q.d.toNat * 2 ^ 8 + q.pbIndex.toNat * 2 ^ 4 + q.prIndex.toNat := by
  have sx : ∀ v : S5, (v.signExtend 64).toInt = v.toInt := fun v => BitVec.toInt_signExtend_of_le (by omega)
  have m : ∀ v : S5, v.toInt % 32 = v.toNat := by
    intro v; have := v.isLt; rw [BitVec.toInt_eq_toNat_cond]; split <;> omega
  have r1 : ∀ v : S5, -16 ≤ v.toInt ∧ v.toInt ≤ 15 := by
    intro v; have := v.isLt; rw [BitVec.toInt_eq_toNat_cond]; split <;> omega
  have ha := q.a.isLt
  have hp := q.pbIndex.isLt
  have hr := q.prIndex.isLt
  have ea : (q.a.setWidth 64).toNat = q.a.toNat := by simp; omega
  have ep : (q.pbIndex.setWidth 64).toNat = q.pbIndex.toNat := by simp; omega
  have er : (q.prIndex.setWidth 64).toNat = q.prIndex.toNat := by simp; omega
  have hin : inFields (ext q) := by
    simp only [inFields, ext, sx, ea, ep, er]
    exact ⟨by omega, r1 _, r1 _, r1 _, by omega, by omega⟩
  obtain ⟨w, e, hw⟩ := pack_in hin
  refine ⟨w, e, ?_⟩
  simp only [ext, sx, m, ea, ep, er] at hw
  omega

end Sys2Proof.Machine
end

