-- ==== Sys2Proof/Laws/Reals.lean ====
section
/-! SUPPORT. Arithmetic under `REAL_FMT = exact` is arithmetic on rationals. -/

namespace Sys2Proof.Reals

variable (p q : Rat)

@[simp] theorem lit_exact : lit .exact q = .num q := rfl
@[simp] theorem zero_exact (b : Bool) : zero .exact b = .num 0 := rfl
@[simp] theorem add_exact : add .exact (.num p) (.num q) = .num (p + q) := rfl
@[simp] theorem neg_exact : neg .exact (.num q) = .num (-q) := by
  by_cases h : q = 0 <;> simp [neg, h]
@[simp] theorem sub_exact : sub .exact (.num p) (.num q) = .num (p - q) := by simp [sub, sub_eq_add_neg]
@[simp] theorem mul_exact : mul .exact (.num p) (.num q) = .num (p * q) := by
  by_cases h : p * q = 0 <;> simp [mul, RealVal.value?, h]
theorem div_exact (h : q ≠ 0) : div .exact (.num p) (.num q) = .num (p / q) := by
  by_cases h' : p = 0 <;> simp [div, RealVal.value?, h, h']
@[simp] theorem lt_num : lt (.num p) (.num q) = decide (p < q) := rfl
@[simp] theorem abs_num : abs (.num q) = .num |q| := by
  by_cases h : q < 0
  · simp [abs, h, abs_of_neg h]
  · simp [abs, h, abs_of_nonneg (not_lt.mp h)]
theorem clamp_num (lo hi : Rat) (h : lo ≤ hi) : clamp (.num q) (.num lo) (.num hi) = .num (max lo (min hi q)) := by
  unfold clamp
  by_cases h1 : q < lo
  · simp [h1, max_eq_left (le_trans (min_le_right hi q) h1.le)]
  · by_cases h2 : hi < q
    · simp [h1, h2, min_eq_left h2.le, max_eq_right h]
    · simp [h1, h2, min_eq_right (not_lt.mp h2), max_eq_right (not_lt.mp h1)]
theorem clampInt_eq (n lo hi : Int) (h : lo ≤ hi) : clampInt n lo hi = max lo (min hi n) := by
  unfold clampInt
  split <;> rename_i h1
  · omega
  · split <;> omega

@[simp] theorem isOfFormat_exact_num : isOfFormat .exact (.num q) = true := rfl
@[simp] theorem isFinite_num : RealVal.isFinite (.num q) = true := rfl

end Sys2Proof.Reals
end

