-- ==== Sys2Proof/Laws/Exact.lean ====
section
/-! SUPPORT. The result functions under `REAL_FMT = exact`, as arithmetic on rationals. -/

namespace Sys2Proof.Machine

theorem floor_eq (q : Rat) : q.floor = ⌊q⌋ := rfl

/-- `rha` of a rational (R17). -/
theorem rha_exact (q : Rat) : Reals.rha? .exact (.num q) = some (roundAway q) := by
  simp only [Reals.rha?, Reals.abs_num, Reals.add_exact, Reals.signInt, roundAway]
  by_cases h : q < 0
  · simp [h, abs_of_neg h]
  · by_cases h0 : q = 0
    · subst h0; simp only [floor_eq]; norm_num
    · have hp : 0 < q := lt_of_le_of_ne (not_lt.mp h) (Ne.symm h0)
      simp [h, h0, abs_of_pos hp]

/-- `rha` is the floor of `q + 1/2` where `q` is not negative. -/
theorem roundAway_of_nonneg {q : Rat} (h : 0 ≤ q) : roundAway q = ⌊q + 1 / 2⌋ := by
  rw [roundAway, if_neg (not_lt.mpr h), floor_eq]

/-- `rha` of a rational within half a unit of an integer is that integer. -/
theorem roundAway_eq {q : Rat} {n : Int} (h : |q - n| < 1 / 2) : roundAway q = n := by
  rw [abs_lt] at h
  unfold roundAway
  split
  · rw [floor_eq, neg_eq_iff_eq_neg, Int.floor_eq_iff]
    push_cast
    constructor <;> linarith
  · rw [floor_eq, Int.floor_eq_iff]
    constructor <;> linarith

/-- `rha` of a rational in `0 .. m` lies in `0 .. m`. -/
theorem roundAway_range {q : Rat} {m : Nat} (h0 : 0 ≤ q) (h1 : q ≤ m) : 0 ≤ roundAway q ∧ roundAway q ≤ m := by
  rw [roundAway_of_nonneg h0]
  constructor
  · exact Int.floor_nonneg.mpr (by linarith)
  · rw [← Int.lt_add_one_iff, Int.floor_lt]
    push_cast
    linarith

theorem applyRow_exact (m : Row3) (x y z : Rat) :
    applyRow .exact m (.num x) (.num y) (.num z) = .num (rowSum m x y z) := by
  simp [applyRow, rowSum]

theorem normalize_exact (v mv : U8) (h : mv ≠ 0) :
    normalize .exact v mv = .num (v.toNat / (mv.toNat : Rat)) := by
  have : ((mv.toNat : Int) : Rat) ≠ 0 := by
    have h' : mv.toNat ≠ 0 := fun e => h (BitVec.eq_of_toNat_eq (by simpa using e))
    exact_mod_cast h'
  rw [normalize, Reals.ofInt, Reals.ofInt, Reals.div_exact _ _ this]
  push_cast
  rfl

theorem lumaChroma_exact (c : Config) (hc : c.fmt = .exact) (px : Pixel) (mv : U8) (h : mv ≠ 0) :
    lumaChroma c px mv =
      ⟨.num (rowSum c.colorFwd.row0 (px.r.toNat / (mv.toNat : Rat)) (px.g.toNat / (mv.toNat : Rat)) (px.b.toNat / (mv.toNat : Rat))),
       .num (rowSum c.colorFwd.row1 (px.r.toNat / (mv.toNat : Rat)) (px.g.toNat / (mv.toNat : Rat)) (px.b.toNat / (mv.toNat : Rat))),
       .num (rowSum c.colorFwd.row2 (px.r.toNat / (mv.toNat : Rat)) (px.g.toNat / (mv.toNat : Rat)) (px.b.toNat / (mv.toNat : Rat)))⟩ := by
  simp [lumaChroma, hc, normalize_exact _ _ h, applyRow_exact]

theorem checkMaxValue_ok {mv : U8} (h : mv ≠ 0) : checkMaxValue mv = .ok () := by
  have h' : mv.toNat ≠ 0 := fun e => h (BitVec.eq_of_toNat_eq (by simpa using e))
  simp [checkMaxValue, h']

theorem checkMaxValue_zero : checkMaxValue 0 = .error (.fatal .maxValueZero) := rfl

theorem rgb2ypp_ok (c : Config) (px : Pixel) {mv : U8} (h : mv ≠ 0) : rgb2ypp c px mv = .ok (lumaChroma c px mv) := by
  rw [rgb2ypp, checkMaxValue_ok h]; rfl

theorem ypp2rgb_ok (c : Config) (free : Nat → BitVec 64) (y pb pr : Rat) {mv : U8} (h : mv ≠ 0) :
    ypp2rgb c free (.num y) (.num pb) (.num pr) mv = .ok (tristimulus c free (.num y) (.num pb) (.num pr) mv) := by
  rw [ypp2rgb, checkMaxValue_ok h]; rfl

/-- One decoded channel, as an integer: clamped, scaled, rounded, and in `0 .. max_value` (R102). -/
theorem channel_exact (free : Nat → BitVec 64) (slot : Nat) (x : Rat) (mv : U8) :
    ((channel .exact free slot (.num x) mv).toNat : Int) = channelOf x mv ∧
      (channel .exact free slot (.num x) mv).toNat ≤ mv.toNat := by
  have hm : (0 : Rat) ≤ mv.toNat := by positivity
  have h0 : (0 : Rat) ≤ max 0 (min 1 x) * mv.toNat := mul_nonneg (le_max_left _ _) hm
  have h1 : max 0 (min 1 x) * (mv.toNat : Rat) ≤ mv.toNat := by
    have : max 0 (min 1 x) ≤ (1 : Rat) := max_le (by norm_num) (min_le_left _ _)
    nlinarith
  obtain ⟨r0, r1⟩ := roundAway_range h0 h1
  have hlt := mv.isLt
  have e : channel .exact free slot (.num x) mv = BitVec.ofInt 8 (channelOf x mv) := by
    unfold channel channelOf
    rw [Reals.clamp_num _ _ _ (by norm_num), Reals.ofInt, Reals.mul_exact, rha_exact]
    push_cast
    rfl
  have e2 : ((BitVec.ofInt 8 (channelOf x mv)).toNat : Int) = channelOf x mv := by
    rw [BitVec.toNat_ofInt]
    unfold channelOf
    omega
  rw [e]
  refine ⟨e2, ?_⟩
  have : channelOf x mv ≤ mv.toNat := r1
  omega

/-- The tri-stimulus pixel of rationals is the same whatever the free values are. -/
theorem channel_exact_free (d d' : Nat → BitVec 64) (k k' : Nat) (x : Rat) (mv : U8) :
    channel .exact d k (.num x) mv = channel .exact d' k' (.num x) mv := by
  apply BitVec.eq_of_toNat_eq
  have h1 := (channel_exact d k x mv).1
  have h2 := (channel_exact d' k' x mv).1
  omega

theorem blkfwd_exact (p q r t : Rat) : blkfwd .exact ⟨.num p, .num q, .num r, .num t⟩ =
    ⟨.num ((t + r + q + p) / 4), .num ((t + r - q - p) / 4), .num ((t - r + q - p) / 4),
      .num ((t - r - q + p) / 4)⟩ := by
  have h : (4 : Rat) ≠ 0 := by norm_num
  simp [blkfwd, Reals.div_exact _ _ h]

theorem blkinv_exact (a b c d : Rat) : blkinv .exact ⟨.num a, .num b, .num c, .num d⟩ =
    ⟨.num (a - b - c + d), .num (a - b + c - d), .num (a + b - c - d), .num (a + b + c + d)⟩ := by
  simp [blkinv]

theorem mean_exact (p q r t : Rat) : mean .exact ⟨.num p, .num q, .num r, .num t⟩ = .num ((p + q + r + t) / 4) := by
  have h : (4 : Rat) ≠ 0 := by norm_num
  simp [mean, Reals.div_exact _ _ h]

theorem roundClamp_exact (lo hi : Int) (h : lo ≤ hi) (x : Rat) :
    roundClamp .exact lo hi (.num x) = max lo (min hi (roundAway x)) := by
  simp [roundClamp, rha_exact, Reals.clampInt_eq _ _ _ h]

theorem quantA_exact (x : Rat) :
    quantA .exact (.num x) = max 0 (min 511 (roundAway (x * 511))) := by
  rw [quantA, Reals.ofInt, Reals.mul_exact, roundClamp_exact _ _ (by decide)]
  simp [Params.aMax]

theorem quantG_exact (x : Rat) :
    quantG .exact (.num x) = max (-15) (min 15 (roundAway (x * 50))) := by
  have h : Params.gLim ≠ 0 := by norm_num [Params.gLim]
  rw [quantG, Reals.lit_exact, Reals.ofInt, Reals.div_exact _ _ h, Reals.mul_exact, roundClamp_exact _ _ (by decide)]
  have : x / Params.gLim * ((Params.gMax : Int) : Rat) = x * 50 := by norm_num [Params.gLim, Params.gMax]; ring
  rw [this]
  rfl

theorem entry_exact (c : Config) (hc : c.fmt = .exact) (i : U4) : c.entry i = .num (c.chromaTable[i.toNat]'i.isLt) := by
  simp [Config.entry, hc]

theorem chromaDist_exact (c : Config) (hc : c.fmt = .exact) (x : Rat) (i : U4) :
    chromaDist c (.num x) i = .num |x - c.chromaTable[i.toNat]'i.isLt| := by
  simp [chromaDist, entry_exact c hc, hc]

theorem mem_indices (i : U4) : i ∈ Params.indices := by
  revert i
  decide

end Sys2Proof.Machine
end

