-- ==== Sys2Proof/Laws/Float.lean ====
section
/-! SUPPORT. Rounding to a floating-point format: powers of two, binades, and what a rounded value looks like. -/

namespace Sys2Proof.Reals

theorem pow2_eq (k : Int) : pow2 k = (2 : Rat) ^ k := by
  unfold pow2
  split
  · rename_i h
    obtain ⟨n, rfl⟩ := Int.eq_ofNat_of_zero_le h
    simp
  · rename_i h
    obtain ⟨n, hn⟩ := Int.eq_ofNat_of_zero_le (show 0 ≤ -k by omega)
    obtain rfl : k = -n := by omega
    simp

theorem pow2_pos (k : Int) : 0 < pow2 k := by rw [pow2_eq]; positivity

theorem pow2_add (j k : Int) : pow2 (j + k) = pow2 j * pow2 k := by
  rw [pow2_eq, pow2_eq, pow2_eq, zpow_add₀ (by norm_num)]

theorem pow2_le {j k : Int} : pow2 j ≤ pow2 k ↔ j ≤ k := by
  rw [pow2_eq, pow2_eq]; exact zpow_le_zpow_iff_right₀ (by norm_num)

theorem pow2_lt {j k : Int} : pow2 j < pow2 k ↔ j < k := by
  rw [pow2_eq, pow2_eq]; exact zpow_lt_zpow_iff_right₀ (by norm_num)

theorem pow2_nat (n : Nat) : pow2 n = ((2 ^ n : Nat) : Rat) := by simp [pow2_eq]

/-- A power of two is an integer multiple of a smaller one. -/
theorem pow2_multiple {j k : Int} (h : j ≤ k) : ∃ n : Int, 0 < n ∧ pow2 k = n * pow2 j := by
  refine ⟨2 ^ (k - j).toNat, by positivity, ?_⟩
  have : k = ((k - j).toNat : Int) + j := by omega
  conv_lhs => rw [this, pow2_add, pow2_nat]
  push_cast
  rfl

/-- The binade of a positive rational. -/
theorem floorLog2_spec {a : Rat} (h : 0 < a) : pow2 (floorLog2 a) ≤ a ∧ a < pow2 (floorLog2 a + 1) := by
  have hn : 0 < a.num := Rat.num_pos.mpr h
  have hd : a.den ≠ 0 := a.den_ne_zero
  have hn' : a.num.natAbs ≠ 0 := by omega
  set n := a.num.natAbs with hndef
  set d := a.den with hddef
  have ha : a = (n : Rat) / d := by
    have : ((n : Int) : Rat) = a.num := by rw [hndef]; congr 1; omega
    rw [← Int.cast_natCast n, this]; exact (Rat.num_div_den a).symm
  have n1 : pow2 (n.log2 : Int) ≤ n := by rw [pow2_nat]; exact_mod_cast Nat.log2_self_le hn'
  have n2 : (n : Rat) < pow2 ((n.log2 : Int) + 1) := by
    have := Nat.lt_log2_self (n := n)
    rw [show ((n.log2 : Int) + 1) = ((n.log2 + 1 : Nat) : Int) by push_cast; rfl, pow2_nat]; exact_mod_cast this
  have d1 : pow2 (d.log2 : Int) ≤ d := by rw [pow2_nat]; exact_mod_cast Nat.log2_self_le hd
  have d2 : (d : Rat) < pow2 ((d.log2 : Int) + 1) := by
    have := Nat.lt_log2_self (n := d)
    rw [show ((d.log2 : Int) + 1) = ((d.log2 + 1 : Nat) : Int) by push_cast; rfl, pow2_nat]; exact_mod_cast this
  have dpos : (0 : Rat) < d := by positivity
  set k : Int := (n.log2 : Int) - (d.log2 : Int) with hk
  have up : a < pow2 (k + 1) := by
    rw [ha, div_lt_iff₀ dpos]
    have e : pow2 ((n.log2 : Int) + 1) = pow2 (k + 1) * pow2 (d.log2 : Int) := by rw [← pow2_add]; congr 1; omega
    have := mul_le_mul_of_nonneg_left d1 (pow2_pos (k + 1)).le
    linarith
  have lo : pow2 (k - 1) ≤ a := by
    rw [ha, le_div_iff₀ dpos]
    have e : pow2 (n.log2 : Int) = pow2 (k - 1) * pow2 ((d.log2 : Int) + 1) := by rw [← pow2_add]; congr 1; omega
    have := mul_le_mul_of_nonneg_left d2.le (pow2_pos (k - 1)).le
    linarith
  have def_eq : floorLog2 a = if pow2 k ≤ a then k else k - 1 := rfl
  rw [def_eq]
  split
  · exact ⟨by assumption, up⟩
  · rename_i h'
    exact ⟨lo, by simpa using h'⟩

theorem floorLog2_unique {a : Rat} {e : Int} (h1 : pow2 e ≤ a) (h2 : a < pow2 (e + 1)) : floorLog2 a = e := by
  obtain ⟨g1, g2⟩ := floorLog2_spec (lt_of_lt_of_le (pow2_pos e) h1)
  have := pow2_lt.mp (lt_of_le_of_lt h1 g2)
  have := pow2_lt.mp (lt_of_le_of_lt g1 h2)
  omega

/-- The nearest integer is within half a unit. -/
theorem roundHalfEven_near (r : Rat) : |r - roundHalfEven r| ≤ 1 / 2 := by
  have h1 : ((⌊r⌋ : Int) : Rat) ≤ r := Int.floor_le r
  have h2 : r < ((⌊r⌋ : Int) : Rat) + 1 := Int.lt_floor_add_one r
  have e : r.floor = ⌊r⌋ := rfl
  unfold roundHalfEven
  simp only [e]
  rw [abs_le]
  split
  · constructor <;> linarith
  · split
    · push_cast; constructor <;> linarith
    · split
      · constructor <;> linarith
      · push_cast; constructor <;> linarith

theorem roundHalfEven_int (n : Int) : roundHalfEven n = n := by
  have h := roundHalfEven_near n
  have h1 : |((n - roundHalfEven n : Int) : Rat)| < 1 := by push_cast; linarith
  have h2 : |n - roundHalfEven n| < 1 := by exact_mod_cast h1
  rw [Int.abs_lt_one_iff] at h2
  omega

/-- No integer is nearer than the nearest one. -/
theorem roundHalfEven_nearest (r : Rat) (n : Int) : |r - roundHalfEven r| ≤ |r - n| := by
  by_contra h
  rw [not_le] at h
  have h1 := roundHalfEven_near r
  have h2 : |((roundHalfEven r - n : Int) : Rat)| < 1 := by
    have := abs_sub_le (roundHalfEven r : Rat) r n
    rw [abs_sub_comm (roundHalfEven r : Rat) r] at this
    push_cast
    linarith
  have h3 : |roundHalfEven r - n| < 1 := by exact_mod_cast h2
  rw [Int.abs_lt_one_iff] at h3
  have : roundHalfEven r = n := by omega
  rw [this] at h
  exact lt_irrefl _ h

/-- The unit in the last place with which a magnitude is rounded. -/
def ulpExp (f : RealFmt) (a : Rat) : Int := max (floorLog2 a) (minExp f) - (precision f - 1)

/-- `2^precision`, the number of steps in two neighbouring binades. -/
def steps (f : RealFmt) : Int := 2 ^ (precision f).toNat

theorem steps_pow2 {f : RealFmt} (hf : f ≠ .exact) : ((steps f : Int) : Rat) = pow2 (precision f) := by
  have key : ∀ n : Nat, ((2 ^ ((n : Int).toNat) : Int) : Rat) = pow2 (n : Int) := by
    intro n; rw [pow2_nat, Int.toNat_natCast]; push_cast; rfl
  cases f with
  | exact => exact absurd rfl hf
  | binary32 => exact key 24
  | binary64 => exact key 53

theorem precision_pos {f : RealFmt} (hf : f ≠ .exact) : 1 < precision f := by
  cases f with
  | exact => exact absurd rfl hf
  | binary32 => decide
  | binary64 => decide

theorem roundFloat_eq (f : RealFmt) (q : Rat) : roundFloat f q =
    if pow2 (maxExp f + 1) ≤ ((roundHalfEven (|q| / pow2 (ulpExp f |q|)) : Int) : Rat) * pow2 (ulpExp f |q|)
      then .inf (decide (q < 0))
    else if ((roundHalfEven (|q| / pow2 (ulpExp f |q|)) : Int) : Rat) * pow2 (ulpExp f |q|) = 0
      then zero f (decide (q < 0))
    else .num (if q < 0 then -(((roundHalfEven (|q| / pow2 (ulpExp f |q|)) : Int) : Rat) * pow2 (ulpExp f |q|))
      else ((roundHalfEven (|q| / pow2 (ulpExp f |q|)) : Int) : Rat) * pow2 (ulpExp f |q|)) := by
  have e : (if q < 0 then -q else q) = |q| := by
    split
    · rename_i h; exact (abs_of_neg h).symm
    · rename_i h; exact (abs_of_nonneg (not_lt.mp h)).symm
  unfold roundFloat
  simp only [e, decide_eq_true_eq]
  rfl

/-- A nonzero magnitude is less than `2^precision` of its units. -/
theorem lt_steps {f : RealFmt} (hf : f ≠ .exact) {a : Rat} (h : 0 < a) : a / pow2 (ulpExp f a) < steps f := by
  rw [div_lt_iff₀ (pow2_pos _), steps_pow2 hf, ← pow2_add]
  refine lt_of_lt_of_le (floorLog2_spec h).2 (pow2_le.mpr ?_)
  unfold ulpExp
  have := le_max_left (floorLog2 a) (minExp f)
  omega

/-- A rounded nonzero value: a whole number of units, no more than `2^precision` of them. -/
theorem roundFloat_num {f : RealFmt} (hf : f ≠ .exact) {q v : Rat} (hq : q ≠ 0) (h : roundFloat f q = .num v)
    (hv : v ≠ 0) :
    ∃ k : Int, k = roundHalfEven (|q| / pow2 (ulpExp f |q|)) ∧ |v| = k * pow2 (ulpExp f |q|) ∧ 0 < k ∧ k ≤ steps f ∧
      |v| < pow2 (maxExp f + 1) ∧ v = if q < 0 then -|v| else |v| := by
  rw [roundFloat_eq] at h
  have ha : 0 < |q| := abs_pos.mpr hq
  have hp := pow2_pos (ulpExp f |q|)
  have hlt := lt_steps hf ha
  have hnear := roundHalfEven_near (|q| / pow2 (ulpExp f |q|))
  generalize hu : pow2 (ulpExp f |q|) = u at *
  generalize hk : roundHalfEven (|q| / u) = k at *
  have hr : 0 < |q| / u := div_pos ha hp
  have k0 : 0 ≤ k := by
    rw [abs_le] at hnear
    have : ((-1 : Int) : Rat) < k := by push_cast; linarith
    have := Int.cast_lt.mp this
    omega
  have k1 : k ≤ steps f := by
    rw [abs_le] at hnear
    have : (k : Rat) < ((steps f + 1 : Int) : Rat) := by push_cast; linarith
    have := Int.cast_lt.mp this
    omega
  split at h
  · cases h
  · rename_i hmax
    split at h
    · unfold zero at h
      split at h
      · exact absurd rfl hf
      · split at h
        · cases h
        · cases h; exact absurd rfl hv
      · split at h
        · cases h
        · cases h; exact absurd rfl hv
    · rename_i hm
      have kpos : 0 < k := by
        rcases lt_or_eq_of_le k0 with h | h
        · exact h
        · exact absurd (by rw [← h]; simp) hm
      have mpos : 0 < (k : Rat) * u := mul_pos (by exact_mod_cast kpos) hp
      have habs : |v| = k * u := by
        cases h
        split
        · rw [abs_neg, abs_of_pos mpos]
        · rw [abs_of_pos mpos]
      refine ⟨k, rfl, habs, kpos, k1, by rw [habs]; exact not_le.mp hmax, ?_⟩
      rw [habs]
      cases h
      rfl

/-- A whole number of units, no more than `2^precision` of them and inside the format's range, is rounded to
itself. -/
theorem roundFloat_of_steps {f : RealFmt} (hf : f ≠ .exact) {v : Rat} {n e : Int} (hn : 0 < n) (hn' : n ≤ steps f)
    (he : minExp f - (precision f - 1) ≤ e) (hv : |v| = n * pow2 e) (hmax : |v| < pow2 (maxExp f + 1)) :
    roundFloat f v = .num v := by
  have hpos : 0 < |v| := by rw [hv]; exact mul_pos (by exact_mod_cast hn) (pow2_pos e)
  have hp1 := precision_pos hf
  have int : ∃ k : Int, |v| = k * pow2 (ulpExp f |v|) := by
    by_cases hlt : n < steps f
    · have hb : |v| < pow2 (precision f + e) := by
        rw [hv, pow2_add, ← steps_pow2 hf]
        exact mul_lt_mul_of_pos_right (by exact_mod_cast hlt) (pow2_pos e)
      have hfl : floorLog2 |v| < precision f + e := pow2_lt.mp (lt_of_le_of_lt (floorLog2_spec hpos).1 hb)
      obtain ⟨m, -, hm⟩ := pow2_multiple (j := ulpExp f |v|) (k := e) (by unfold ulpExp; omega)
      exact ⟨n * m, by generalize pow2 (ulpExp f |v|) = u at *; rw [hv, hm]; push_cast; ring⟩
    · have hs : n = steps f := by omega
      have hb : |v| = pow2 (precision f + e) := by rw [hv, hs, steps_pow2 hf, ← pow2_add]
      have hfl : floorLog2 |v| = precision f + e :=
        floorLog2_unique (by rw [hb]) (by rw [hb]; exact pow2_lt.mpr (by omega))
      obtain ⟨m, -, hm⟩ := pow2_multiple (j := ulpExp f |v|) (k := precision f + e)
        (by unfold ulpExp; omega)
      exact ⟨m, by rw [hb] at hm ⊢; exact hm⟩
  obtain ⟨k, hk⟩ := int
  have hr : roundHalfEven (|v| / pow2 (ulpExp f |v|)) = k := by
    have hne := (pow2_pos (ulpExp f |v|)).ne'
    have : |v| / pow2 (ulpExp f |v|) = (k : Rat) := by
      rw [div_eq_iff hne]; exact hk
    rw [this]
    exact roundHalfEven_int k
  rw [roundFloat_eq, hr, ← hk, if_neg (not_le.mpr hmax), if_neg hpos.ne']
  congr 1
  split
  · rename_i h; rw [abs_of_neg h, neg_neg]
  · rename_i h; exact abs_of_nonneg (not_lt.mp h)

end Sys2Proof.Reals
end

