-- ==== Sys2Proof/Laws/Format.lean ====
section
/-! SUPPORT. Which values belong to a format, and that the operations stay in it. -/

namespace Sys2Proof.Reals

theorem lit_float {f : RealFmt} (hf : f ≠ .exact) (q : Rat) : lit f q = if q = 0 then .num 0 else roundFloat f q := by
  cases f with
  | exact => exact absurd rfl hf
  | binary32 => rfl
  | binary64 => rfl

theorem isOfFormat_num {f : RealFmt} (hf : f ≠ .exact) (q : Rat) : isOfFormat f (.num q) = true ↔ lit f q = .num q := by
  cases f with
  | exact => exact absurd rfl hf
  | binary32 => simp [isOfFormat]
  | binary64 => simp [isOfFormat]

/-- The second zero, the infinities and the NaN belong to every floating-point format. -/
theorem isOfFormat_special {f : RealFmt} (hf : f ≠ .exact) (x : RealVal) (hx : ∀ q, x ≠ .num q) :
    isOfFormat f x = true := by
  cases f <;> cases x <;> simp_all [isOfFormat]

/-- Under `exact` only rationals belong to the format. -/
theorem exact_num {x : RealVal} (h : isOfFormat .exact x = true) : ∃ q, x = .num q := by
  cases x <;> simp_all [isOfFormat]

theorem isOfFormat_zero (f : RealFmt) (b : Bool) : isOfFormat f (zero f b) = true := by cases f <;> cases b <;> rfl

/-- A whole number of units inside the format's range belongs to it. -/
theorem isOfFormat_steps {f : RealFmt} (hf : f ≠ .exact) {v : Rat} {n e : Int} (hn : 0 < n) (hn' : n ≤ steps f)
    (he : minExp f - (precision f - 1) ≤ e) (hv : |v| = n * pow2 e) (hmax : |v| < pow2 (maxExp f + 1)) :
    isOfFormat f (.num v) = true := by
  rw [isOfFormat_num hf, lit_float hf, roundFloat_of_steps hf hn hn' he hv hmax]
  split
  · simp_all
  · rfl

/-- A nonzero value of the format is a whole number of its own units. -/
theorem format_steps {f : RealFmt} (hf : f ≠ .exact) {u : Rat} (hu : u ≠ 0) (h : isOfFormat f (.num u) = true) :
    ∃ k : Int, |u| = k * pow2 (ulpExp f |u|) ∧ 0 < k ∧ k ≤ steps f ∧ |u| < pow2 (maxExp f + 1) := by
  rw [isOfFormat_num hf, lit_float hf, if_neg hu] at h
  obtain ⟨k, -, h1, h2, h3, h4, -⟩ := roundFloat_num hf hu h hu
  exact ⟨k, h1, h2, h3, h4⟩

theorem ulpExp_ge (f : RealFmt) (a : Rat) : minExp f - (precision f - 1) ≤ ulpExp f a := by
  unfold ulpExp
  have := le_max_right (floorLog2 a) (minExp f)
  omega

/-- Formats are symmetric. -/
theorem isOfFormat_of_abs {f : RealFmt} {u v : Rat} (e : |v| = |u|) (h : isOfFormat f (.num u) = true) :
    isOfFormat f (.num v) = true := by
  by_cases hf : f = .exact
  · subst hf; rfl
  · by_cases hu : u = 0
    · have hv : v = 0 := by rw [hu, abs_zero, abs_eq_zero] at e; exact e
      rw [hv, ← hu]; exact h
    · obtain ⟨k, h1, h2, h3, h4⟩ := format_steps hf hu h
      exact isOfFormat_steps hf h2 h3 (ulpExp_ge f |u|) (by rw [e]; exact h1) (by rw [e]; exact h4)

/-- A rounded value belongs to the format. -/
theorem lit_ofFormat (f : RealFmt) (q : Rat) : isOfFormat f (lit f q) = true := by
  by_cases hf : f = .exact
  · subst hf; rfl
  · rcases h : lit f q with v | _ | b | _
    · by_cases hv : v = 0
      · subst hv; exact isOfFormat_zero f false |> fun h => by cases f <;> rfl
      · rw [lit_float hf] at h
        split at h
        · cases h; exact absurd rfl hv
        · rename_i hq
          obtain ⟨k, -, h1, h2, h3, h4, -⟩ := roundFloat_num hf hq h hv
          exact isOfFormat_steps hf h2 h3 (ulpExp_ge f |q|) h1 h4
    · exact isOfFormat_special hf _ (by simp)
    · exact isOfFormat_special hf _ (by simp)
    · exact isOfFormat_special hf _ (by simp)

theorem assemble_ofFormat {f : RealFmt} (hf : f ≠ .exact) (s : Bool) (sig : Nat) (e : Int)
    (h1 : (sig : Int) < steps f) (h2 : minExp f - (precision f - 1) ≤ e) (h3 : precision f + e ≤ maxExp f + 1) :
    isOfFormat f (assemble f s sig e) = true := by
  unfold assemble
  split
  · exact isOfFormat_zero f s
  · rename_i h0
    have hp : (0 : Rat) < sig * pow2 e := mul_pos (by positivity) (pow2_pos e)
    have habs : |(if s then -((sig : Rat) * pow2 e) else (sig : Rat) * pow2 e)| = ((sig : Int) : Rat) * pow2 e := by
      split
      · rw [abs_neg, abs_of_pos hp]; simp
      · rw [abs_of_pos hp]; simp
    refine isOfFormat_steps hf (by omega) h1.le h2 habs ?_
    rw [habs]
    have hlt : ((sig : Int) : Rat) * pow2 e < pow2 (precision f + e) := by
      rw [pow2_add, ← steps_pow2 hf]
      exact mul_lt_mul_of_pos_right (by exact_mod_cast h1) (pow2_pos e)
    exact lt_of_lt_of_le hlt (pow2_le.mpr h3)

theorem steps_binary32 : steps .binary32 = 16777216 := by decide
theorem steps_binary64 : steps .binary64 = 9007199254740992 := by decide

/-- Every bit pattern of a `Real` port is a value of its format. -/
theorem ofBits_ofFormat (f : RealFmt) (w : BitVec 64) : isOfFormat f (ofBits f w) = true := by
  cases f with
  | exact => rfl
  | binary32 =>
    simp only [ofBits]
    have b1 := (w.extractLsb' 23 8).isLt
    have b2 := (w.extractLsb' 0 23).isLt
    generalize (w.extractLsb' 23 8).toNat = ex at *
    generalize (w.extractLsb' 0 23).toNat = fr at *
    split
    · split <;> rfl
    · split
      · apply assemble_ofFormat (by simp) <;> simp [steps_binary32, precision, minExp, maxExp] <;> omega
      · apply assemble_ofFormat (by simp) <;> simp [steps_binary32, precision, minExp, maxExp] <;> omega
  | binary64 =>
    simp only [ofBits]
    have b1 := (w.extractLsb' 52 11).isLt
    have b2 := (w.extractLsb' 0 52).isLt
    generalize (w.extractLsb' 52 11).toNat = ex at *
    generalize (w.extractLsb' 0 52).toNat = fr at *
    split
    · split <;> rfl
    · split
      · apply assemble_ofFormat (by simp) <;> simp [steps_binary64, precision, minExp, maxExp] <;> omega
      · apply assemble_ofFormat (by simp) <;> simp [steps_binary64, precision, minExp, maxExp] <;> omega

theorem neg_ofFormat {f : RealFmt} {x : RealVal} (h : isOfFormat f x = true) : isOfFormat f (neg f x) = true := by
  by_cases hf : f = .exact
  · subst hf; obtain ⟨q, rfl⟩ := exact_num h; simp
  · cases x with
    | num q =>
      simp only [neg]
      split
      · exact isOfFormat_zero _ _
      · exact isOfFormat_of_abs (abs_neg q) h
    | negZero => cases f <;> rfl
    | inf b => exact isOfFormat_special hf _ (by simp [neg])
    | nan => exact isOfFormat_special hf _ (by simp [neg])

theorem add_ofFormat {f : RealFmt} {x y : RealVal} (h : isOfFormat f x = true) (h' : isOfFormat f y = true) :
    isOfFormat f (add f x y) = true := by
  by_cases hf : f = .exact
  · subst hf; obtain ⟨q, rfl⟩ := exact_num h; obtain ⟨q', rfl⟩ := exact_num h'; simp
  · cases x <;> cases y <;> simp only [add] <;> first | exact lit_ofFormat _ _ | assumption | skip
    all_goals (try split) <;> exact isOfFormat_special hf _ (by simp)

theorem sub_ofFormat {f : RealFmt} {x y : RealVal} (h : isOfFormat f x = true) (h' : isOfFormat f y = true) :
    isOfFormat f (sub f x y) = true := add_ofFormat h (neg_ofFormat h')

theorem mul_ofFormat {f : RealFmt} {x y : RealVal} (h : isOfFormat f x = true) (h' : isOfFormat f y = true) :
    isOfFormat f (mul f x y) = true := by
  by_cases hf : f = .exact
  · subst hf; obtain ⟨q, rfl⟩ := exact_num h; obtain ⟨q', rfl⟩ := exact_num h'; simp
  · unfold mul
    split
    · split
      · exact isOfFormat_zero _ _
      · exact lit_ofFormat _ _
    · split
      · split <;> exact isOfFormat_special hf _ (by simp)
      · exact isOfFormat_special hf _ (by simp)
    · split
      · split <;> exact isOfFormat_special hf _ (by simp)
      · exact isOfFormat_special hf _ (by simp)
    · split <;> exact isOfFormat_special hf _ (by simp)

/-- Division by a nonzero constant; under `exact` the dividend must be a rational. -/
theorem div_ofFormat {f : RealFmt} {x : RealVal} {c : Rat} (hc : c ≠ 0) (h : f = .exact → ∃ q, x = .num q) :
    isOfFormat f (div f x (.num c)) = true := by
  by_cases hf : f = .exact
  · obtain ⟨q, rfl⟩ := h hf; subst hf; rw [div_exact _ _ hc]; rfl
  · unfold div
    split
    · split
      · split <;> exact isOfFormat_special hf _ (by simp)
      · split
        · exact isOfFormat_zero _ _
        · exact lit_ofFormat _ _
    · split
      · exact isOfFormat_zero _ _
      · exact isOfFormat_special hf _ (by simp)
    · split <;> exact isOfFormat_special hf _ (by simp)
    · exact isOfFormat_special hf _ (by simp)

/-! Finite operands give no NaN. -/

theorem zero_ne_nan (f : RealFmt) (b : Bool) : zero f b ≠ .nan := by cases f <;> cases b <;> simp [zero]

theorem lit_ne_nan (f : RealFmt) (q : Rat) : lit f q ≠ .nan := by
  have round : ∀ g, roundFloat g q ≠ .nan := by
    intro g
    rw [roundFloat_eq]
    split
    · simp
    · split
      · exact zero_ne_nan _ _
      · simp
  cases f <;> simp only [lit]
  · simp
  all_goals split
  all_goals first | exact round _ | simp

theorem mul_ne_nan {f : RealFmt} {x : RealVal} {c : Rat} (hx : x ≠ .nan) (hc : c ≠ 0) : mul f x (.num c) ≠ .nan := by
  cases x with
  | nan => exact absurd rfl hx
  | inf b => simp [mul, RealVal.value?, hc]
  | num q =>
    simp only [mul, RealVal.value?]
    split
    · exact zero_ne_nan _ _
    · exact lit_ne_nan _ _
  | negZero =>
    simp only [mul, RealVal.value?]
    split
    · exact zero_ne_nan _ _
    · exact lit_ne_nan _ _

theorem div_ne_nan {f : RealFmt} {x : RealVal} {c : Rat} (hx : x ≠ .nan) (hc : c ≠ 0) : div f x (.num c) ≠ .nan := by
  cases x with
  | nan => exact absurd rfl hx
  | inf b => simp [div, RealVal.value?]
  | num q =>
    simp only [div, RealVal.value?, if_neg hc]
    split
    · exact zero_ne_nan _ _
    · exact lit_ne_nan _ _
  | negZero =>
    simp only [div, RealVal.value?, if_neg hc]
    split
    · exact zero_ne_nan _ _
    · exact lit_ne_nan _ _

theorem abs_ne_nan {x : RealVal} (h : x ≠ .nan) : abs x ≠ .nan := by cases x <;> simp_all [abs]

theorem neg_ne_nan {f : RealFmt} {x : RealVal} (h : x ≠ .nan) : neg f x ≠ .nan := by
  cases x with
  | num q =>
    simp only [neg]
    split
    · exact zero_ne_nan f true
    · simp
  | negZero => simp [neg]
  | inf b => simp [neg]
  | nan => exact absurd rfl h

/-- A finite value less any value that is no NaN. -/
theorem sub_ne_nan {f : RealFmt} {x y : RealVal} (hx : x.isFinite = true) (hy : y ≠ .nan) : sub f x y ≠ .nan := by
  have hn := neg_ne_nan (f := f) hy
  unfold sub
  generalize neg f y = z at hn
  cases x with
  | num p => cases z <;> first | exact lit_ne_nan _ _ | simp_all [add]
  | negZero => cases z <;> simp_all [add]
  | inf b => simp [RealVal.isFinite, RealVal.value?] at hx
  | nan => simp [RealVal.isFinite, RealVal.value?] at hx

theorem lt_asymm {x y : RealVal} (h : lt x y = true) : lt y x = false := by
  cases x <;> cases y <;> simp_all [lt] <;> exact le_of_lt h

/-- `<` is negatively transitive away from the NaN. -/
theorem lt_neg_trans {x y z : RealVal} (hy : y ≠ .nan) (h : lt x z = true) : lt x y = true ∨ lt y z = true := by
  cases x <;> cases y <;> cases z <;> simp_all [lt] <;> exact (lt_or_ge _ _).imp_right fun hle => lt_of_le_of_lt hle h

theorem finite_ne_nan {x : RealVal} (h : x.isFinite = true) : x ≠ .nan := by
  rintro rfl; simp [RealVal.isFinite, RealVal.value?] at h

/-- A value with a rounded integer is no NaN. -/
theorem rha_ne_nan {f : RealFmt} {x : RealVal} {n : Int} (h : rha? f x = some n) : x ≠ .nan := by
  rintro rfl; simp [rha?, abs, add] at h

end Sys2Proof.Reals
end

