-- ==== Sys2Proof/Laws/Step.lean ====
section
/-! SUPPORT. Everything a step can do, said once. -/

namespace Sys2Proof.Machine

/-- Every meaning answers a next state. -/
theorem exec_next (i : Instr) (s : State) : ∃ t, exec i s = .next t := ⟨_, exec_eq i s⟩

/-- A reserved `op` decodes to no command (R68). -/
theorem decode_reserved {p : Ports} (h : 17 ≤ p.op.toNat) : decode p = .error (.reservedOp p.op) := by
  unfold decode
  have := p.op.isLt
  generalize hn : p.op.toNat = n at h this
  interval_cases n <;> rfl

/-- A step idles, resets, or executes the presented command. -/
theorem step_cases (s : State) : (s.inbox = [] ∧ step s = .next s) ∨
    (∃ rest, s.inbox = .reset :: rest ∧ step s = .next { s with inbox := rest, fatal := false, cause := 0 }) ∨
    ∃ p rest, s.inbox = .command p :: rest ∧ step s = runCommand p { s with inbox := rest } := by
  unfold step takeInput
  match h : s.inbox with
  | [] => exact .inl ⟨rfl, by simp⟩
  | .reset :: rest => exact .inr (.inl ⟨rest, rfl, by simp [State.doReset]⟩)
  | .command p :: rest => exact .inr (.inr ⟨p, rest, rfl, by simp⟩)

/-- A presented command that goes on is illegal, or is its meaning. -/
theorem runCommand_next {p : Ports} {s t : State} (h : runCommand p s = .next t) :
    (∃ op, decode p = .error (.reservedOp op) ∧ t = executeIllegal s) ∨ ∃ i, decode p = .ok i ∧ exec i s = .next t := by
  rcases runCommand_cases p s with ⟨ha, e⟩ | ⟨-, op, hd, e⟩ | ⟨-, i, hd, -, e⟩ | ⟨-, i, hd, hw, e⟩
  · simp [e] at h
  · exact .inl ⟨op, hd, by simpa [e] using h.symm⟩
  · exact .inr ⟨i, hd, by rw [← e]; exact h⟩
  · simp [e] at h

/-- The states a presented command can lead to. -/
theorem runCommand_next_cases {p : Ports} {s t : State} (h : runCommand p s = .next t) :
    (s.fatal = true ∧ t = s.answer (.fatal s.cause)) ∨ (s.fatal = false ∧ ∃ p, t = s.answer (.ok p)) ∨
      (s.fatal = false ∧ t = s.answer .overflow) ∨ (s.fatal = false ∧ ∃ c, t = raiseFatal c s) := by
  rcases runCommand_next h with ⟨op, -, rfl⟩ | ⟨i, -, e⟩
  · unfold executeIllegal
    by_cases hf : s.fatal = true
    · exact .inl ⟨hf, by rw [if_pos hf]; rfl⟩
    · exact .inr (.inr (.inr ⟨by simpa using hf, _, by rw [if_neg hf]⟩))
  · have c := exec_cases i s
    rw [e] at c
    simpa using c

/-- A presented command delivers exactly one response. -/
theorem runCommand_rsps {p : Ports} {s t : State} (h : runCommand p s = .next t) : ∃ r, t.rsps = s.rsps ++ [r] := by
  rcases runCommand_next_cases h with ⟨_, rfl⟩ | ⟨h', _, rfl⟩ | ⟨h', rfl⟩ | ⟨h', c, rfl⟩ <;> exact ⟨_, rfl⟩

end Sys2Proof.Machine
end

