-- ==== Sys2Proof/Laws/Handshake.lean ====
section
/-! SUPPORT. What the clock edges can do, said once. -/

namespace Sys2Proof.Machine

/-- An edge that delivers runs the command and hands out its last response. -/
theorem deliver_next {p : Ports} {l m : Link} (h : deliver p l = .next m) :
    ∃ t, runCommand p l.core = .next t ∧ m = ⟨t, none, t.rsps.getLast?⟩ := by
  unfold deliver at h
  split at h
  · rename_i t ht; cases h; exact ⟨t, ht, rfl⟩
  · cases h
  · cases h

/-- Everything an edge can do when it goes on: reset, delivery of a command, a cycle of the latency, or nothing. -/
theorem edge_cases {lat : Ports → Nat} {e : EdgeIn} {l m : Link} (h : edgeWith lat e l = .next m) :
    (e.rst = true ∧ m = ⟨l.core.doReset, none, none⟩) ∨
    (e.rst = false ∧ (∃ p t, runCommand p l.core = .next t ∧ m = ⟨t, none, t.rsps.getLast?⟩) ∨
      (e.rst = false ∧ m.core = l.core ∧ m.rsp = none)) := by
  unfold edgeWith at h
  split at h
  · rename_i hr; cases h; exact .inl ⟨hr, rfl⟩
  · rename_i hr
    have hr : e.rst = false := by simpa using hr
    refine .inr ?_
    split at h
    · split at h
      · obtain ⟨t, a, b⟩ := deliver_next h; exact .inl ⟨hr, _, t, a, b⟩
      · cases h; exact .inr ⟨hr, rfl, rfl⟩
    · split at h
      · split at h
        · obtain ⟨t, a, b⟩ := deliver_next h; exact .inl ⟨hr, _, t, a, b⟩
        · cases h; exact .inr ⟨hr, rfl, rfl⟩
      · cases h; exact .inr ⟨hr, rfl, rfl⟩

/-- With nothing in flight and nothing presented, edges deliver nothing. -/
theorem edges_idle (lat : Ports → Nat) (es : List EdgeIn) (m : Link) (hf : m.flight = none) (hr : m.rsp = none)
    (hx : ∀ x ∈ es, x.cmdValid = false) :
    ∃ n, runEdges lat es m = .next n ∧ n.rspValid = false ∧ n.core.rsps = m.core.rsps := by
  induction es generalizing m with
  | nil => exact ⟨m, rfl, by simp [Link.rspValid, hr], rfl⟩
  | cons e es ih =>
    have hv := hx e (by simp)
    have : ∃ m', edgeWith lat e m = .next m' ∧ m'.flight = none ∧ m'.rsp = none ∧ m'.core.rsps = m.core.rsps := by
      cases hr : e.rst
      · exact ⟨{ m with rsp := none }, by simp [edgeWith, hr, hf, hv], hf, rfl, rfl⟩
      · exact ⟨⟨m.core.doReset, none, none⟩, by simp [edgeWith, hr], rfl, rfl, rfl⟩
    obtain ⟨m', e1, e2, e3, e4⟩ := this
    obtain ⟨n, n1, n2, n3⟩ := ih m' e2 e3 (fun x hx' => hx x (by simp [hx']))
    exact ⟨n, by simp [runEdges, e1, n1], n2, by rw [n3, e4]⟩

end Sys2Proof.Machine
end

