-- ==== Sys2Proof/Laws/PerInstr.lean ====
section
/-! SUPPORT. The facts stated once per command of the table. -/

namespace Sys2Proof.Laws.OpRange

/-- R65: a command is presented on its own `op`, which is one of the seventeen values 0..16. -/
def Statement (i : Instr) : Prop := (encode i).op = i.op ∧ i.op.toNat ≤ 16

theorem fitsu (uval : U64) (width : U7) : Statement (.fitsu uval width) := ⟨rfl, Nat.le_of_ble_eq_true rfl⟩
theorem fitss (sval : S64) (width : U7) : Statement (.fitss sval width) := ⟨rfl, Nat.le_of_ble_eq_true rfl⟩
theorem getu (word : U64) (width : U7) (lsb : U7) : Statement (.getu word width lsb) := ⟨rfl, Nat.le_of_ble_eq_true rfl⟩
theorem gets (word : U64) (width : U7) (lsb : U7) : Statement (.gets word width lsb) := ⟨rfl, Nat.le_of_ble_eq_true rfl⟩
theorem insu (word : U64) (width : U7) (lsb : U7) (uval : U64) : Statement (.insu word width lsb uval) := ⟨rfl, Nat.le_of_ble_eq_true rfl⟩
theorem inss (word : U64) (width : U7) (lsb : U7) (sval : S64) : Statement (.inss word width lsb sval) := ⟨rfl, Nat.le_of_ble_eq_true rfl⟩
theorem rgb2ypp (px : Pixel) (maxValue : U8) : Statement (.rgb2ypp px maxValue) := ⟨rfl, Nat.le_of_ble_eq_true rfl⟩
theorem ypp2rgb (y : RealVal) (pb : RealVal) (pr : RealVal) (maxValue : U8) : Statement (.ypp2rgb y pb pr maxValue) := ⟨rfl, Nat.le_of_ble_eq_true rfl⟩
theorem blkfwd (y : Quad RealVal) : Statement (.blkfwd y) := ⟨rfl, Nat.le_of_ble_eq_true rfl⟩
theorem blkinv (coef : Coef) : Statement (.blkinv coef) := ⟨rfl, Nat.le_of_ble_eq_true rfl⟩
theorem cavg (pb : Quad RealVal) (pr : Quad RealVal) : Statement (.cavg pb pr) := ⟨rfl, Nat.le_of_ble_eq_true rfl⟩
theorem qfwd (coef : Coef) (pb : RealVal) (pr : RealVal) : Statement (.qfwd coef pb pr) := ⟨rfl, Nat.le_of_ble_eq_true rfl⟩
theorem qinv (q : QBlock) : Statement (.qinv q) := ⟨rfl, Nat.le_of_ble_eq_true rfl⟩
theorem pack (pk : Pk) : Statement (.pack pk) := ⟨rfl, Nat.le_of_ble_eq_true rfl⟩
theorem unpack (word : U64) : Statement (.unpack word) := ⟨rfl, Nat.le_of_ble_eq_true rfl⟩
theorem encblk (px : Quad Pixel) (maxValue : U8) : Statement (.encblk px maxValue) := ⟨rfl, Nat.le_of_ble_eq_true rfl⟩
theorem decblk (word : U64) (maxValue : U8) : Statement (.decblk word maxValue) := ⟨rfl, Nat.le_of_ble_eq_true rfl⟩

end Sys2Proof.Laws.OpRange
end

