-- ==== Sys2Proof/Laws/Quantizer.lean ====
section
/-! SUPPORT. The quantizer: the nearest-entry scan, the codes under `exact`, and their ranges under every format. -/

namespace Sys2Proof.Machine

/-- An ascending scan with a strict comparison finds the first minimum, for any comparison that is asymmetric and
negatively transitive. -/
theorem scan_first_min (lt : U4 → U4 → Prop) [DecidableRel lt] (asym : ∀ a b, lt a b → ¬ lt b a)
    (neg : ∀ a b e, lt a e → lt a b ∨ lt b e) : ∀ (l : List U4) (best : U4),
    l.Pairwise (fun a b => a.toNat < b.toNat) → (∀ x ∈ l, best.toNat < x.toNat) →
    ∃ b, l.foldl (fun best i => if lt i best then i else best) best = b ∧ ¬ lt best b ∧ best.toNat ≤ b.toNat ∧
      (best.toNat < b.toNat → lt b best) ∧ ∀ j ∈ l, ¬ lt j b ∧ (j.toNat < b.toNat → lt b j) := by
  intro l
  induction l with
  | nil => intro best _ _; exact ⟨best, rfl, fun h => asym _ _ h h, le_refl _, fun h => absurd h (lt_irrefl _), by simp⟩
  | cons i l ih =>
    intro best hp hb
    rw [List.pairwise_cons] at hp
    have hi : best.toNat < i.toNat := hb i (by simp)
    simp only [List.foldl_cons]
    by_cases h : lt i best
    · rw [if_pos h]
      obtain ⟨b, e, h1, h2, h3, h4⟩ := ih i hp.2 hp.1
      have hbb : lt b best := (neg i b best h).resolve_left h1
      refine ⟨b, e, asym _ _ hbb, by omega, fun _ => hbb, fun j hj => ?_⟩
      rcases List.mem_cons.mp hj with rfl | hj
      · exact ⟨h1, h3⟩
      · exact h4 j hj
    · rw [if_neg h]
      obtain ⟨b, e, h1, h2, h3, h4⟩ := ih best hp.2 (fun x hx => hb x (by simp [hx]))
      refine ⟨b, e, h1, h2, h3, fun j hj => ?_⟩
      rcases List.mem_cons.mp hj with rfl | hj
      · exact ⟨fun hjb => h1 ((neg _ _ _ hjb).resolve_left h), fun hlt => (neg _ _ _ (h3 (by omega))).resolve_right h⟩
      · exact h4 j hj

/-- R122 under every format: the scan finds the lowest index among the nearest entries. -/
theorem indexOfChroma_first (c : Config) (x : RealVal) (hx : x.isFinite = true) :
    firstNearest c x (indexOfChroma c x) := by
  have hd : ∀ i, chromaDist c x i ≠ .nan := fun i =>
    Reals.abs_ne_nan (Reals.sub_ne_nan hx (Reals.lit_ne_nan _ _))
  obtain ⟨b, e, h1, h2, h3, h4⟩ :=
    scan_first_min (fun i j => Reals.lt (chromaDist c x i) (chromaDist c x j) = true)
      (fun a b h => by rw [Reals.lt_asymm h]; decide) (fun a b e h => Reals.lt_neg_trans (hd b) h)
      (Params.indices.drop 1) 0 (by decide) (by decide)
  have e' : indexOfChroma c x = b := e
  rw [e']
  intro j
  have hj := mem_indices j
  rw [show Params.indices = 0 :: Params.indices.drop 1 from rfl] at hj
  rcases List.mem_cons.mp hj with rfl | hj
  · exact ⟨by simpa using h1, h3⟩
  · exact ⟨by simpa using (h4 j hj).1, (h4 j hj).2⟩

/-- R122 under `exact`, in plain arithmetic. -/
theorem indexOfChroma_nearest (c : Config) (hc : c.fmt = .exact) (x : Rat) : isNearest c x (indexOfChroma c (.num x)) := by
  intro j
  have h := indexOfChroma_first c (.num x) rfl j
  simpa [chromaDist_exact c hc] using h

theorem quantC_exact (c : Config) (x : Rat) :
    quantC c (.num x) = indexOfChroma c (.num (max (-(1 / 2)) (min (1 / 2) x))) := by
  have : Reals.clamp (.num x) (.num (-Params.cLim)) (.num Params.cLim) = .num (max (-(1 / 2)) (min (1 / 2) x)) := by
    rw [Reals.clamp_num _ _ _ (by norm_num [Params.cLim])]; norm_num [Params.cLim]
  rw [quantC, this]

/-- The six codes under `exact`. -/
theorem quantize_exact (c : Config) (hc : c.fmt = .exact) (a b g d pb pr : Rat) :
    quantize c ⟨.num a, .num b, .num g, .num d⟩ ⟨.num pb, .num pr⟩ =
      ⟨max 0 (min 511 (roundAway (a * 511))), max (-15) (min 15 (roundAway (b * 50))),
        max (-15) (min 15 (roundAway (g * 50))), max (-15) (min 15 (roundAway (d * 50))),
        (indexOfChroma c (.num (max (-(1 / 2)) (min (1 / 2) pb)))).toNat,
        (indexOfChroma c (.num (max (-(1 / 2)) (min (1 / 2) pr)))).toNat⟩ := by
  simp only [quantize, hc, quantA_exact, quantG_exact, quantC_exact]

theorem toQBlock_a (k : Codes) (h0 : 0 ≤ k.a) (h1 : k.a ≤ 511) : (k.toQBlock.a.toNat : Int) = k.a := by
  simp only [Codes.toQBlock, BitVec.toNat_ofInt]; omega

theorem toInt_ofInt_5 (x : Int) (h0 : -16 ≤ x) (h1 : x ≤ 15) : (BitVec.ofInt 5 x).toInt = x := by
  rw [BitVec.toInt_ofInt]; apply Int.bmod_eq_of_le <;> omega

theorem roundAway_int (n : Int) : roundAway n = n := roundAway_eq (by norm_num)

/-- (T1) and (T2) of R121 under `exact`, as facts about the table's rationals. -/
theorem admissible_exact (c : Config) (hc : c.fmt = .exact) (h : c.admissible = true) :
    (∀ i j : U4, i ≠ j → c.chromaTable[i.toNat]'i.isLt ≠ c.chromaTable[j.toNat]'j.isLt) ∧
      ∀ i : U4, -(1 / 2) ≤ c.chromaTable[i.toNat]'i.isLt ∧ c.chromaTable[i.toNat]'i.isLt ≤ 1 / 2 := by
  simp only [Config.admissible, Bool.and_eq_true, Config.tableDistinct, Config.tableInRange, List.all_eq_true] at h
  refine ⟨fun i j hij => ?_, fun i => ?_⟩
  · have := h.1 i (mem_indices i) j (mem_indices j)
    rw [entry_exact c hc, entry_exact c hc] at this
    simp only [Bool.or_eq_true, beq_iff_eq, hij, false_or, Reals.lt_num, decide_eq_true_eq] at this
    rcases this with h | h
    · exact h.ne
    · exact h.ne'
  · have := h.2 i (mem_indices i)
    rw [entry_exact c hc] at this
    norm_num [Params.cLim] at this
    constructor <;> linarith [this.1, this.2]

/-- `G_LIM` rounded to any format is a nonzero rational. -/
theorem lit_gLim (f : RealFmt) : ∃ c : Rat, c ≠ 0 ∧ Reals.lit f Params.gLim = .num c := by
  have h1 : (match Reals.lit .binary32 Params.gLim with | .num c => decide (c ≠ 0) | _ => false) = true := by
    decide +kernel
  have h2 : (match Reals.lit .binary64 Params.gLim with | .num c => decide (c ≠ 0) | _ => false) = true := by
    decide +kernel
  cases f with
  | exact => exact ⟨Params.gLim, by norm_num [Params.gLim], rfl⟩
  | binary32 =>
    revert h1; split
    · intro h; rename_i c e; exact ⟨c, by simpa using h, e⟩
    · simp
  | binary64 =>
    revert h2; split
    · intro h; rename_i c e; exact ⟨c, by simpa using h, e⟩
    · simp

theorem clampInt_range (n lo hi : Int) (h : lo ≤ hi) : lo ≤ Reals.clampInt n lo hi ∧ Reals.clampInt n lo hi ≤ hi := by
  rw [Reals.clampInt_eq _ _ _ h]; omega

/-- A finite operand, scaled, is no NaN under any format: `rha` is applied to numbers and infinities only (R123). -/
theorem quantize_scaled (f : RealFmt) (x : RealVal) (h : x.isFinite = true) :
    Reals.mul f x (Reals.ofInt Params.aMax) ≠ .nan ∧
      Reals.mul f (Reals.div f x (Reals.lit f Params.gLim)) (Reals.ofInt Params.gMax) ≠ .nan := by
  obtain ⟨c, hc, e⟩ := lit_gLim f
  rw [e, Reals.ofInt, Reals.ofInt]
  exact ⟨Reals.mul_ne_nan (Reals.finite_ne_nan h) (by norm_num [Params.aMax]),
    Reals.mul_ne_nan (Reals.div_ne_nan (Reals.finite_ne_nan h) hc) (by norm_num [Params.gMax])⟩

/-- A rounded and clamped value is in range, whatever the value. -/
theorem roundClamp_range (f : RealFmt) (lo hi : Int) (h : lo ≤ hi) (x : RealVal) :
    lo ≤ roundClamp f lo hi x ∧ roundClamp f lo hi x ≤ hi := by
  unfold roundClamp
  split
  · exact clampInt_range _ _ _ h
  · split <;> omega

/-- The codes of finite operands are in range, under every format (R126). -/
theorem quantA_range (f : RealFmt) (x : RealVal) : 0 ≤ quantA f x ∧ quantA f x ≤ 511 :=
  roundClamp_range _ _ _ (by decide) _

theorem quantG_range (f : RealFmt) (x : RealVal) : -15 ≤ quantG f x ∧ quantG f x ≤ 15 :=
  roundClamp_range _ _ _ (by decide) _

/-- Codes in range are the extension of the block they are narrowed to (R67). -/
theorem ext_toQBlock (k : Codes) (ha : 0 ≤ k.a ∧ k.a ≤ 511) (hb : -15 ≤ k.b ∧ k.b ≤ 15) (hc : -15 ≤ k.c ∧ k.c ≤ 15)
    (hd : -15 ≤ k.d ∧ k.d ≤ 15) (hp : 0 ≤ k.pbIndex ∧ k.pbIndex ≤ 15) (hr : 0 ≤ k.prIndex ∧ k.prIndex ≤ 15) :
    ext k.toQBlock = k.toPk := by
  simp only [ext, Codes.toQBlock, Codes.toPk, Pk.mk.injEq]
  have s : ∀ x : Int, -15 ≤ x ∧ x ≤ 15 → (BitVec.ofInt 5 x).signExtend 64 = BitVec.ofInt 64 x := by
    intro x h
    apply BitVec.eq_of_toInt_eq
    rw [BitVec.toInt_signExtend_of_le (by omega), toInt_ofInt_5 _ (by omega) h.2, BitVec.toInt_ofInt]
    symm
    apply Int.bmod_eq_of_le <;> omega
  refine ⟨?_, s _ hb, s _ hc, s _ hd, ?_, ?_⟩ <;>
  · apply BitVec.eq_of_toNat_eq; simp only [BitVec.toNat_setWidth, BitVec.toNat_ofInt]; omega

/-- R126 under every format: the codes of finite operands are the extension of the block they are narrowed to. -/
theorem ext_quantize (c : Config) (k : Coef) (ch : Chroma) : ext (quantize c k ch).toQBlock = (quantize c k ch).toPk := by
  have i : ∀ x : U4, (0 : Int) ≤ x.toNat ∧ (x.toNat : Int) ≤ 15 := fun x => by have := x.isLt; omega
  exact ext_toQBlock _ (quantA_range _ _) (quantG_range _ _) (quantG_range _ _) (quantG_range _ _) (i _) (i _)

end Sys2Proof.Machine
end

