-- ==== Sys2Proof/Laws/Pipeline.lean ====
section
/-! SUPPORT. The composites: what they are made of, under every `REAL_FMT`, and their values under `exact`. -/

namespace Sys2Proof.Machine

/-- The six operands `QFWD` gets are finite. -/
def finiteOperands (o : Coef × Chroma) : Bool := allFinite [o.1.a, o.1.b, o.1.c, o.1.d, o.2.pb, o.2.pr]

/-- With finite operands the internal pack of `ENCBLK` packs the block `QFWD` puts out, under every format (R126,
R145). -/
theorem encblk_finite (c : Config) (px : Quad Pixel) {mv : U8} (h : mv ≠ 0)
    (hf : finiteOperands (blockOperands c px mv) = true) :
    ∃ w, encblk c px mv = .ok w ∧ pack (ext (blockCodes c px mv).toQBlock) = .ok w ∧
      pack (blockCodes c px mv).toPk = .ok w := by
  have e : blockCodes c px mv = quantize c (blockOperands c px mv).1 (blockOperands c px mv).2 :=
    codesAny_finite hf
  obtain ⟨w, hw, -⟩ := pack_ext (blockCodes c px mv).toQBlock
  have hw' := hw
  rw [e, ext_quantize, ← e] at hw'
  refine ⟨w, ?_, hw, hw'⟩
  rw [encblk, checkMaxValue_ok h]
  show (match pack (blockCodes c px mv).toPk with | .ok cw => _ | .error _ => _) = _
  rw [hw']; rfl

/-- `BLKFWD` and `CAVG` of rationals under `exact`. -/
theorem blkfwdOf_exact (c : Config) (hc : c.fmt = .exact) (p q r t : Rat) :
    blkfwdOf c ⟨.num p, .num q, .num r, .num t⟩ =
      ⟨.num ((t + r + q + p) / 4), .num ((t + r - q - p) / 4), .num ((t - r + q - p) / 4),
        .num ((t - r - q + p) / 4)⟩ := by
  rw [blkfwdOf, blkfwdAny_finite rfl, hc, blkfwd_exact]

theorem cavgOf_exact (c : Config) (hc : c.fmt = .exact) (p q r t p' q' r' t' : Rat) :
    cavgOf c ⟨.num p, .num q, .num r, .num t⟩ ⟨.num p', .num q', .num r', .num t'⟩ =
      ⟨.num ((p + q + r + t) / 4), .num ((p' + q' + r' + t') / 4)⟩ := by
  rw [cavgOf, cavgAny_finite rfl, hc, cavg, mean_exact, mean_exact]

/-- Under `exact` the operands of `QFWD` are rationals. -/
theorem blockOperands_exact (c : Config) (hc : c.fmt = .exact) (px : Quad Pixel) {mv : U8} (h : mv ≠ 0) :
    ∃ a b g d p r : Rat, blockOperands c px mv = (⟨.num a, .num b, .num g, .num d⟩, ⟨.num p, .num r⟩) := by
  have fin : ∀ p : Pixel, ∃ a b e, lumaChroma c p mv = ⟨.num a, .num b, .num e⟩ :=
    fun p => ⟨_, _, _, lumaChroma_exact c hc p mv h⟩
  obtain ⟨a0, b0, e0, h0⟩ := fin px.at0
  obtain ⟨a1, b1, e1, h1⟩ := fin px.at1
  obtain ⟨a2, b2, e2, h2⟩ := fin px.at2
  obtain ⟨a3, b3, e3, h3⟩ := fin px.at3
  simp only [blockOperands, Quad.map, h0, h1, h2, h3, blkfwdOf_exact c hc, cavgOf_exact c hc]
  exact ⟨_, _, _, _, _, _, rfl⟩

theorem finiteOperands_exact (c : Config) (hc : c.fmt = .exact) (px : Quad Pixel) {mv : U8} (h : mv ≠ 0) :
    finiteOperands (blockOperands c px mv) = true := by
  obtain ⟨a, b, g, d, p, r, e⟩ := blockOperands_exact c hc px h
  rw [e]; rfl

/-- The pixel of rationals is the same whatever the free values are. -/
theorem tristimulus_free (c : Config) (hc : c.fmt = .exact) (d d' : Nat → BitVec 64) (y pb pr : Rat) (mv : U8) :
    tristimulus c d (.num y) (.num pb) (.num pr) mv = tristimulus c d' (.num y) (.num pb) (.num pr) mv := by
  simp only [tristimulus, hc, applyRow_exact]
  rw [channel_exact_free d d' 0 0, channel_exact_free d d' 1 1, channel_exact_free d d' 2 2]

/-- Every channel of the pixel of rationals is at most `max_value` (R102). -/
theorem tristimulus_le (c : Config) (hc : c.fmt = .exact) (d : Nat → BitVec 64) (y pb pr : Rat) (mv : U8) :
    (tristimulus c d (.num y) (.num pb) (.num pr) mv).r.toNat ≤ mv.toNat ∧
      (tristimulus c d (.num y) (.num pb) (.num pr) mv).g.toNat ≤ mv.toNat ∧
      (tristimulus c d (.num y) (.num pb) (.num pr) mv).b.toNat ≤ mv.toNat := by
  simp only [tristimulus, hc, applyRow_exact]
  exact ⟨(channel_exact _ _ _ _).2, (channel_exact _ _ _ _).2, (channel_exact _ _ _ _).2⟩

theorem ypp2rgb_zero (c : Config) (d : Nat → BitVec 64) (y pb pr : RealVal) :
    ypp2rgb c d y pb pr 0 = .error (.fatal .maxValueZero) := rfl
theorem encblk_zero (c : Config) (px : Quad Pixel) : encblk c px 0 = .error (.fatal .maxValueZero) := rfl
theorem decblk_zero (c : Config) (w : U64) : decblk c w 0 = .error (.fatal .maxValueZero) := rfl

/-- The coefficients of a block under `exact`. -/
theorem dequantCoef_exact (q : QBlock) : dequantCoef .exact q =
    ⟨.num (q.a.toNat / 511), .num (q.b.toInt * (3 / 10) / 15), .num (q.c.toInt * (3 / 10) / 15),
      .num (q.d.toInt * (3 / 10) / 15)⟩ := by
  have g : ∀ v : S5, dequantG .exact v = .num (v.toInt * (3 / 10) / 15) := by
    intro v
    rw [dequantG, Reals.ofInt, Reals.ofInt, Reals.lit_exact, Reals.mul_exact,
      Reals.div_exact _ _ (by norm_num [Params.gMax])]
    norm_num [Params.gLim, Params.gMax]
  have a : Reals.div .exact (Reals.ofInt q.a.toNat) (Reals.ofInt Params.aMax) = .num (q.a.toNat / 511) := by
    rw [Reals.ofInt, Reals.ofInt, Reals.div_exact _ _ (by norm_num [Params.aMax])]
    norm_num [Params.aMax]
  simp only [dequantCoef, g, a]


end Sys2Proof.Machine
end

