-- ==== Sys2Proof/Laws/Rounding.lean ====
section
/-! SUPPORT. Rounding against the values of the formats written without it (`floatParts`): ties, nearness, overflow;
and what each operation gives on finite operands. -/

namespace Sys2Proof.Reals

open Sys2Proof.Machine

/-- An integer as near as the nearest one: the nearest one is even. -/
theorem roundHalfEven_tie {r : Rat} {n : Int} (hn : n ≠ roundHalfEven r) (h : |r - n| = |r - roundHalfEven r|) :
    roundHalfEven r % 2 = 0 := by
  have h1 : ((⌊r⌋ : Int) : Rat) ≤ r := Int.floor_le r
  have h2 : r < ((⌊r⌋ : Int) : Rat) + 1 := Int.lt_floor_add_one r
  have near := roundHalfEven_near r
  have near' := near
  rw [← h] at near'
  rw [abs_le] at near near'
  have hd : |(n : Rat) - roundHalfEven r| ≤ 1 := by rw [abs_le]; constructor <;> linarith
  have hd' : |n - roundHalfEven r| ≤ 1 := by exact_mod_cast hd
  have hd2 : n = roundHalfEven r + 1 ∨ n = roundHalfEven r - 1 := by rw [abs_le] at hd'; omega
  have half : r = roundHalfEven r + 1 / 2 ∨ r = roundHalfEven r - 1 / 2 := by
    rcases hd2 with e | e
    · left; rw [e] at near'; push_cast at near'; linarith
    · right; rw [e] at near'; push_cast at near'; linarith
  have e : r.floor = ⌊r⌋ := rfl
  unfold roundHalfEven at half ⊢
  simp only [e] at half ⊢
  split at half
  · rename_i hlt; rw [if_pos hlt]; exfalso; rcases half with h | h <;> linarith
  · rename_i hlt; rw [if_neg hlt]
    split at half
    · exfalso; push_cast at half; rcases half with h | h <;> linarith
    · rename_i hgt; rw [if_neg hgt]; split <;> omega

/-- Rounding up to an even integer starts half a unit below it. -/
theorem le_roundHalfEven {r : Rat} {n : Int} (hn : n % 2 = 0) : n ≤ roundHalfEven r ↔ (n : Rat) - 1 / 2 ≤ r := by
  have near := roundHalfEven_near r
  rw [abs_le] at near
  constructor
  · intro h
    have : (n : Rat) ≤ roundHalfEven r := by exact_mod_cast h
    linarith
  · intro h
    have h1 : ((n - 1 : Int) : Rat) ≤ roundHalfEven r := by push_cast; linarith
    have h2 : n - 1 ≤ roundHalfEven r := by exact_mod_cast h1
    by_contra hc
    have e : roundHalfEven r = n - 1 := by omega
    have e' : (roundHalfEven r : Rat) = n - 1 := by rw [e]; push_cast; rfl
    have hr : r = n - 1 / 2 := by linarith
    have := roundHalfEven_tie (r := r) (n := n) (by omega) (by rw [e', hr]; norm_num [abs_of_neg])
    omega

/-- Rounding to a whole number of units: no multiple is nearer, and one as near leaves an even one. -/
theorem near_multiple {a u : Rat} (hu : 0 < u) (n : Int) : |a - roundHalfEven (a / u) * u| ≤ |a - n * u| ∧
    (n ≠ roundHalfEven (a / u) → |a - n * u| = |a - roundHalfEven (a / u) * u| → roundHalfEven (a / u) % 2 = 0) := by
  have e : ∀ x : Rat, |a - x * u| = |a / u - x| * u := by
    intro x
    rw [← abs_of_pos hu, ← abs_mul, abs_of_pos hu, sub_mul, div_mul_cancel₀ _ hu.ne']
  rw [e, e]
  exact ⟨mul_le_mul_of_nonneg_right (roundHalfEven_nearest (a / u) n) hu.le,
    fun hn h => roundHalfEven_tie hn (mul_right_cancel₀ hu.ne' h)⟩

/-- A positive magnitude and any magnitude of the format. -/
theorem near_pos {f : RealFmt} (hf : f ≠ .exact) {a u : Rat} (ha : 0 < a) (hu0 : 0 ≤ u)
    (h : isOfFormat f (.num u) = true) :
    |a - roundHalfEven (a / pow2 (ulpExp f a)) * pow2 (ulpExp f a)| ≤ |a - u| ∧
    (u ≠ roundHalfEven (a / pow2 (ulpExp f a)) * pow2 (ulpExp f a) →
      |a - u| = |a - roundHalfEven (a / pow2 (ulpExp f a)) * pow2 (ulpExp f a)| →
      roundHalfEven (a / pow2 (ulpExp f a)) % 2 = 0) := by
  have hp := pow2_pos (ulpExp f a)
  have mult : ∀ n : Int, u = n * pow2 (ulpExp f a) →
    |a - roundHalfEven (a / pow2 (ulpExp f a)) * pow2 (ulpExp f a)| ≤ |a - u| ∧
    (u ≠ roundHalfEven (a / pow2 (ulpExp f a)) * pow2 (ulpExp f a) →
      |a - u| = |a - roundHalfEven (a / pow2 (ulpExp f a)) * pow2 (ulpExp f a)| →
      roundHalfEven (a / pow2 (ulpExp f a)) % 2 = 0) := fun n hn => by
    have := near_multiple (a := a) hp n
    rw [← hn] at this
    exact And.intro this.1 (fun hne => this.2 (fun e => hne (by rw [hn, e])))
  rcases eq_or_lt_of_le hu0 with rfl | hu
  · exact mult 0 (by simp)
  · obtain ⟨k, hk, -⟩ := format_steps hf hu.ne' h
    rw [abs_of_pos hu] at hk
    by_cases hc : ulpExp f a ≤ ulpExp f u
    · obtain ⟨m, -, hm⟩ := pow2_multiple hc
      rw [hm] at hk
      exact mult (k * m) (by generalize pow2 (ulpExp f a) = w at *; rw [hk]; push_cast; ring)
    · have hlt : floorLog2 u < floorLog2 a ∧ minExp f < floorLog2 a := by
        unfold ulpExp at hc; omega
      have hp1 := precision_pos hf
      obtain ⟨m, -, hm⟩ := pow2_multiple (j := ulpExp f a) (k := floorLog2 a) (by unfold ulpExp; omega)
      have h2 := (floorLog2_spec ha).1
      have h3 : u < pow2 (floorLog2 a) := lt_of_lt_of_le (floorLog2_spec hu).2 (pow2_le.mpr (by omega))
      have := (near_multiple (a := a) hp m).1
      rw [← hm] at this
      have lt : |a - pow2 (floorLog2 a)| < |a - u| := by
        rw [abs_of_nonneg (by linarith), abs_of_nonneg (by linarith)]
        linarith
      exact ⟨by linarith, fun _ e => by linarith⟩

/-- The significands and exponents of a format, in the constants the rounding uses. -/
theorem parts_iff {f : RealFmt} (hf : f ≠ .exact) (k e : Int) : floatParts f k e ↔
    |k| < steps f ∧ minExp f - (precision f - 1) ≤ e ∧ e ≤ maxExp f - (precision f - 1) ∧
      (steps f ≤ 2 * |k| ∨ e = minExp f - (precision f - 1)) := by
  cases f with
  | exact => exact absurd rfl hf
  | binary32 => rw [steps_binary32]; simp only [floatParts, minExp, maxExp, precision]; norm_num; intros; omega
  | binary64 => rw [steps_binary64]; simp only [floatParts, minExp, maxExp, precision]; norm_num; intros; omega

/-- The parts of a whole number of units. -/
theorem parts_of_units {f : RealFmt} (hf : f ≠ .exact) {a : Rat} {n : Int} (hn0 : 0 ≤ n) (hn : n ≤ steps f)
    (hlow : minExp f ≤ floorLog2 a → steps f ≤ 2 * n) (hmax : (n : Rat) * pow2 (ulpExp f a) < pow2 (maxExp f + 1)) :
    ∃ k e : Int, floatParts f k e ∧ 0 ≤ k ∧ (n : Rat) * pow2 (ulpExp f a) = k * (2 : Rat) ^ e ∧ (n % 2 = 0 → k % 2 = 0) := by
  have hp1 := precision_pos hf
  have hge := ulpExp_ge f a
  have h4 : steps f % 4 = 0 := by
    cases f with
    | exact => exact absurd rfl hf
    | binary32 => decide
    | binary64 => decide
  have s2 : ((steps f : Int) : Rat) = 2 * pow2 (precision f - 1) := by
    rw [steps_pow2 hf, show precision f = 1 + (precision f - 1) by ring, pow2_add]
    rw [show 1 + (precision f - 1) - 1 = precision f - 1 by ring]
    congr 1
  rcases lt_or_eq_of_le hn with hlt | rfl
  · refine ⟨n, ulpExp f a, (parts_iff hf _ _).mpr ⟨by rw [abs_of_nonneg hn0]; exact hlt, hge, ?_, ?_⟩, hn0, by rw [pow2_eq], id⟩
    · by_cases hm : minExp f ≤ floorLog2 a
      · have h1 : pow2 (precision f - 1) ≤ n := by
          have : ((steps f : Int) : Rat) ≤ 2 * n := by exact_mod_cast hlow hm
          linarith
        have h2 : pow2 (precision f - 1 + ulpExp f a) < pow2 (maxExp f + 1) := by
          rw [pow2_add]
          exact lt_of_le_of_lt (mul_le_mul_of_nonneg_right h1 (pow2_pos _).le) hmax
        have := pow2_lt.mp h2
        omega
      · have : minExp f ≤ maxExp f := by cases f <;> decide
        unfold ulpExp; omega
    · by_cases hm : minExp f ≤ floorLog2 a
      · left; rw [abs_of_nonneg hn0]; exact hlow hm
      · right; unfold ulpExp; omega
  · have hb : pow2 (precision f + ulpExp f a) < pow2 (maxExp f + 1) := by rw [pow2_add, ← steps_pow2 hf]; exact hmax
    have := pow2_lt.mp hb
    refine ⟨steps f / 2, ulpExp f a + 1, (parts_iff hf _ _).mpr ⟨?_, by omega, by omega, .inl ?_⟩, by omega, ?_, fun _ => by omega⟩
    · rw [abs_of_nonneg (by omega)]
      have : 0 < steps f := by cases f <;> decide
      omega
    · rw [abs_of_nonneg (by omega)]; omega
    · rw [← pow2_eq, pow2_add]
      have : ((steps f : Int) : Rat) = 2 * ((steps f / 2 : Int) : Rat) := by
        have : steps f = 2 * (steps f / 2) := by omega
        exact_mod_cast this
      rw [this, show pow2 1 = 2 by rw [pow2_eq]; norm_num]; ring

/-- The significand of a magnitude that is no subnormal is full. -/
theorem units_full {f : RealFmt} (hf : f ≠ .exact) {a : Rat} (ha : 0 < a) (hm : minExp f ≤ floorLog2 a) :
    steps f ≤ 2 * roundHalfEven (a / pow2 (ulpExp f a)) := by
  have hp1 := precision_pos hf
  have h4 : steps f % 4 = 0 := by
    cases f with
    | exact => exact absurd rfl hf
    | binary32 => decide
    | binary64 => decide
  have s2 : ((steps f / 2 : Int) : Rat) = pow2 (precision f - 1) := by
    have h : ((steps f : Int) : Rat) = 2 * ((steps f / 2 : Int) : Rat) := by
      have : steps f = 2 * (steps f / 2) := by omega
      exact_mod_cast this
    have h' : ((steps f : Int) : Rat) = 2 * pow2 (precision f - 1) := by
      rw [steps_pow2 hf, show precision f = 1 + (precision f - 1) by ring, pow2_add,
        show 1 + (precision f - 1) - 1 = precision f - 1 by ring]
      congr 1
    linarith
  have h1 := (floorLog2_spec ha).1
  have h2 : pow2 (precision f - 1) ≤ a / pow2 (ulpExp f a) := by
    rw [le_div_iff₀ (pow2_pos _), ← pow2_add]
    refine le_trans (pow2_le.mpr ?_) h1
    unfold ulpExp; omega
  have := (le_roundHalfEven (r := a / pow2 (ulpExp f a)) (n := steps f / 2) (by omega)).mpr (by rw [s2]; linarith)
  omega

/-- The rationals of a format, written both ways. -/
theorem floatValue_iff {f : RealFmt} (hf : f ≠ .exact) (u : Rat) : isOfFormat f (.num u) = true ↔ floatValue f u := by
  constructor
  · intro h
    by_cases hu : u = 0
    · refine ⟨0, minExp f - (precision f - 1), (parts_iff hf _ _).mpr ⟨?_, le_refl _, ?_, .inr rfl⟩, by simp [hu]⟩
      · cases f <;> simp [steps]
      · cases f <;> simp [minExp, maxExp]
    · have ha : 0 < |u| := abs_pos.mpr hu
      obtain ⟨n, h1, h2, h3, h4⟩ := format_steps hf hu h
      have hn : roundHalfEven (|u| / pow2 (ulpExp f |u|)) = n := by
        have : |u| / pow2 (ulpExp f |u|) = n := by rw [div_eq_iff (pow2_pos _).ne']; exact h1
        rw [this, roundHalfEven_int]
      obtain ⟨k, e, p, -, hk, -⟩ := parts_of_units hf h2.le h3 (fun hm => by rw [← hn]; exact units_full hf ha hm) (by rw [← h1]; exact h4)
      rw [← h1] at hk
      rcases abs_cases u with ⟨hu', -⟩ | ⟨hu', -⟩
      · exact ⟨k, e, p, by rw [← hk, hu']⟩
      · refine ⟨-k, e, ?_, by push_cast; rw [neg_mul, ← hk, hu', neg_neg]⟩
        rw [parts_iff hf] at p ⊢; rwa [abs_neg]
  · rintro ⟨k, e, p, rfl⟩
    rw [parts_iff hf] at p
    obtain ⟨p1, p2, p3, -⟩ := p
    by_cases hk : k = 0
    · subst hk; cases f <;> simp [isOfFormat, lit]
    · have habs : |(k : Rat) * 2 ^ e| = ((|k| : Int) : Rat) * pow2 e := by
        rw [abs_mul, pow2_eq, abs_of_pos (show (0:Rat) < 2 ^ e by positivity)]; push_cast; rfl
      refine isOfFormat_steps hf (abs_pos.mpr hk) p1.le p2 habs ?_
      rw [habs]
      have : ((|k| : Int) : Rat) * pow2 e < pow2 (precision f + e) := by
        rw [pow2_add, ← steps_pow2 hf]
        exact mul_lt_mul_of_pos_right (by exact_mod_cast p1) (pow2_pos e)
      exact lt_of_lt_of_le this (pow2_le.mpr (by omega))

/-- The magnitude of a rounded nonzero rational. -/
theorem lit_value {f : RealFmt} (hf : f ≠ .exact) {q : Rat} (hq : q ≠ 0) :
    (lit f q = .inf (decide (q < 0)) ∧ pow2 (maxExp f + 1) ≤ ((roundHalfEven (|q| / pow2 (ulpExp f |q|)) : Int) : Rat) * pow2 (ulpExp f |q|)) ∨
    (((roundHalfEven (|q| / pow2 (ulpExp f |q|)) : Int) : Rat) * pow2 (ulpExp f |q|) < pow2 (maxExp f + 1) ∧
      (lit f q).value? = some (if q < 0 then -(((roundHalfEven (|q| / pow2 (ulpExp f |q|)) : Int) : Rat) * pow2 (ulpExp f |q|))
      else ((roundHalfEven (|q| / pow2 (ulpExp f |q|)) : Int) : Rat) * pow2 (ulpExp f |q|))) := by
  rw [lit_float hf, if_neg hq, roundFloat_eq]
  by_cases h : pow2 (maxExp f + 1) ≤ ((roundHalfEven (|q| / pow2 (ulpExp f |q|)) : Int) : Rat) * pow2 (ulpExp f |q|)
  · left; rw [if_pos h]; exact ⟨rfl, h⟩
  · right; rw [if_neg h]; refine ⟨not_le.mp h, ?_⟩
    split
    · rename_i h0; rw [h0]; cases f <;> by_cases hn : q < 0 <;> simp [zero, hn, RealVal.value?]
    · rfl

/-- A positive magnitude is rounded to at most `2^precision` of its units. -/
theorem units_bounds {f : RealFmt} (hf : f ≠ .exact) {a : Rat} (ha : 0 < a) :
    0 ≤ roundHalfEven (a / pow2 (ulpExp f a)) ∧ roundHalfEven (a / pow2 (ulpExp f a)) ≤ steps f := by
  have hlt := lt_steps hf ha
  have hnear := roundHalfEven_near (a / pow2 (ulpExp f a))
  have hr : 0 < a / pow2 (ulpExp f a) := div_pos ha (pow2_pos _)
  rw [abs_le] at hnear
  constructor
  · have : ((-1 : Int) : Rat) < roundHalfEven (a / pow2 (ulpExp f a)) := by push_cast; linarith
    have := Int.cast_lt.mp this; omega
  · have : (roundHalfEven (a / pow2 (ulpExp f a)) : Rat) < ((steps f + 1 : Int) : Rat) := by push_cast; linarith
    have := Int.cast_lt.mp this; omega

/-- The overflow bound, in the constants the rounding uses. -/
theorem bound_eq {f : RealFmt} (hf : f ≠ .exact) : overflowBound f = pow2 (maxExp f + 1) - pow2 (maxExp f - precision f) := by
  cases f with
  | exact => exact absurd rfl hf
  | binary32 => rw [pow2_eq, pow2_eq]; rfl
  | binary64 => rw [pow2_eq, pow2_eq]; rfl

/-- A magnitude is rounded past the largest binade exactly from the overflow bound on. -/
theorem overflow_iff {f : RealFmt} (hf : f ≠ .exact) {a : Rat} (ha : 0 < a) :
    pow2 (maxExp f + 1) ≤ ((roundHalfEven (a / pow2 (ulpExp f a)) : Int) : Rat) * pow2 (ulpExp f a) ↔ overflowBound f ≤ a := by
  have hp1 := precision_pos hf
  have hmm : minExp f ≤ maxExp f - 1 := by cases f <;> first | exact absurd rfl hf | decide
  obtain ⟨n0, n1⟩ := units_bounds hf ha
  have hfull := units_full hf ha
  obtain ⟨g1, g2⟩ := floorLog2_spec ha
  have hpos := pow2_pos (maxExp f - precision f)
  have s2 : ((steps f : Int) : Rat) = 2 * pow2 (precision f - 1) := by
    rw [steps_pow2 hf, show precision f = 1 + (precision f - 1) by ring, pow2_add,
      show 1 + (precision f - 1) - 1 = precision f - 1 by ring]
    congr 1
  have lebits : ((roundHalfEven (a / pow2 (ulpExp f a)) : Int) : Rat) * pow2 (ulpExp f a) ≤ pow2 (precision f + ulpExp f a) := by
    rw [pow2_add, ← steps_pow2 hf]
    exact mul_le_mul_of_nonneg_right (by exact_mod_cast n1) (pow2_pos _).le
  rw [bound_eq hf]
  rcases lt_trichotomy (floorLog2 a) (maxExp f) with hlt | heq | hgt
  · -- below the last binade
    have h1 : pow2 (precision f + ulpExp f a) < pow2 (maxExp f + 1) := pow2_lt.mpr (by unfold ulpExp; omega)
    have h2 : a < pow2 (maxExp f) := lt_of_lt_of_le g2 (pow2_le.mpr (by omega))
    have h3 : pow2 (maxExp f + 1) = pow2 (maxExp f) + pow2 (maxExp f) := by
      rw [pow2_add, show pow2 1 = 2 by rw [pow2_eq]; norm_num]; ring
    have h4 : pow2 (maxExp f - precision f) ≤ pow2 (maxExp f) := pow2_le.mpr (by omega)
    constructor <;> intro h <;> linarith
  · have hu : ulpExp f a = maxExp f - precision f + 1 := by unfold ulpExp; omega
    have e1 : pow2 (maxExp f + 1) = steps f * pow2 (ulpExp f a) := by
      rw [steps_pow2 hf, ← pow2_add]; congr 1; omega
    have e2 : pow2 (ulpExp f a) = 2 * pow2 (maxExp f - precision f) := by
      rw [hu, pow2_add, show pow2 1 = 2 by rw [pow2_eq]; norm_num]; ring
    have hs : steps f % 2 = 0 := by
      cases f with
      | exact => exact absurd rfl hf
      | binary32 => decide
      | binary64 => decide
    have key := le_roundHalfEven (r := a / pow2 (ulpExp f a)) hs
    rw [le_div_iff₀ (pow2_pos _)] at key
    rw [e1]
    have hw := pow2_pos (ulpExp f a)
    constructor
    · intro h
      have h' := le_of_mul_le_mul_right h hw
      have := key.mp (by exact_mod_cast h')
      rw [sub_mul] at this
      linarith
    · intro h
      have := key.mpr (by rw [sub_mul]; linarith)
      exact mul_le_mul_of_nonneg_right (by exact_mod_cast this) hw.le
  · have h1 : pow2 (maxExp f + 1) ≤ a := le_trans (pow2_le.mpr (by omega)) g1
    refine ⟨fun _ => by linarith, fun _ => ?_⟩
    have h2 : pow2 (precision f - 1) ≤ ((roundHalfEven (a / pow2 (ulpExp f a)) : Int) : Rat) := by
      have : ((steps f : Int) : Rat) ≤ 2 * ((roundHalfEven (a / pow2 (ulpExp f a)) : Int) : Rat) := by
        exact_mod_cast hfull (by omega)
      linarith
    calc pow2 (maxExp f + 1) ≤ pow2 (precision f - 1 + ulpExp f a) := pow2_le.mpr (by unfold ulpExp; omega)
      _ = pow2 (precision f - 1) * pow2 (ulpExp f a) := pow2_add _ _
      _ ≤ _ := mul_le_mul_of_nonneg_right h2 (pow2_pos _).le

/-- The rational of a finite value of the format belongs to it. -/
theorem ofFormat_value {f : RealFmt} {x : RealVal} {p : Rat} (h : isOfFormat f x = true) (hx : x.value? = some p) :
    isOfFormat f (.num p) = true := by
  cases x with
  | num q => cases hx; exact h
  | negZero => cases hx; cases f <;> simp [isOfFormat, lit]
  | inf b => cases hx
  | nan => cases hx

/-- A value of the format is rounded to itself. -/
theorem lit_self {f : RealFmt} {p : Rat} (h : isOfFormat f (.num p) = true) : lit f p = .num p := by
  by_cases hf : f = .exact
  · subst hf; rfl
  · exact (isOfFormat_num hf p).mp h

/-- Zero is rounded to itself. -/
theorem lit_zero (f : RealFmt) : lit f 0 = .num 0 := by cases f <;> simp [lit]

/-- `+` on finite values of the format is the exact sum, rounded. -/
theorem add_rounded {f : RealFmt} {x y : RealVal} {p q : Rat} (hx : isOfFormat f x = true) (hy : isOfFormat f y = true)
    (ex : x.value? = some p) (ey : y.value? = some q) : isRounded f (p + q) (add f x y) := by
  have hp := ofFormat_value hx ex
  have hq := ofFormat_value hy ey
  unfold isRounded
  cases x <;> cases ex <;> cases y <;> cases ey <;> simp only [add]
  · split
    · rename_i h; rw [h, lit_zero]; rfl
    · trivial
  · split
    · rename_i h; rw [add_zero] at h; subst h; rfl
    · rw [add_zero, lit_self hp]
  · split
    · rename_i h; rw [zero_add] at h; subst h; rfl
    · rw [zero_add, lit_self hq]
  · simp [RealVal.value?]

/-- Both zeros stand for 0. -/
theorem zero_value (f : RealFmt) (b : Bool) : (zero f b).value? = some 0 := by cases f <;> cases b <;> rfl

/-- `−` of a finite value. -/
theorem neg_value {f : RealFmt} {y : RealVal} {q : Rat} (ey : y.value? = some q) : (neg f y).value? = some (-q) := by
  cases y <;> cases ey <;> simp only [neg]
  · split
    · rename_i h; subst h; rw [zero_value]; simp
    · rfl
  · simp [RealVal.value?]

/-- `clamp` of a finite value. -/
theorem clamp_value {x : RealVal} {p lo hi : Rat} (ex : x.value? = some p) (h : lo ≤ hi) :
    (clamp x (.num lo) (.num hi)).value? = some (max lo (min hi p)) := by
  cases x <;> cases ex <;> simp only [Reals.clamp, lt, decide_eq_true_eq]
  · split
    · rename_i h1; rw [min_eq_right (by linarith), max_eq_left h1.le]; rfl
    · rename_i h1; split
      · rename_i h2; rw [min_eq_left h2.le, max_eq_right h]; rfl
      · rename_i h2; rw [min_eq_right (not_lt.mp h2), max_eq_right (not_lt.mp h1)]; rfl
  · split
    · rename_i h1; rw [min_eq_right (by linarith), max_eq_left h1.le]; rfl
    · rename_i h1; split
      · rename_i h2; rw [min_eq_left h2.le, max_eq_right h]; rfl
      · rename_i h2; rw [min_eq_right (not_lt.mp h2), max_eq_right (not_lt.mp h1)]; rfl

/-- `<` of finite values. -/
theorem lt_value {x y : RealVal} {p q : Rat} (ex : x.value? = some p) (ey : y.value? = some q) : lt x y = decide (p < q) := by
  cases x <;> cases ex <;> cases y <;> cases ey <;> simp [lt]

/-- `abs` of a finite value. -/
theorem abs_value {x : RealVal} {p : Rat} (ex : x.value? = some p) : Reals.abs x = .num |p| := by
  cases x <;> cases ex
  · rw [abs_num]
  · simp [Reals.abs]

/-- `×` on finite values is the exact product, rounded. -/
theorem mul_rounded {f : RealFmt} {x y : RealVal} {p q : Rat}
    (ex : x.value? = some p) (ey : y.value? = some q) : isRounded f (p * q) (mul f x y) := by
  simp only [isRounded, mul, ex, ey]
  split
  · rw [zero_value]
  · rfl

/-- `/` on finite values is the exact quotient, rounded. -/
theorem div_rounded {f : RealFmt} {x y : RealVal} {p q : Rat}
    (ex : x.value? = some p) (ey : y.value? = some q) (hq : q ≠ 0) : isRounded f (p / q) (div f x y) := by
  simp only [isRounded, div, ex, ey, if_neg hq]
  by_cases hp : p = 0
  · subst hp; simp [zero_value]
  · rw [if_neg hp, if_neg (div_ne_zero hp hq)]

/-- `sign` of a finite value. -/
theorem signInt_value {x : RealVal} {p : Rat} (ex : x.value? = some p) : signInt x = if p < 0 then -1 else if p = 0 then 0 else 1 := by
  cases x <;> cases ex
  · rfl
  · simp [signInt]

end Sys2Proof.Reals
end

