-- ==== Sys2Proof/Machine/Notation.lean ====
section
/-! DEFINITION. The textual command notation (R70): `MNEMONIC operand, operand, …`, operands in the order of R66. It is
a notation for readers; no step reads it. -/

namespace Sys2Proof.Machine

/-- The row's mnemonic (R65). -/
def mnemonic : Instr → String
  | .fitsu _ _ => "FITSU"
  | .fitss _ _ => "FITSS"
  | .getu _ _ _ => "GETU"
  | .gets _ _ _ => "GETS"
  | .insu _ _ _ _ => "INSU"
  | .inss _ _ _ _ => "INSS"
  | .rgb2ypp _ _ => "RGB2YPP"
  | .ypp2rgb _ _ _ _ => "YPP2RGB"
  | .blkfwd _ => "BLKFWD"
  | .blkinv _ => "BLKINV"
  | .cavg _ _ => "CAVG"
  | .qfwd _ _ _ => "QFWD"
  | .qinv _ => "QINV"
  | .pack _ => "PACK"
  | .unpack _ => "UNPACK"
  | .encblk _ _ => "ENCBLK"
  | .decblk _ _ => "DECBLK"

/-- "Integers are decimal". -/
def showNat {w : Nat} (v : BitVec w) : String := toString v.toNat

/-- "signed operands may carry `−`". -/
def showInt {w : Nat} (v : BitVec w) : String := toString v.toInt

/-- "A `Real` is written as … an exact ratio"; the values that are no ratio are spelled out. -/
def showReal : RealVal → String
  | .num q => if q.den = 1 then toString q.num else toString q.num ++ "/" ++ toString q.den
  | .negZero => "-0"
  | .inf negative => if negative then "-inf" else "inf"
  | .nan => "nan"

/-- Items separated by commas. -/
def commas (xs : List String) : String := ", ".intercalate xs

/-- "A pixel is `(r,g,b)`". -/
def showPixel (p : Pixel) : String := "(" ++ showNat p.r ++ "," ++ showNat p.g ++ "," ++ showNat p.b ++ ")"

/-- "a bundle of four is `[v0, v1, v2, v3]`". -/
def showQuad {α : Type} (f : α → String) (v : Quad α) : String := "[" ++ commas (v.toList.map f) ++ "]"

/-- "a `QBlock` or `pk` bundle" is a list in curly brackets. -/
def showCodes (xs : List String) : String :=
  String.singleton (Char.ofNat 123) ++ commas xs ++ String.singleton (Char.ofNat 125)

/-- The operands in the order of R66. -/
def operands : Instr → List String
  | .fitsu uval width => [showNat uval, showNat width]
  | .fitss sval width => [showInt sval, showNat width]
  | .getu word width lsb => [showNat word, showNat width, showNat lsb]
  | .gets word width lsb => [showNat word, showNat width, showNat lsb]
  | .insu word width lsb uval => [showNat word, showNat width, showNat lsb, showNat uval]
  | .inss word width lsb sval => [showNat word, showNat width, showNat lsb, showInt sval]
  | .rgb2ypp px mv => [showPixel px, showNat mv]
  | .ypp2rgb y pb pr mv => [showReal y, showReal pb, showReal pr, showNat mv]
  | .blkfwd y => [showQuad showReal y]
  | .blkinv k => [showReal k.a, showReal k.b, showReal k.c, showReal k.d]
  | .cavg pb pr => [showQuad showReal pb, showQuad showReal pr]
  | .qfwd k pb pr => [showReal k.a, showReal k.b, showReal k.c, showReal k.d, showReal pb, showReal pr]
  | .qinv q => [showCodes [showNat q.a, showInt q.b, showInt q.c, showInt q.d, showNat q.pbIndex, showNat q.prIndex]]
  | .pack k =>
    [showCodes [showNat k.a, showInt k.b, showInt k.c, showInt k.d, showNat k.pbIndex, showNat k.prIndex]]
  | .unpack word => [showNat word]
  | .encblk px mv => [showQuad showPixel px, showNat mv]
  | .decblk word mv => [showNat word, showNat mv]

/-- A command as text (R70). -/
def showCommand (i : Instr) : String := mnemonic i ++ " " ++ commas (operands i)

end Sys2Proof.Machine
end

