-- ==== Sys2Proof/Tests/Slice0.lean ====
section
/-! SUPPORT. Tests and witnesses. Expected results are the vectors of spec/95_test_vectors.md (its ids S1 to S11, sections
2.1 to 2.7, programs P1 to P6) and the examples of the rules, not the model's own answers. The witnesses show, for each
statement of the obligations that has hypotheses, a concrete case that meets them. -/

set_option Elab.async false

namespace Sys2Proof.Machine.Tests

/-! ### Helpers -/

/-- Ports on which every port carries a value of its own, so that a wrong port shows. -/
def probe (op : U5) : Ports where
  op := op
  word := 0x0123456789ABCDEF
  width := 9
  lsb := 23
  uval := 259
  sval := 0xFFFFFFFFFFFFFFF7
  px := ⟨⟨1, 2, 3⟩, ⟨4, 5, 6⟩, ⟨7, 8, 9⟩, ⟨10, 11, 12⟩⟩
  maxValue := 255
  y := ⟨.num 1, .num 2, .num 3, .num 4⟩
  pb := ⟨.num 5, .num 6, .num 7, .num 8⟩
  pr := ⟨.num 9, .num 10, .num 11, .num 12⟩
  coef := ⟨.num 13, .num 14, .num 15, .num 16⟩
  q := ⟨257, 1, 2, 3, 4, 5⟩
  pk := ⟨511, 6, 7, 8, 9, 10⟩

/-- The command read, if one is. -/
def decoded (p : Ports) : Option Instr := (decode p).toOption

/-- The state a step goes on with, if it goes on. -/
def next? : Result → Option State
  | .next t => some t
  | .fault _ => none
  | .refused _ => none

/-- The last response and the `STATUS` after a step. -/
def seen (r : Result) : Option (Option Rsp × Bool × U3) :=
  (next? r).map fun t => (t.rsps.getLast?, t.fatal, t.cause)

/-- The response of a command from the state after reset, `STATUS` left clear. -/
abbrev gives (i : Instr) (r : Rsp) : Prop := seen (exec i State.reset) = some (some r, false, 0)

/-- The `FATAL` of a command from the state after reset, with the latch set. -/
abbrev fails (i : Instr) (c : U3) : Prop := seen (exec i State.reset) = some (some (.fatal c), true, c)

/-- After reset, with the host's next actions. -/
def withInbox (xs : List Input) : State := { State.reset with inbox := xs }

/-- The latch set by an earlier `FIELD_RANGE`. -/
def latched : State := { State.reset with fatal := true, cause := 2 }

/-- After reset, with a floating-point `REAL_FMT`. -/
def single : State := { State.reset with cfg := { Config.default with fmt := .binary32 } }

/-- Default tables with one entry replaced. -/
def withEntry (i : Fin 16) (x : Rat) : Config := { Config.default with chromaTable := Params.chromaTable.set i x }

/-- A grey pixel. -/
def grey (v : U8) : Pixel := ⟨v, v, v⟩

/-- The block of program P1. -/
def p1Block : Quad Pixel := ⟨⟨200, 100, 50⟩, ⟨10, 20, 30⟩, ⟨255, 255, 0⟩, ⟨90, 160, 240⟩⟩

/-! ### WellFormed: one ill-formed term for each operand it checks (R28) -/

theorem test_wf_ypp2rgb_y : (Instr.ypp2rgb (.inf false) (.num 0) (.num 0) 255).wf .exact = false := by decide +kernel
theorem test_wf_ypp2rgb_pb : (Instr.ypp2rgb (.num 0) .nan (.num 0) 255).wf .exact = false := by decide +kernel
theorem test_wf_ypp2rgb_pr : (Instr.ypp2rgb (.num 0) (.num 0) .negZero 255).wf .exact = false := by decide +kernel
theorem test_wf_blkfwd : (Instr.blkfwd ⟨.nan, .num 0, .num 0, .num 0⟩).wf .exact = false ∧
    (Instr.blkfwd ⟨.num 0, .nan, .num 0, .num 0⟩).wf .exact = false ∧
    (Instr.blkfwd ⟨.num 0, .num 0, .nan, .num 0⟩).wf .exact = false ∧
    (Instr.blkfwd ⟨.num 0, .num 0, .num 0, .nan⟩).wf .exact = false := by decide +kernel
theorem test_wf_blkinv : (Instr.blkinv ⟨.nan, .num 0, .num 0, .num 0⟩).wf .exact = false ∧
    (Instr.blkinv ⟨.num 0, .nan, .num 0, .num 0⟩).wf .exact = false ∧
    (Instr.blkinv ⟨.num 0, .num 0, .nan, .num 0⟩).wf .exact = false ∧
    (Instr.blkinv ⟨.num 0, .num 0, .num 0, .nan⟩).wf .exact = false := by decide +kernel
theorem test_wf_cavg : (Instr.cavg ⟨.num 0, .num 0, .nan, .num 0⟩ (Quad.all (.num 0))).wf .exact = false ∧
    (Instr.cavg (Quad.all (.num 0)) ⟨.num 0, .num 0, .num 0, .inf true⟩).wf .exact = false := by decide +kernel
theorem test_wf_qfwd : (Instr.qfwd ⟨.num 0, .num 0, .num 0, .nan⟩ (.num 0) (.num 0)).wf .exact = false ∧
    (Instr.qfwd ⟨.num 0, .num 0, .num 0, .num 0⟩ .nan (.num 0)).wf .exact = false ∧
    (Instr.qfwd ⟨.num 0, .num 0, .num 0, .num 0⟩ (.num 0) .nan).wf .exact = false := by decide +kernel
/-- One third is no binary32 value; the infinities and the second zero are, and so is one quarter. -/
theorem test_wf_binary32 : (Instr.blkfwd ⟨.num (1 / 3), .num 0, .num 0, .num 0⟩).wf .binary32 = false ∧
    (Instr.blkfwd ⟨.num (1 / 4), .negZero, .inf true, .nan⟩).wf .binary32 = true := by decide +kernel
/-- (T1) and (T2) of R121: a repeated entry, an entry above 0.5, and the default table. -/
theorem test_table : (withEntry 3 (11 / 1000)).admissible = false ∧ (withEntry 15 (51 / 100)).admissible = false ∧
    (withEntry 15 (1 / 2)).admissible = true ∧ Config.default.admissible = true := by decide +kernel

/-! ### Decoding: each `op` of R65 bit by bit, each operand from its own port (R66) -/

theorem test_decode_fitsu : decoded (probe 0b00000) = some (.fitsu 259 9) := by decide +kernel
theorem test_decode_fitss : decoded (probe 0b00001) = some (.fitss 0xFFFFFFFFFFFFFFF7 9) := by decide +kernel
theorem test_decode_getu : decoded (probe 0b00010) = some (.getu 0x0123456789ABCDEF 9 23) := by decide +kernel
theorem test_decode_gets : decoded (probe 0b00011) = some (.gets 0x0123456789ABCDEF 9 23) := by decide +kernel
theorem test_decode_insu : decoded (probe 0b00100) = some (.insu 0x0123456789ABCDEF 9 23 259) := by decide +kernel
theorem test_decode_inss : decoded (probe 0b00101) = some (.inss 0x0123456789ABCDEF 9 23 0xFFFFFFFFFFFFFFF7) := by
  decide +kernel
theorem test_decode_rgb2ypp : decoded (probe 0b00110) = some (.rgb2ypp ⟨1, 2, 3⟩ 255) := by decide +kernel
theorem test_decode_ypp2rgb : decoded (probe 0b00111) = some (.ypp2rgb (.num 1) (.num 5) (.num 9) 255) := by
  decide +kernel
theorem test_decode_blkfwd : decoded (probe 0b01000) = some (.blkfwd ⟨.num 1, .num 2, .num 3, .num 4⟩) := by
  decide +kernel
theorem test_decode_blkinv : decoded (probe 0b01001) = some (.blkinv ⟨.num 13, .num 14, .num 15, .num 16⟩) := by
  decide +kernel
theorem test_decode_cavg : decoded (probe 0b01010) =
    some (.cavg ⟨.num 5, .num 6, .num 7, .num 8⟩ ⟨.num 9, .num 10, .num 11, .num 12⟩) := by decide +kernel
theorem test_decode_qfwd : decoded (probe 0b01011) =
    some (.qfwd ⟨.num 13, .num 14, .num 15, .num 16⟩ (.num 5) (.num 9)) := by decide +kernel
theorem test_decode_qinv : decoded (probe 0b01100) = some (.qinv ⟨257, 1, 2, 3, 4, 5⟩) := by decide +kernel
theorem test_decode_pack : decoded (probe 0b01101) = some (.pack ⟨511, 6, 7, 8, 9, 10⟩) := by decide +kernel
theorem test_decode_unpack : decoded (probe 0b01110) = some (.unpack 0x0123456789ABCDEF) := by decide +kernel
theorem test_decode_encblk : decoded (probe 0b01111) =
    some (.encblk ⟨⟨1, 2, 3⟩, ⟨4, 5, 6⟩, ⟨7, 8, 9⟩, ⟨10, 11, 12⟩⟩ 255) := by decide +kernel
theorem test_decode_decblk : decoded (probe 0b10000) = some (.decblk 0x0123456789ABCDEF 255) := by decide +kernel
theorem test_decode_reserved : decoded (probe 0b10001) = none ∧ decoded (probe 0b11111) = none := by decide +kernel

/-- R70's form of a command. -/
theorem test_notation : showCommand (.getu 5 9 23) = "GETU 5, 9, 23" := by decide +kernel

/-! ### The commands -/

/-- S3. -/
theorem test_fitsu : gives (.fitsu 511 9) (.ok (.fits true)) ∧ gives (.fitsu 512 9) (.ok (.fits false)) ∧
    gives (.fitsu 1 0) (.ok (.fits false)) ∧ gives (.fitsu 0 0) (.ok (.fits true)) := by
  decide +kernel
/-- 2.1, priority: `FITSU 0, 65`. -/
theorem test_fitsu_fatal : fails (.fitsu 0 65) 1 := by decide +kernel
/-- S3: −16 and −17 at width 5; −1 at width 0. -/
theorem test_fitss : gives (.fitss (BitVec.ofInt 64 (-16)) 5) (.ok (.fits true)) ∧
    gives (.fitss (BitVec.ofInt 64 (-17)) 5) (.ok (.fits false)) ∧ gives (.fitss 16 5) (.ok (.fits false)) ∧
    gives (.fitss (BitVec.ofInt 64 (-1)) 0) (.ok (.fits false)) := by decide +kernel
/-- S3: the ends of width 64. -/
theorem test_fitss_64 : gives (.fitss 0x7FFFFFFFFFFFFFFF 64) (.ok (.fits true)) ∧
    gives (.fitss 0x8000000000000000 64) (.ok (.fits true)) := by decide +kernel
/-- 2.1, extraction: the same field unsigned, and the top of the word. -/
theorem test_getu : gives (.getu 0x81AEE139 5 13) (.ok (.uout 23)) ∧
    gives (.getu 0xFFFFFFFFFFFFFFFF 32 32) (.ok (.uout 0xFFFFFFFF)) ∧
    gives (.getu 0xFFFFFFFFFFFFFFFF 0 64) (.ok (.uout 0)) := by decide +kernel
/-- 2.1, priority: both violated; the sum; `lsb` 65. -/
theorem test_getu_fatal : fails (.getu 0 70 70) 1 ∧ fails (.getu 0 60 10) 2 ∧ fails (.getu 0 0 65) 2 := by
  decide +kernel
/-- 2.1: −9, −16 and bit 63. -/
theorem test_gets : gives (.gets 0x81AEE139 5 13) (.ok (.sout (BitVec.ofInt 64 (-9)))) ∧
    gives (.gets 0x400000 5 18) (.ok (.sout (BitVec.ofInt 64 (-16)))) ∧
    gives (.gets 0x8000000000000000 1 63) (.ok (.sout (BitVec.ofInt 64 (-1)))) := by decide +kernel
theorem test_gets_fatal : fails (.gets 0 1 64) 2 := by decide +kernel
/-- 2.1: the field is cleared, not ORed; S1. -/
theorem test_insu : gives (.insu 0xFFFFFFFFFFFFFFFF 9 23 0) (.ok (.uout 0xFFFFFFFF007FFFFF)) ∧
    gives (.insu 0xFFFFFFFFFFFFFFFF 9 23 259) (.ok (.uout 0xFFFFFFFF81FFFFFF)) := by decide +kernel
/-- 2.1: overflow, width 0, and the geometry before the fit. -/
theorem test_insu_errors : gives (.insu 0 9 23 512) .overflow ∧ gives (.insu 0xFFFFFFFFFFFFFFFF 0 10 1) .overflow ∧
    fails (.insu 0 70 0 0xFFFFFFFFFFFFFFFF) 1 := by decide +kernel
/-- S2 and 2.1. -/
theorem test_inss : gives (.inss 0xFFFFFFFFFFFFFFFF 5 13 (BitVec.ofInt 64 (-9))) (.ok (.uout 0xFFFFFFFFFFFEFFFF)) ∧
    gives (.inss 0 1 63 (BitVec.ofInt 64 (-1))) (.ok (.uout 0x8000000000000000)) := by decide +kernel
/-- 2.1: signed width 0 never fits; 1 does not fit one signed bit; the geometry before the fit. -/
theorem test_inss_errors : gives (.inss 0 0 0 0) .overflow ∧ gives (.inss 0 1 63 1) .overflow ∧
    fails (.inss 0 5 60 99) 2 := by decide +kernel
/-- P1, step 1, and a sample above `max_value` (2.2). -/
theorem test_rgb2ypp : gives (.rgb2ypp ⟨200, 100, 50⟩ 255)
      (.ok (.ypp ⟨.num (207 / 425), .num (-26171 / 159375), .num (33791 / 159375)⟩)) ∧
    gives (.rgb2ypp ⟨200, 0, 0⟩ 100) (.ok (.ypp ⟨.num (598 / 1000), .num (-337472 / 1000000), .num 1⟩)) := by
  decide +kernel
theorem test_rgb2ypp_fatal : fails (.rgb2ypp ⟨1, 2, 3⟩ 0) 3 := by decide +kernel
/-- 2.2: 127.5 rounds away from zero; both clamps; the off-grey case. -/
theorem test_ypp2rgb : gives (.ypp2rgb (.num (1 / 2)) (.num 0) (.num 0) 255) (.ok (.pixel ⟨128, 128, 128⟩)) ∧
    gives (.ypp2rgb (.num (1 / 2)) (.num (1 / 2)) (.num (1 / 2)) 255) (.ok (.pixel ⟨255, 0, 255⟩)) ∧
    gives (.ypp2rgb (.num 1) (.num (35 / 100)) (.num (-35 / 100)) 255) (.ok (.pixel ⟨130, 255, 255⟩)) := by
  decide +kernel
theorem test_ypp2rgb_fatal : fails (.ypp2rgb (.num (1 / 2)) (.num 0) (.num 0) 0) 3 := by decide +kernel
/-- 2.3: each gradient alone. -/
theorem test_blkfwd : gives (.blkfwd ⟨.num 0, .num 0, .num 1, .num 1⟩)
      (.ok (.coef ⟨.num (1 / 2), .num (1 / 2), .num 0, .num 0⟩)) ∧
    gives (.blkfwd ⟨.num 0, .num 1, .num 0, .num 1⟩) (.ok (.coef ⟨.num (1 / 2), .num 0, .num (1 / 2), .num 0⟩)) ∧
    gives (.blkfwd ⟨.num 1, .num 0, .num 0, .num 1⟩) (.ok (.coef ⟨.num (1 / 2), .num 0, .num 0, .num (1 / 2)⟩)) := by
  decide +kernel
/-- S5 and 2.3. -/
theorem test_blkinv : gives (.blkinv ⟨.num (1 / 4), .num (1 / 10), .num (1 / 20), .num 0⟩)
      (.ok (.luma ⟨.num (1 / 10), .num (1 / 5), .num (3 / 10), .num (2 / 5)⟩)) ∧
    gives (.blkinv ⟨.num (1 / 2), .num (3 / 10), .num (3 / 10), .num (3 / 10)⟩)
      (.ok (.luma ⟨.num (1 / 5), .num (1 / 5), .num (1 / 5), .num (7 / 5)⟩)) := by decide +kernel
/-- 2.3. -/
theorem test_cavg : gives (.cavg ⟨.num (-1 / 2), .num (1 / 2), .num (1 / 4), .num (1 / 4)⟩
      ⟨.num 0, .num 0, .num 0, .num (1 / 10)⟩) (.ok (.chromaMean ⟨.num (1 / 8), .num (25 / 1000)⟩)) := by decide +kernel
/-- 2.4: ties of the codes, and chroma midpoints go to the lower index. -/
theorem test_qfwd_ties : gives (.qfwd ⟨.num (1 / 2), .num (11 / 100), .num (-11 / 100), .num (13 / 100)⟩ (.num (1 / 8))
      (.num (-1 / 8))) (.ok (.qblock ⟨256, 6, BitVec.ofInt 5 (-6), 7, 12, 2⟩)) ∧
    gives (.qfwd ⟨.num 0, .num (1 / 100), .num (-1 / 100), .num (99 / 10000)⟩ (.num 0) (.num 0))
      (.ok (.qblock ⟨0, 1, BitVec.ofInt 5 (-1), 0, 7, 7⟩)) := by decide +kernel
/-- 2.4: the clamps; −16 is never produced. -/
theorem test_qfwd_clamps : gives (.qfwd ⟨.num (3 / 2), .num (1 / 2), .num (-1 / 2), .num (3 / 10)⟩ (.num (6 / 10))
      (.num (-6 / 10))) (.ok (.qblock ⟨511, 15, BitVec.ofInt 5 (-15), 15, 15, 0⟩)) := by decide +kernel
/-- R123, corner cases, under binary32 with operands whose scaling overflows: "`a > 1` gives 511", `b ≥ 0.29` gives 15,
`b ≤ −0.29` gives −15, `a < 0` gives 0. -/
theorem test_qfwd_overflow : seen (exec (.qfwd ⟨.num (2 ^ 127), .num (2 ^ 127), .num (-2 ^ 127), .num 0⟩ (.num (2 ^ 127))
      (.num (-2 ^ 127))) single) = some (some (.ok (.qblock ⟨511, 15, BitVec.ofInt 5 (-15), 0, 15, 0⟩)), false, 0) ∧
    seen (exec (.qfwd ⟨.num (-2 ^ 127), .num 0, .num 0, .num 0⟩ (.num 0) (.num 0)) single) =
      some (some (.ok (.qblock ⟨0, 0, 0, 0, 7, 7⟩)), false, 0) := by decide +kernel
/-- 2.4; the code −16 is accepted. -/
theorem test_qinv : gives (.qinv ⟨259, 11, BitVec.ofInt 5 (-9), 1, 3, 9⟩) (.ok (.dequant
      ⟨.num (37 / 73), .num (11 / 50), .num (-9 / 50), .num (1 / 50)⟩ ⟨.num (-1 / 10), .num (33 / 1000)⟩)) ∧
    gives (.qinv ⟨0, BitVec.ofInt 5 (-16), 15, BitVec.ofInt 5 (-15), 0, 15⟩) (.ok (.dequant
      ⟨.num 0, .num (-8 / 25), .num (3 / 10), .num (-3 / 10)⟩ ⟨.num (-35 / 100), .num (35 / 100)⟩)) := by
  decide +kernel
/-- 2.5: signed fields, the all-ones body, the code −16. -/
theorem test_pack : gives (.pack ⟨259, 11, BitVec.ofInt 64 (-9), 1, 3, 9⟩) (.ok (.uout 0x81AEE139)) ∧
    gives (.pack ⟨511, BitVec.ofInt 64 (-1), BitVec.ofInt 64 (-1), BitVec.ofInt 64 (-1), 15, 15⟩)
      (.ok (.uout 0xFFFFFFFF)) ∧
    gives (.pack ⟨0, BitVec.ofInt 64 (-16), BitVec.ofInt 64 (-16), BitVec.ofInt 64 (-16), 0, 0⟩)
      (.ok (.uout 0x421000)) := by decide +kernel
/-- 2.5: one overflow of each kind. -/
theorem test_pack_overflow : gives (.pack ⟨512, 0, 0, 0, 0, 0⟩) .overflow ∧ gives (.pack ⟨0, 16, 0, 0, 0, 0⟩) .overflow ∧
    gives (.pack ⟨0, 0, 0, BitVec.ofInt 64 (-17), 0, 0⟩) .overflow ∧ gives (.pack ⟨0, 0, 0, 0, 0, 16⟩) .overflow := by
  decide +kernel
/-- 2.5: the upper half is ignored. -/
theorem test_unpack : gives (.unpack 0xDEADBEEF81AEE139)
      (.ok (.qblock ⟨259, 11, BitVec.ofInt 5 (-9), 1, 3, 9⟩)) ∧
    gives (.unpack 0x840000) (.ok (.qblock ⟨1, 1, 0, 0, 0, 0⟩)) := by decide +kernel
/-- P1, step 9, and the source's grey block (S7). -/
theorem test_encblk : gives (.encblk p1Block 255) (.ok (.uout 0x81AEE139)) ∧
    gives (.encblk (Quad.all (grey 128)) 255) (.ok (.uout 0x80800077)) := by decide +kernel
theorem test_encblk_fatal : fails (.encblk (Quad.all (grey 1)) 0) 3 := by decide +kernel
/-- P2, step 8: a negative blue channel is clamped; and `b = −16` (2.6). -/
theorem test_decblk : gives (.decblk 0x81AEE139 255)
      (.ok (.pixels ⟨⟨136, 127, 79⟩, ⟨34, 25, 0⟩, ⟨238, 229, 181⟩, ⟨156, 147, 99⟩⟩)) ∧
    gives (.decblk 0x400000 255) (.ok (.pixels ⟨⟨0, 176, 0⟩, ⟨0, 176, 0⟩, ⟨0, 13, 0⟩, ⟨0, 13, 0⟩⟩)) := by
  decide +kernel
theorem test_decblk_fatal : fails (.decblk 0x80800077 0) 3 := by decide +kernel

/-! ### Reals (R17) -/

/-- R17's own examples of `rha`. -/
theorem test_rha : Reals.rha? .exact (.num (5 / 2)) = some 3 ∧ Reals.rha? .exact (.num (-5 / 2)) = some (-3) ∧
    Reals.rha? .exact (.num (24999 / 10000)) = some 2 ∧ Reals.rha? .exact (.num (-1 / 2)) = some (-1) ∧
    Reals.rha? .exact (.num 0) = some 0 := by decide +kernel
/-- IEEE 754 (by hand): 1/10 in binary32 is 13421773 × 2^−27; a tie goes to even; overflow; the least subnormal. -/
theorem test_binary32 : Reals.lit .binary32 (1 / 10) = .num (13421773 / 134217728) ∧
    Reals.lit .binary32 16777217 = .num 16777216 ∧ Reals.lit .binary32 16777219 = .num 16777220 ∧
    Reals.lit .binary32 (2 ^ 128) = .inf false ∧ Reals.lit .binary32 (1 / 2 ^ 149) = .num (1 / 2 ^ 149) ∧
    Reals.lit .binary32 (1 / 2 ^ 150) = .num 0 := by decide +kernel

/-! ### The step, reset and the handshake -/

/-- The step runs each row of the table as the first command after reset: `FITSU 0, 0` answers 1 (S3), `DECBLK` with
`max_value = 0` is fatal (R146), and a reserved `op` is `ILLEGAL_OP` (R68). -/
theorem test_fetch : seen (step (State.reset.withFetchWord 8 0)) = some (some (.ok (.fits true)), false, 0) ∧
    seen (step (State.reset.withFetchWord 8 16)) = some (some (.fatal 3), true, 3) ∧
    seen (step (State.reset.withFetchWord 8 17)) = some (some (.fatal 4), true, 4) := by decide +kernel
/-- P5, steps 3 to 5: the latch refuses everything and keeps its cause. -/
theorem test_latch : seen (exec (.getu 0x81AEE139 9 23) latched) = some (some (.fatal 2), true, 2) ∧
    seen (step { latched with inbox := [.command (probe 18)] }) = some (some (.fatal 2), true, 2) := by decide +kernel
/-- R24: `STATUS` with `FIELD_RANGE` latched is `0b0101`. -/
theorem test_status_bits : latched.status = 0b0101 := by decide
/-- S11. -/
theorem test_wire : wireBytes 0x81AEE139 = [0, 0, 0, 0, 0x81, 0xAE, 0xE1, 0x39] := by decide
/-- R46, R111: the block at the left of a 4 × 2 image. -/
theorem test_block_at : blockAt ((List.range 24).map (BitVec.ofNat 8)) 4 0 0 =
    some ⟨⟨0, 1, 2⟩, ⟨3, 4, 5⟩, ⟨12, 13, 14⟩, ⟨15, 16, 17⟩⟩ := by decide

/-! ### Witnesses: for each statement with hypotheses, values that meet them, clause by clause -/

/-- `FITSU 0, 0` presented. -/
def onFitsu : State := withInbox [.command (Ports.ofOp 0)]

/-- A reserved `op` presented. -/
def onReserved : State := withInbox [.command (Ports.ofOp 17)]

/-- A clock edge at which the host presents a command. -/
def edgeOf (rst valid : Bool) (op : U5) : EdgeIn := ⟨rst, valid, Ports.ofOp op⟩

/-- The link an edge goes on with, if it does. -/
def nextLink? : Host.Outcome Link Fault Refusal → Option Link
  | .next l => some l
  | .fault _ => none
  | .refused _ => none

theorem witness_DecodeAndEncodeAgree : decoded (Ports.ofOp 16) = some (.decblk 0 0) := by decide +kernel
theorem witness_DecodeReadsOnlyTheListedPorts : decoded (probe 0) = some (.fitsu 259 9) ∧
    { probe 0 with word := 0 }.op = (probe 0).op ∧ { probe 0 with word := 0 } ≠ probe 0 ∧
    agreesOn (.fitsu 259 9) (probe 0) { probe 0 with word := 0 } := ⟨by decide +kernel, by decide, by decide, rfl, rfl⟩
theorem witness_EveryOpSelectsACommandOrIsReserved :
    (Ports.ofOp 16).op.toNat ≤ 16 ∧ 17 ≤ (Ports.ofOp 17).op.toNat ∧ 17 ≤ (Ports.ofOp 31).op.toNat := by decide
theorem witness_StepRunsTheDecodedCommand : onFitsu.inbox = [.command (Ports.ofOp 0)] ∧
    onFitsu.cfg.admissible = true ∧ decoded (Ports.ofOp 0) = some (.fitsu 0 0) ∧
    (Instr.fitsu 0 0).wf onFitsu.cfg.fmt = true := by decide +kernel
theorem witness_StepIdlesAndResets : State.reset.inbox = [] ∧ (withInbox [.reset]).inbox = [.reset] := by decide +kernel
/-- The two stops happen: an infinity on a port of an exact block, and a repeated table entry. -/
theorem witness_StepStopsOnlyWhereNoHardwareIs :
    step (withInbox [.command { Ports.ofOp 7 with y := Quad.all (.inf false) }]) = .fault .operandNotOfFormat ∧
    step { onFitsu with cfg := withEntry 3 (11 / 1000) } = .refused .inadmissibleTable :=
  ⟨by rfl, by
    have h : (withEntry 3 (11 / 1000)).admissible = false := test_table.1
    simp [step, takeInput, onFitsu, withInbox, runCommand, h]⟩
theorem witness_ResetStatusIsClear :
    (nextLink? (edgeWith (fun _ => 1) (edgeOf true true 0) ⟨latched, some ⟨Ports.ofOp 0, 3⟩, none⟩)).isSome = true := by
  decide +kernel
theorem witness_CommonPrologue : onFitsu.cfg.admissible = true ∧
    Input.presentable onFitsu.cfg.fmt (.command (Ports.ofOp 16)) = true ∧
    Input.presentable onFitsu.cfg.fmt (.command (Ports.ofOp 17)) = true ∧ latched.fatal = true ∧ onFitsu.fatal = false ∧
    17 ≤ (Ports.ofOp 17).op.toNat ∧ (Ports.ofOp 16).op.toNat ≤ 16 := by decide +kernel
/-- From a clear and from a set latch. -/
theorem witness_ReservedOpIsIllegal : onReserved.inbox = [.command (Ports.ofOp 17)] ∧ onReserved.cfg.admissible = true ∧
    17 ≤ (Ports.ofOp 17).op.toNat ∧ seen (step onReserved) = some (some (.fatal 4), true, 4) ∧
    seen (step { onReserved with fatal := true, cause := 2 }) = some (some (.fatal 2), true, 2) := by decide +kernel
/-- Each line of the table: an own `FATAL`, an `OVERFLOW`, an `OK`. -/
theorem witness_EveryCommandAnswersAsItsRow : State.reset.fatal = false ∧ ownFatal (.getu 0 60 10) = some .fieldRange ∧
    ownFatal (.insu 0 9 23 512) = none ∧ overflows (.insu 0 9 23 512) ∧
    ownFatal (.insu 0 9 23 511) = none ∧ ¬ overflows (.insu 0 9 23 511) :=
  ⟨rfl, by decide, by decide, by simp [overflows], by decide, by simp [overflows]⟩
/-- A step from a set latch that is no reset, and one that is. -/
theorem witness_OnlyResetClearsTheLatch : latched.fatal = true ∧
    (next? (step { latched with inbox := [.command (probe 18)] })).isSome = true ∧
    (next? (step { latched with inbox := [.reset] })).isSome = true := by decide +kernel
theorem witness_StepKeepsStatusLegal : statusLegal State.reset.fatal State.reset.cause = true ∧
    statusLegal latched.fatal latched.cause = true ∧ statusLegal true 5 = true ∧
    (next? (step onReserved)).isSome = true := by decide +kernel
/-- A state with responses delivered, under a floating-point format, that answers one more. -/
theorem witness_StepKeepsInvariant :
    let s : State := { single with
      inbox := [.command (Ports.ofOp 8)], rsps := [.fatal 5, .ok (.luma (Quad.all (.inf true)))] }
    s.inv = true ∧ (next? (step s)).isSome = true := by decide +kernel
theorem witness_StepFrame : (next? (step onFitsu)).isSome = true ∧ (next? (step State.reset)).isSome = true := by
  decide +kernel
/-- Two states that differ in all but the configuration and the latch, and ports that differ in one `FITSU` does not
read; and the same with the latch set. -/
theorem witness_ResponseDependsOnCommandAlone : { probe 0 with word := 0 }.op = (probe 0).op ∧
    decoded (probe 0) = some (.fitsu 259 9) ∧ (withInbox [.reset]).cfg = onFitsu.cfg ∧
    (withInbox [.reset]).fatal = onFitsu.fatal ∧ (next? (runCommand (probe 0) (withInbox [.reset]))).isSome = true ∧
    statusLegal (withInbox [.reset]).fatal (withInbox [.reset]).cause = true ∧
    statusLegal onFitsu.fatal onFitsu.cause = true ∧
    latched.fatal = { latched with cause := 5 }.fatal ∧ (next? (runCommand (probe 0) latched)).isSome = true := by
  decide +kernel
/-- From a clear latch, a command that sets it and one that does not. -/
theorem witness_ResponseDependsOnCommandAlone_latch :
    (next? (runCommand (probe 17) State.reset)).map State.fatal = some true ∧
    (next? (runCommand (probe 0) State.reset)).map State.fatal = some false := by decide +kernel
theorem witness_EveryCommandOfARunIsAnswered :
    let s := withInbox [.command (probe 2), .reset, .command (probe 31), .command (probe 15)]
    s.cfg.admissible = true ∧ s.inbox.all (Input.presentable s.cfg.fmt) = true := by decide +kernel
theorem witness_LatchedRunAnswersOnlyFatal :
    let s : State := { latched with inbox := [.command (probe 2), .command (probe 31)] }
    s.fatal = true ∧ s.cfg.admissible = true ∧ s.inbox.all (Input.presentable s.cfg.fmt) = true ∧
      ∀ x ∈ s.inbox, x ≠ Input.reset := by decide +kernel
/-- Two instances that step, and one that stops. -/
theorem witness_InstancesDoNotInterfere : (0 : Nat) ≠ 1 ∧ [onFitsu, onReserved][1]? = some onReserved ∧
    (next? (step onReserved)).isSome = true ∧
    step (withInbox [.command { Ports.ofOp 7 with y := Quad.all (.inf false) }]) = .fault .operandNotOfFormat :=
  ⟨by decide, rfl, by decide +kernel, rfl⟩
/-- Latencies 0, 1 and 2: answered after as many further edges, not before; and the edge after the response, without a
command and with one that takes two edges. -/
theorem witness_AcceptedCommandIsAnsweredAfterLatency : Link.reset.flight = none ∧ (edgeOf false true 0).rst = false ∧
    (edgeOf false true 0).cmdValid = true ∧ (∀ x ∈ [edgeOf false true 3, edgeOf false false 4], x.rst = false) ∧
    (next? (runCommand (Ports.ofOp 0) Link.reset.core)).isSome = true ∧
    ([] : List EdgeIn).length = (fun _ : Ports => 0) (Ports.ofOp 0) ∧
    [edgeOf false true 3].length = (fun _ : Ports => 1) (Ports.ofOp 0) ∧
    [edgeOf false true 3, edgeOf false false 4].length = (fun _ : Ports => 2) (Ports.ofOp 0) ∧
    [edgeOf false true 3].length < (fun _ : Ports => 2) (Ports.ofOp 0) ∧
    (edgeOf false false 0).rst = false ∧ (edgeOf false false 0).cmdValid = false ∧
    (fun _ : Ports => 2) (edgeOf false true 5).ports ≠ 0 := by decide +kernel
/-- A reset edge with a command in flight, quiet edges after it, and a plain edge with the latch set. -/
theorem witness_ResetEdgeDiscardsTheCommandInFlight : (edgeOf true true 0).rst = true ∧
    (∀ x ∈ [edgeOf false false 0, edgeOf true false 0], x.cmdValid = false) ∧ (edgeOf false true 0).rst = false ∧
    latched.fatal = true ∧
    (nextLink? (edgeWith (fun _ => 1) (edgeOf false true 0) ⟨latched, some ⟨Ports.ofOp 0, 0⟩, none⟩)).isSome = true := by
  decide +kernel
theorem witness_OneCommandInFlight :
    (Link.mk State.reset (some ⟨Ports.ofOp 0, 3⟩) none).flight = some ⟨Ports.ofOp 0, 3⟩ ∧
    (edgeOf false true 1).rst = false ∧ (edgeOf false false 2).rst = false := by decide +kernel
/-- The widths at which the clauses of the fit checks meet. -/
theorem witness_FitsUnsignedCommand : State.reset.fatal = false ∧ 64 < (65 : U7).toNat ∧ (64 : U7).toNat ≤ 64 ∧
    (0 : U7).toNat ≤ 64 := by decide
theorem witness_FitsSignedCommand : State.reset.fatal = false ∧ 64 < (65 : U7).toNat ∧ (0 : U7).toNat = 0 ∧
    1 ≤ (1 : U7).toNat ∧ (64 : U7).toNat ≤ 64 := by decide
theorem witness_FitBoundaries : (0 : U7).toNat ≤ 63 ∧ 1 ≤ (1 : U7).toNat ∧ (63 : U7).toNat ≤ 63 := by decide
theorem witness_FieldGeometryIsCheckedFirst : State.reset.fatal = false ∧ 64 < (65 : U7).toNat ∧
    (64 : U7).toNat ≤ 64 ∧ 64 < (64 : U7).toNat + (1 : U7).toNat ∧ (64 : U7).toNat + (0 : U7).toNat ≤ 64 := by decide
theorem witness_GetUnsignedExtractsTheField : State.reset.fatal = false ∧ 64 < (65 : U7).toNat ∧
    ((64 : U7).toNat ≤ 64 ∧ 64 < (64 : U7).toNat + (1 : U7).toNat) ∧ (0 : U7).toNat + (64 : U7).toNat ≤ 64 := by decide
theorem witness_GetSignedExtendsTheField : State.reset.fatal = false ∧ 64 < (65 : U7).toNat ∧
    ((1 : U7).toNat ≤ 64 ∧ 64 < (1 : U7).toNat + (64 : U7).toNat) ∧ (0 : U7).toNat = 0 ∧
    (1 ≤ (1 : U7).toNat ∧ (1 : U7).toNat + (63 : U7).toNat ≤ 64) := by decide
theorem witness_InsertUnsignedReplacesTheField : State.reset.fatal = false ∧ 64 < (65 : U7).toNat ∧
    ((1 : U7).toNat ≤ 64 ∧ 64 < (1 : U7).toNat + (64 : U7).toNat) ∧ (9 : U7).toNat + (23 : U7).toNat ≤ 64 ∧
    2 ^ (9 : U7).toNat ≤ (512 : U64).toNat ∧ (511 : U64).toNat < 2 ^ (9 : U7).toNat := by decide
theorem witness_InsertSignedReplacesTheField : State.reset.fatal = false ∧ 64 < (65 : U7).toNat ∧
    ((1 : U7).toNat ≤ 64 ∧ 64 < (1 : U7).toNat + (64 : U7).toNat) ∧ (5 : U7).toNat + (13 : U7).toNat ≤ 64 ∧
    (0 : U7).toNat = 0 ∧ (2 : Int) ^ ((5 : U7).toNat - 1) ≤ (16 : S64).toInt ∧
    (BitVec.ofInt 64 (-17)).toInt < -(2 : Int) ^ ((5 : U7).toNat - 1) ∧
    (-(2 : Int) ^ ((5 : U7).toNat - 1) ≤ (BitVec.ofInt 64 (-16)).toInt ∧
      (BitVec.ofInt 64 (-16)).toInt < (2 : Int) ^ ((5 : U7).toNat - 1)) := by decide +kernel
theorem witness_InsertThenGetReturnsTheValue : (1 : U7).toNat + (63 : U7).toNat ≤ 64 ∧ fitsUnsigned 1 1 = true ∧
    fitsSigned (BitVec.ofInt 64 (-1)) 1 = true := by decide +kernel
/-- Two neighbouring fields, one insertion of each kind; and twice the same field. -/
theorem witness_DisjointFieldsDoNotInterfere : (9 : U7).toNat + (23 : U7).toNat ≤ 64 ∧ (5 : U7).toNat + (18 : U7).toNat ≤ 64 ∧
    fitsUnsigned 511 9 = true ∧ fitsSigned (BitVec.ofInt 64 (-16)) 5 = true ∧
    (22 < (23 : U7).toNat ∨ (23 : U7).toNat + (9 : U7).toNat ≤ 22) ∧
    (5 : U7).toNat + (18 : U7).toNat ≤ (23 : U7).toNat := by decide +kernel
theorem witness_RgbToYppCommand : State.reset.fatal = false ∧ State.reset.cfg.fmt = .exact ∧ (0 : U8) = 0 ∧ (1 : U8) ≠ 0 := by
  decide
/-- A channel at `max_value`, and a grey pixel. -/
theorem witness_DefaultLumaChromaRanges : (255 : U8) ≠ 0 ∧ (255 : U8).toNat ≤ (255 : U8).toNat ∧
    (grey 128).r = (grey 128).g ∧ (grey 128).g = (grey 128).b := by decide
theorem witness_YppToRgbCommand : State.reset.fatal = false ∧ State.reset.cfg.fmt = .exact ∧ (0 : U8) = 0 ∧ (1 : U8) ≠ 0 := by
  decide
/-- The premises of the statements about the exact format: `BLKFWD`, `BLKINV`, `CAVG`, `QFWD`, `QINV`. -/
theorem witness_BlockForwardCommand : State.reset.fatal = false ∧ State.reset.cfg.fmt = .exact := by decide
theorem witness_BlockInverseCommand : State.reset.fatal = false ∧ State.reset.cfg.fmt = .exact := by decide
theorem witness_ChromaMeanCommand : State.reset.fatal = false ∧ State.reset.cfg.fmt = .exact := by decide
theorem witness_QuantizeCommand : State.reset.fatal = false ∧ State.reset.cfg.fmt = .exact := by decide
theorem witness_DequantizeCommand : State.reset.fatal = false ∧ State.reset.cfg.fmt = .exact := by decide
theorem witness_BlockCoefficientRanges : (0 : Rat) ≤ 0 ∧ (0 : Rat) ≤ 1 ∧ (1 : Rat) ≤ 1 := by decide +kernel
theorem witness_QuantizerOutputRanges : allFinite [.num (3 / 2), .num (-8 / 25), .negZero, .num 0, .num 1, .num (-1)] = true := by
  decide +kernel
theorem witness_QuantizationIsIdempotent : Config.default.fmt = .exact ∧ Config.default.admissible = true ∧
    codesInRange ⟨511, 15, BitVec.ofInt 5 (-15), 0, 15, 0⟩ :=
  ⟨by decide, test_table.2.2.2, by decide, by decide, by decide⟩
/-- A latch that is clear, one overflowing bundle and one that packs. -/
theorem witness_PackCommand : State.reset.fatal = false ∧ gives (.pack ⟨512, 0, 0, 0, 0, 0⟩) .overflow ∧
    gives (.pack ⟨511, 0, 0, 0, 0, 0⟩) (.ok (.uout 0xFF800000)) := by decide +kernel
theorem witness_UnpackCommand : State.reset.fatal = false := by decide
theorem witness_PackingIsLossless : (0xFFFFFFFF : U64).toNat < 2 ^ 32 := by decide
/-- Under `exact` and under binary32, with `max_value` 0 and not. -/
theorem witness_EncodeBlockIsTheComposition : State.reset.fatal = false ∧ State.reset.cfg.fmt = .exact ∧
    single.fatal = false ∧ single.cfg.fmt = .binary32 ∧ (0 : U8) = 0 ∧ (255 : U8) ≠ 0 := by decide
/-- Under `exact` and under binary32, with an admissible table each. -/
theorem witness_DecodeBlockIsTheComposition : State.reset.fatal = false ∧ State.reset.cfg.admissible = true ∧
    single.fatal = false ∧ single.cfg.admissible = true ∧ (0 : U8) = 0 ∧ (255 : U8) ≠ 0 := by decide +kernel
theorem witness_DecodersIgnoreTheUpperHalf :
    (0xDEADBEEF81AEE139 : U64).toNat % 2 ^ 32 = (0x81AEE139 : U64).toNat % 2 ^ 32 := by decide
theorem witness_UniformBlockHasNoGradient : State.reset.fatal = false ∧ State.reset.cfg.fmt = .exact ∧ (255 : U8) ≠ 0 := by
  decide
/-- Under binary32 each clause about a rounded value has a value it speaks of, and each about an overflow too. -/
theorem witness_EveryOperatorIsOneOperationOfTheFormat : single.fatal = false ∧ single.cfg.fmt = .binary32 ∧ (255 : U8) ≠ 0 ∧
    allFinite [.num 1, .negZero, .num (1 / 2)] = true ∧
    Reals.rha? .binary32 (Reals.mul .binary32 (Reals.clamp (.num (1 / 2)) (.num 0) (.num 1)) (.num 255)) = some 128 ∧
    Reals.rha? .binary32 (Reals.mul .binary32 (.num (1 / 2)) (.num 511)) = some 256 ∧
    Reals.mul .binary32 (.num (2 ^ 127)) (.num 511) = .inf false ∧
    Reals.rha? .binary32 (Reals.mul .binary32 (Reals.div .binary32 (.num (1 / 4)) (Reals.lit .binary32 (3 / 10)))
      (.num 15)) = some 13 ∧
    Reals.mul .binary32 (Reals.div .binary32 (.num (-2 ^ 127)) (Reals.lit .binary32 (3 / 10))) (.num 15) = .inf true := by
  decide +kernel
theorem witness_WireFormIsBigEndian : (0 : Nat) < 8 ∧ (7 : Nat) < 8 ∧ (wireBytes 0x81AEE139)[7]? = some 0x39 ∧
    (0xFFFFFFFF : U64).toNat < 2 ^ 32 := by decide
/-- A rational that rounds down to a neighbour, one half way between two values (1 and 1 + 2^−23), one that rounds to
zero, and the first one that overflows, of either sign. -/
theorem witness_RoundingIsToNearest : RealFmt.binary32 ≠ .exact ∧
    (Reals.lit .binary32 (1 / 10)).value? = some (13421773 / 134217728) ∧
    (Reals.lit .binary32 (16777217 / 16777216)).value? = some 1 ∧ (8388609 / 8388608 : Rat) ≠ 1 ∧
    |(16777217 / 16777216 : Rat) - 8388609 / 8388608| = |(16777217 / 16777216 : Rat) - 1| ∧
    (Reals.lit .binary32 (-(1 / 2 ^ 150))).value? = some 0 ∧
    Reals.lit .binary32 (-(2 ^ 128 - 2 ^ 103)) = .inf true := by decide +kernel
theorem witness_RoundingIsToNearest_values : floatValue .binary32 (8388609 / 8388608) ∧ floatValue .binary32 1 :=
  ⟨⟨8388609, -23, by norm_num [floatParts], by norm_num [zpow_neg]⟩, ⟨8388608, -23, by norm_num [floatParts], by norm_num [zpow_neg]⟩⟩
/-- Two values of binary32, one of them the second zero; a sum of 0; and bounds in order. -/
theorem witness_EachOperatorRoundsTheExactResult :
    Reals.isOfFormat .binary32 (.num (13421773 / 134217728)) = true ∧ Reals.isOfFormat .binary32 .negZero = true ∧
    (RealVal.num (13421773 / 134217728)).value? = some (13421773 / 134217728) ∧ RealVal.negZero.value? = some 0 ∧
    (13421773 / 134217728 : Rat) ≠ 0 ∧ (0 : Rat) ≤ 1 := by decide +kernel
/-- Each clause has an operand it speaks of, beyond the overflow of the scaling and just inside the bound. -/
theorem witness_QuantizerSaturatesUnderEveryFormat : single.fatal = false ∧
    allFinite [.num (2 ^ 127), .num (2 ^ 127), .num (-2 ^ 127), Reals.lit .binary32 (3 / 10), .num 0, .num 0] = true ∧
    Reals.lt (.num 1) (.num (2 ^ 127)) = true ∧ Reals.lt (.num (-1)) (.num 0) = true ∧
    Reals.lt (Reals.lit single.cfg.fmt (3 / 10)) (Reals.lit single.cfg.fmt (3 / 10)) = false ∧
    Reals.lt (Reals.lit single.cfg.fmt (-(3 / 10))) (.num (-2 ^ 127)) = false := by decide +kernel
/-- Finite operands of the largest magnitudes. -/
theorem witness_ChannelsNeverExceedMaxValue : single.fatal = false ∧ (1 : U8) ≠ 0 ∧ (255 : U8) ≠ 0 ∧
    allFinite [.num (2 ^ 127), .num (-2 ^ 127), .negZero] = true := by decide +kernel

end Sys2Proof.Machine.Tests
end

section
/-! PROOFS. The state after reset (R30, R185, R186). -/

namespace Sys2Proof.Machine

/-- R185. Reset clears both fields of `STATUS`, from any state. -/
@[simp] theorem doReset_clear (s : State) : s.doReset.clear := ⟨doReset_fatal s, doReset_cause s⟩

/-- R24. The four bits of `STATUS` are 0 when both its fields are. -/
theorem State.clear.status_eq_zero {s : State} (h : s.clear) : s.status = 0 := by
  obtain ⟨hfatal, hcause⟩ := h
  simp [State.status, hfatal, hcause]

/-- R185. Reset has priority at an edge: the state is reset, the command in flight is discarded and nothing is
delivered, whatever else is presented. -/
theorem edgeWith_of_rst (lat : Ports → Nat) {e : EdgeIn} (l : Link) (h : e.rst = true) :
    edgeWith lat e l = .next ⟨l.core.doReset, none, none⟩ := if_pos h

/-- Settles O8: the reset state has both fields of `STATUS` clear, a reset of any state has by `doReset_clear`, and a
reset edge leads to the reset of its state with nothing in flight and nothing delivered (`edgeWith_of_rst`). -/
theorem resetStatusIsClear : Obligations.ResetStatusIsClear := by
  refine ⟨⟨rfl, rfl⟩, rfl, rfl, rfl, fun s => ?_, fun lat l m e hrst hm => ?_⟩
  · exact ⟨doReset_clear s, doReset_cfg s, (doReset_clear s).status_eq_zero⟩
  · rw [edgeWith_of_rst lat l hrst] at hm
    cases hm
    exact ⟨doReset_clear l.core, doReset_cfg l.core, rfl, rfl⟩

end Sys2Proof.Machine
end

section
/-! PROOFS. Purity: the response to a command is a function of the command, the configuration and `STATUS.fatal`
(R47, R48). -/

namespace Sys2Proof.Machine

/-! ### The command read depends on `op` and the listed ports -/

/-- R66. Ports with the same `op` that agree on the ports a command's row lists decode to that command too. -/
theorem decode_of_agreesOn {p q : Ports} {i : Instr} (hd : decode p = .ok i) (hop : q.op = p.op)
    (ha : agreesOn i p q) : decode q = .ok i := by
  unfold decode at hd ⊢
  split at hd <;> cases hd
  all_goals simp_all [agreesOn]

/-- R65. Every `op` value up to 16 selects a command. -/
theorem exists_decode_eq_ok {p : Ports} (h : p.op.toNat ≤ 16) : ∃ i, decode p = .ok i := by
  unfold decode
  generalize p.op.toNat = n at h
  interval_cases n <;> exact ⟨_, rfl⟩

/-- R48, R66, R68. Ports with the same `op` that agree on the ports its row lists (none where `op` is reserved) are
read alike. -/
theorem decode_congr {p q : Ports} (hop : q.op = p.op) (ha : ∀ i, decode p = .ok i → agreesOn i p q) :
    decode q = decode p := by
  rcases Nat.lt_or_ge p.op.toNat 17 with hlt | hge
  · obtain ⟨i, hd⟩ := exists_decode_eq_ok (Nat.le_of_lt_succ hlt)
    rw [hd, decode_of_agreesOn hd hop (ha i hd)]
  · rw [decode_reserved hge, decode_reserved (hop ▸ hge), hop]

/-! ### A presented command is the prologue and one result -/

/-- R165. A meaning is the prologue (P1) and the result of its rule. -/
theorem exec_eq_command (i : Instr) (s : State) : exec i s = command (rule s.cfg i) s := exec_eq i s

/-- R68. A reserved `op` is a command whose own rule raises `ILLEGAL_OP`. -/
theorem runCommand_reserved {p : Ports} {s : State} {op : U5} (ha : s.cfg.admissible = true)
    (hd : decode p = .error (.reservedOp op)) : runCommand p s = command (.error (.fatal .illegalOp)) s := by
  simp [runCommand, ha, hd, command, executeIllegal]

/-- A command the ports can carry is executed under an admissible table. -/
theorem runCommand_decoded {p : Ports} {s : State} {i : Instr} (ha : s.cfg.admissible = true) (hd : decode p = .ok i)
    (hw : i.wf s.cfg.fmt = true) : runCommand p s = command (rule s.cfg i) s := by
  simp [runCommand, ha, hd, hw, exec_eq_command]

/-- R48. Where a presented command goes on, its result is fixed by the command read and the configuration: ports that
are read alike get the same result in every state with that configuration. -/
theorem exists_result_of_runCommand_next {p : Ports} {s s' : State} (h : runCommand p s = .next s') :
    ∃ res, ∀ (q : Ports) (t : State), decode q = decode p → t.cfg = s.cfg → runCommand q t = command res t := by
  rcases runCommand_cases p s with ⟨-, e⟩ | ⟨ha, op, hd, -⟩ | ⟨ha, i, hd, hw, -⟩ | ⟨-, i, -, -, e⟩
  · simp [e] at h
  · exact ⟨_, fun q t hq hc => runCommand_reserved (hc ▸ ha) (hq.trans hd)⟩
  · exact ⟨rule s.cfg i, fun q t hq hc => hc ▸ runCommand_decoded (hc ▸ ha) (hq.trans hd) (hc ▸ hw)⟩
  · simp [e] at h

/-! ### What a result makes of the state -/

/-- R160 to R162. A result fixes the response, and either `STATUS` stands in every state or it gets the same cause in
every state. -/
theorem exists_response_of_finish (res : Except CmdErr Payload) :
    ∃ r, (∀ s, (finish res s).rsps = s.rsps ++ [r]) ∧
      ((∀ s, (finish res s).fatal = s.fatal ∧ (finish res s).cause = s.cause) ∨
        ∃ c, ∀ s, (finish res s).fatal = true ∧ (finish res s).cause = c) := by
  rcases res with (_ | c) | p
  · exact ⟨.overflow, fun _ => rfl, .inl fun _ => ⟨rfl, rfl⟩⟩
  · exact ⟨.fatal c.code, fun _ => rfl, .inr ⟨c.code, fun _ => ⟨rfl, rfl⟩⟩⟩
  · exact ⟨.ok p, fun _ => rfl, .inl fun _ => ⟨rfl, rfl⟩⟩

/-- R24. A legal `STATUS` with the latch clear has cause 0. -/
theorem cause_eq_zero_of_statusLegal {c : U3} (h : statusLegal false c = true) : c = 0 :=
  BitVec.eq_of_toNat_eq (by simpa [statusLegal] using h)

/-- Settles O18: both port values are read as the same command (`decode_congr`), so both states answer one result
(`exists_result_of_runCommand_next`). A set latch answers its own cause; from a clear one the result fixes the response
and what becomes of `STATUS` (`exists_response_of_finish`). -/
theorem responseDependsOnCommandAlone : Obligations.ResponseDependsOnCommandAlone := by
  intro p q s t s' hop hagree hcfg hfatal hrun
  obtain ⟨res, hres⟩ := exists_result_of_runCommand_next hrun
  have hs := hres p s rfl rfl
  have ht := hres q t (decode_congr hop hagree) hcfg.symm
  rw [hrun] at hs
  cases hf : s.fatal with
  | true =>
    have hft : t.fatal = true := hfatal ▸ hf
    rw [command_latched hf] at hs
    rw [command_latched hft] at ht
    cases hs
    exact ⟨_, .fatal s.cause, .fatal t.cause, ht, rfl, rfl, rfl, by simp, fun _ => rfl, hfatal, by simp, by simp,
      fun _ => ⟨rfl, rfl⟩⟩
  | false =>
    have hft : t.fatal = false := hfatal ▸ hf
    rw [command_clear hf] at hs
    rw [command_clear hft] at ht
    cases hs
    obtain ⟨r, hrsps, hstands | ⟨c, hset⟩⟩ := exists_response_of_finish res
    · obtain ⟨hsf, hsc⟩ := hstands s
      obtain ⟨htf, htc⟩ := hstands t
      have hzero (hls : statusLegal false s.cause = true) (hlt : statusLegal t.fatal t.cause = true) :
          s.cause = t.cause := by
        rw [hft] at hlt
        rw [cause_eq_zero_of_statusLegal hls, cause_eq_zero_of_statusLegal hlt]
      exact ⟨_, r, r, ht, hrsps s, hrsps t, rfl, fun _ => rfl, by simp, by rw [hsf, htf, hfatal],
        by simp [hsf, hf], fun _ hls hlt => by rw [hsc, htc, hzero hls hlt], by simp⟩
    · obtain ⟨hsf, hsc⟩ := hset s
      obtain ⟨htf, htc⟩ := hset t
      exact ⟨_, r, r, ht, hrsps s, hrsps t, rfl, fun _ => rfl, by simp, by rw [hsf, htf], fun _ _ => by rw [hsc, htc],
        fun _ _ _ => by rw [hsc, htc], by simp⟩

end Sys2Proof.Machine
end

section
/-! PROOFS. Encoding: the reserved `op` values (R68). -/

namespace Sys2Proof.Machine

/-- R14. A step with a command presented first takes it off the host's list and runs it. -/
theorem step_of_inbox_command {s : State} {p : Ports} {rest : List Input} (h : s.inbox = .command p :: rest) :
    step s = runCommand p { s with inbox := rest } := by
  simp [step, takeInput, h]

/-- Settles O11: the decoder rejects a reserved `op` before it reads an operand port (`decode_reserved`), so the step is
a command that raises `ILLEGAL_OP` (`runCommand_reserved`): a set latch answers its own cause, a clear one is set. -/
theorem reservedOpIsIllegal : Obligations.ReservedOpIsIllegal := by
  intro s p rest hinbox hadm hop
  have hdecode := decode_reserved hop
  refine ⟨fun i => by simp [hdecode], ?_⟩
  rw [step_of_inbox_command hinbox, runCommand_reserved (s := { s with inbox := rest }) hadm hdecode]
  cases s.fatal with
  | true => exact command_latched rfl _
  | false => exact command_clear rfl _

end Sys2Proof.Machine
end

section
/-! PROOFS. The BitField Codec (R80 to R86, R89): the fit checks, field extraction and field replacement. -/

namespace Sys2Proof.Machine

/-! ### A command's answer from a clear latch, by the result of its rule -/

section
variable {i : Instr} {s : State} (hs : s.fatal = false)
include hs

/-- R160. A rule that ends with a result is answered `OK`. -/
theorem exec_of_rule_ok {p : Payload} (h : rule s.cfg i = .ok p) : exec i s = .next (s.answer (.ok p)) := by
  rw [exec_clear i hs, h, finish_ok]

/-- R162. A rule that overflows is answered `OVERFLOW`, and `STATUS` stands. -/
theorem exec_of_rule_overflow (h : rule s.cfg i = .error .overflow) : exec i s = .next (s.answer .overflow) := by
  rw [exec_clear i hs, h, finish_overflow]

/-- R161. A rule that ends fatally sets the latch with its cause code and answers that code. -/
theorem exec_of_rule_fatal {c : Cause} (h : rule s.cfg i = .error (.fatal c)) :
    exec i s = .next { s with fatal := true, cause := c.code, rsps := s.rsps ++ [.fatal c.code] } := by
  rw [exec_clear i hs, h, finish_fatal]
  rfl

end

/-! ### The geometry preconditions (R80) -/

/-- The two commands without an `lsb`, with the value they check. -/
def IsFitCommand (v : U64) (width : U7) (i : Instr) : Prop := i = .fitsu v width ∨ i = .fitss v width

/-- The four commands on a field of a word, with the value an insertion writes. -/
def IsFieldCommand (word : U64) (width lsb : U7) (v : U64) (j : Instr) : Prop :=
  j = .getu word width lsb ∨ j = .gets word width lsb ∨ j = .insu word width lsb v ∨ j = .inss word width lsb v

/-- A fit check ends with the error its width check raises. -/
theorem IsFitCommand.rule_error {v : U64} {width : U7} {i : Instr} (h : IsFitCommand v width i) {e : CmdErr}
    (he : checkWidth width = .error e) (c : Config) : rule c i = .error e := by
  rcases h with rfl | rfl
  · simp only [rule, fitsu, he]; rfl
  · simp only [rule, fitss, he]; rfl

/-- A command on a field ends with the error its geometry check raises, whatever value it would insert. -/
theorem IsFieldCommand.rule_error {word : U64} {width lsb : U7} {v : U64} {j : Instr}
    (h : IsFieldCommand word width lsb v j) {e : CmdErr} (he : checkField width lsb = .error e) (c : Config) :
    rule c j = .error e := by
  rcases h with rfl | rfl | rfl | rfl
  · simp only [rule, getu, he]; rfl
  · simp only [rule, gets, he]; rfl
  · simp only [rule, insu, he]; rfl
  · simp only [rule, inss, he]; rfl

section
variable {word : U64} {width lsb : U7} {v : U64} {i j : Instr} {s : State} (hs : s.fatal = false)
include hs

theorem IsFitCommand.exec_widthRange (h : IsFitCommand v width i) (hw : 64 < width.toNat) :
    exec i s = .next { s with fatal := true, cause := 1, rsps := s.rsps ++ [.fatal 1] } :=
  exec_of_rule_fatal hs (h.rule_error (checkWidth_range hw) s.cfg)

theorem IsFieldCommand.exec_widthRange (h : IsFieldCommand word width lsb v j) (hw : 64 < width.toNat) :
    exec j s = .next { s with fatal := true, cause := 1, rsps := s.rsps ++ [.fatal 1] } :=
  exec_of_rule_fatal hs (h.rule_error (checkField_width lsb hw) s.cfg)

theorem IsFieldCommand.exec_fieldRange (h : IsFieldCommand word width lsb v j) (hw : width.toNat ≤ 64)
    (hg : 64 < width.toNat + lsb.toNat) :
    exec j s = .next { s with fatal := true, cause := 2, rsps := s.rsps ++ [.fatal 2] } :=
  exec_of_rule_fatal hs (h.rule_error (checkField_field hw hg) s.cfg)

/-! ### The answers where the geometry holds -/

theorem exec_fitsu_ok (hw : width.toNat ≤ 64) :
    exec (.fitsu v width) s = .next (s.answer (.ok (.fits (fitsUnsigned v width)))) :=
  exec_of_rule_ok hs (by simp [rule, fitsu_ok hw])

theorem exec_fitss_ok (hw : width.toNat ≤ 64) :
    exec (.fitss v width) s = .next (s.answer (.ok (.fits (fitsSigned v width)))) :=
  exec_of_rule_ok hs (by simp [rule, fitss_ok hw])

variable (hg : width.toNat + lsb.toNat ≤ 64)
include hg

theorem exec_getu_ok :
    exec (.getu word width lsb) s = .next (s.answer (.ok (.uout (BitVec.ofNat 64 (fieldNat word width lsb))))) :=
  exec_of_rule_ok hs (by simp [rule, getu_ok hg])

theorem exec_gets_ok :
    exec (.gets word width lsb) s = .next (s.answer (.ok (.sout (BitVec.ofInt 64 (fieldInt word width lsb))))) :=
  exec_of_rule_ok hs (by simp [rule, gets_ok hg])

theorem exec_insu_ok (hf : fitsUnsigned v width = true) :
    exec (.insu word width lsb v) s = .next (s.answer (.ok (.uout (putField word width lsb v.toNat)))) :=
  exec_of_rule_ok hs (by simp [rule, insu_ok hg hf])

theorem exec_insu_overflow (hf : fitsUnsigned v width = false) :
    exec (.insu word width lsb v) s = .next (s.answer .overflow) :=
  exec_of_rule_overflow hs (by simp [rule, insu_overflow hg hf])

theorem exec_inss_ok (hf : fitsSigned v width = true) :
    exec (.inss word width lsb v) s =
      .next (s.answer (.ok (.uout (putField word width lsb (v.toInt % 2 ^ width.toNat).toNat)))) :=
  exec_of_rule_ok hs (by simp [rule, inss_ok hg hf])

theorem exec_inss_overflow (hf : fitsSigned v width = false) :
    exec (.inss word width lsb v) s = .next (s.answer .overflow) :=
  exec_of_rule_overflow hs (by simp [rule, inss_overflow hg hf])

/-- R80. No `FATAL` is answered where the geometry holds: a value that does not fit is an `OVERFLOW`. -/
theorem IsFieldCommand.exec_not_fatal (h : IsFieldCommand word width lsb v j) :
    ∃ r : Rsp, exec j s = .next (s.answer r) ∧ ∀ c, r ≠ .fatal c := by
  rcases h with rfl | rfl | rfl | rfl
  · exact ⟨_, exec_getu_ok hs hg, nofun⟩
  · exact ⟨_, exec_gets_ok hs hg, nofun⟩
  · cases hf : fitsUnsigned v width with
    | true => exact ⟨_, exec_insu_ok hs hg hf, nofun⟩
    | false => exact ⟨_, exec_insu_overflow hs hg hf, nofun⟩
  · cases hf : fitsSigned v width with
    | true => exact ⟨_, exec_inss_ok hs hg hf, nofun⟩
    | false => exact ⟨_, exec_inss_overflow hs hg hf, nofun⟩

end

/-! ### The fit checks on numbers (R81, R82, R89) -/

theorem fitsUnsigned_eq_false_iff (n : U64) (width : U7) : fitsUnsigned n width = false ↔ 2 ^ width.toNat ≤ n.toNat := by
  rw [← Bool.not_eq_true, fitsUnsigned_iff, Nat.not_lt]

/-- R82. Nothing fits width 0; else a value outside the signed range does not. -/
theorem fitsSigned_eq_false_iff (n : S64) (width : U7) : fitsSigned n width = false ↔
    width.toNat = 0 ∨ n.toInt < -(2 : Int) ^ (width.toNat - 1) ∨ (2 : Int) ^ (width.toNat - 1) ≤ n.toInt := by
  rw [← Bool.not_eq_true, fitsSigned_iff]
  omega

/-- R81. The unsigned check of a number that fits the port. -/
theorem fitsUnsigned_ofNat {n : Nat} (h : n < 2 ^ 64) (width : U7) :
    fitsUnsigned (BitVec.ofNat 64 n) width = decide (n < 2 ^ width.toNat) := by
  rw [fitsUnsigned, BitVec.toNat_ofNat, Nat.mod_eq_of_lt h]

/-- R82. The signed check of a number that fits the port. -/
theorem fitsSigned_ofInt {x : Int} (hlo : -2 ^ 63 ≤ x) (hhi : x < 2 ^ 63) {width : U7} (hw : 1 ≤ width.toNat) :
    fitsSigned (BitVec.ofInt 64 x) width =
      decide (-(2 : Int) ^ (width.toNat - 1) ≤ x ∧ x < (2 : Int) ^ (width.toNat - 1)) := by
  rw [Bool.eq_iff_iff, fitsSigned_iff, toInt_ofInt_64 hlo hhi, decide_eq_true_iff]
  exact and_iff_right hw

/-- Settles O27: each boundary is within the port, so the checks compare it with the bound itself
(`fitsUnsigned_ofNat`, `fitsSigned_ofInt`); at width 64 the bound is the port's. -/
theorem fitBoundaries : Obligations.FitBoundaries := by
  refine ⟨fun w hw => ?_, fun w h1 hw => ?_, fun n => ?_, fun n => ?_⟩
  · have hlt : 2 ^ w.toNat < 2 ^ 64 := Nat.pow_lt_pow_right (by norm_num) (by omega)
    have hpos : 0 < 2 ^ w.toNat := by positivity
    rw [fitsUnsigned_ofNat hlt, fitsUnsigned_ofNat (by omega)]
    exact ⟨by simp, fun _ => by simp⟩
  · have hlt : (2 : Int) ^ (w.toNat - 1) < 2 ^ 63 := pow_lt_pow_right₀ (by norm_num) (by omega)
    have hpos : (0 : Int) < 2 ^ (w.toNat - 1) := by positivity
    rw [fitsSigned_ofInt (by omega) hlt h1, fitsSigned_ofInt (by omega) (by omega) h1,
      fitsSigned_ofInt (by omega) (by omega) h1, fitsSigned_ofInt (by omega) (by omega) h1]
    simp only [decide_eq_true_eq, decide_eq_false_iff_not]
    omega
  · exact (fitsUnsigned_iff n 64).mpr n.isLt
  · exact (fitsSigned_iff n 64).mpr ⟨by decide, BitVec.le_toInt n, BitVec.toInt_lt⟩

/-- Settles O28: each command ends with the error of its own geometry check (`IsFitCommand.rule_error`,
`IsFieldCommand.rule_error`), and where the check passes none of its results is a `FATAL`. -/
theorem fieldGeometryIsCheckedFirst : Obligations.FieldGeometryIsCheckedFirst := by
  intro word width lsb v i j s hs hi hj
  have hi : IsFitCommand v width i := hi
  have hj : IsFieldCommand word width lsb v j := hj
  refine ⟨fun hw => ⟨hi.exec_widthRange hs hw, hj.exec_widthRange hs hw⟩, fun hw => ?_,
    hj.exec_fieldRange hs, fun hg => hj.exec_not_fatal hs hg⟩
  rcases hi with rfl | rfl
  · exact ⟨_, exec_fitsu_ok hs hw⟩
  · exact ⟨_, exec_fitss_ok hs hw⟩

/-- Settles O25: the width check (`IsFitCommand.exec_widthRange`), then the unsigned check (`exec_fitsu_ok`). -/
theorem fitsUnsignedCommand : Obligations.FitsUnsignedCommand := fun _ _ _ =>
  ⟨rfl, fun hs => ⟨IsFitCommand.exec_widthRange hs (.inl rfl), exec_fitsu_ok hs⟩⟩

/-- Settles O26: the width check (`IsFitCommand.exec_widthRange`), then the signed check (`exec_fitss_ok`), which
nothing passes at width 0. -/
theorem fitsSignedCommand : Obligations.FitsSignedCommand := by
  refine fun sval width s => ⟨rfl, fun hs => ⟨IsFitCommand.exec_widthRange hs (.inr rfl), fun h0 => ?_, fun h1 hw => ?_⟩⟩
  · rw [exec_fitss_ok hs (by omega), (fitsSigned_eq_false_iff sval width).mpr (.inl h0)]
  · have hfits : fitsSigned sval width = decide (-(2 : Int) ^ (width.toNat - 1) ≤ sval.toInt ∧
        sval.toInt ≤ (2 : Int) ^ (width.toNat - 1) - 1) := by
      rw [Bool.eq_iff_iff, fitsSigned_iff, decide_eq_true_iff]
      omega
    rw [exec_fitss_ok hs hw, hfits]

/-! ### Extraction (R83, R84) -/

/-- R83. The unsigned field on the port is its number. -/
theorem toNat_ofNat_fieldNat (word : U64) (width lsb : U7) :
    (BitVec.ofNat 64 (fieldNat word width lsb)).toNat = fieldNat word width lsb := by
  rw [BitVec.toNat_ofNat, Nat.mod_eq_of_lt (fieldNat_lt_64 word width lsb)]

/-- R84. A field of width 0 has no sign bit and is 0. -/
theorem fieldInt_of_width_zero (word : U64) {width : U7} (lsb : U7) (h : width.toNat = 0) :
    fieldInt word width lsb = 0 := by
  simp [fieldInt, fieldNat, h, Nat.mod_one]

/-- R84. The signed field on the port is its number. -/
theorem toInt_ofInt_fieldInt (word : U64) {width lsb : U7} (hg : width.toNat + lsb.toNat ≤ 64) :
    (BitVec.ofInt 64 (fieldInt word width lsb)).toInt = fieldInt word width lsb := by
  rcases Nat.eq_zero_or_pos width.toNat with h0 | h1
  · rw [fieldInt_of_width_zero word lsb h0]; rfl
  · obtain ⟨hlo, hhi⟩ := fieldInt_range word width lsb h1
    have hle : (2 : Int) ^ (width.toNat - 1) ≤ 2 ^ 63 := pow_le_pow_right₀ (by norm_num) (by omega)
    exact toInt_ofInt_64 (by omega) (by omega)

/-- R84's closed form, on integers. -/
theorem fieldInt_eq (word : U64) (width lsb : U7) {f : Int}
    (hf : f = word.toNat / 2 ^ lsb.toNat % 2 ^ width.toNat) : fieldInt word width lsb =
      if 1 ≤ width.toNat ∧ (2 : Int) ^ (width.toNat - 1) ≤ f then f - 2 ^ width.toNat else f := by
  have hcast : f = (fieldNat word width lsb : Int) := by rw [hf, fieldNat]; push_cast; rfl
  rw [hcast, fieldInt]
  norm_cast

/-- Settles O29: the geometry check, then the field's number (`toNat_ofNat_fieldNat`) and its bits
(`fieldNat_testBit`). -/
theorem getUnsignedExtractsTheField : Obligations.GetUnsignedExtractsTheField := by
  refine fun word width lsb s => ⟨rfl, fun hs => ?_⟩
  have hfield : IsFieldCommand word width lsb 0 (.getu word width lsb) := .inl rfl
  have hnat := toNat_ofNat_fieldNat word width lsb
  refine ⟨hfield.exec_widthRange hs, hfield.exec_fieldRange hs, fun hg => ⟨_, exec_getu_ok hs hg, hnat, ?_, fun i => ?_⟩⟩
  · rw [fitsUnsigned_iff, hnat]
    exact fieldNat_lt word width lsb
  · rw [BitVec.getLsbD, hnat, fieldNat_testBit]

/-- Settles O30: the geometry check, then the field's number (`toInt_ofInt_fieldInt`, `fieldInt_eq`), its range
(`fieldInt_range`) and its bits (`fieldInt_getLsbD`). -/
theorem getSignedExtendsTheField : Obligations.GetSignedExtendsTheField := by
  refine fun word width lsb s => ⟨rfl, fun hs => ?_⟩
  have hfield : IsFieldCommand word width lsb 0 (.gets word width lsb) := .inr (.inl rfl)
  refine ⟨hfield.exec_widthRange hs, hfield.exec_fieldRange hs, fun hg => ⟨_, exec_gets_ok hs hg, fun h0 => ?_,
    fun f hf => ?_, fun h1 => ⟨?_, fieldInt_getLsbD word width lsb hg h1⟩⟩⟩
  · rw [fieldInt_of_width_zero word lsb h0]; rfl
  · rw [toInt_ofInt_fieldInt word hg, fieldInt_eq word width lsb hf]
  · rw [fitsSigned_iff, toInt_ofInt_fieldInt word hg]
    exact ⟨h1, fieldInt_range word width lsb h1⟩

/-! ### Insertion (R85, R86) -/

/-- R85's closed form: nothing of it is lost on the port. -/
theorem putField_toNat_eq_sub_add (word : U64) {width lsb : U7} {v : Nat} (hv : v < 2 ^ width.toNat)
    (hg : width.toNat + lsb.toNat ≤ 64) : (putField word width lsb v).toNat =
      word.toNat - (word.toNat &&& (2 ^ width.toNat - 1) * 2 ^ lsb.toNat) + v * 2 ^ lsb.toNat := by
  rw [putField_toNat word width lsb v hv hg, replace_field]

/-- R85, R88. Inside the field stand the bits of a port value that agrees with the inserted number there, outside it
the word's. -/
theorem putField_getLsbD_of_testBit_eq (word val : U64) {width lsb : U7} {v : Nat} (hv : v < 2 ^ width.toNat)
    (hg : width.toNat + lsb.toNat ≤ 64) (hval : ∀ i < width.toNat, v.testBit i = val.getLsbD i) (i : Nat) :
    (putField word width lsb v).getLsbD i =
      if lsb.toNat ≤ i ∧ i < lsb.toNat + width.toNat then val.getLsbD (i - lsb.toNat) else word.getLsbD i := by
  rw [putField_getLsbD word width lsb v hv hg]
  split
  · exact hval _ (by omega)
  · rfl

/-- Settles O31: the geometry check, the unsigned fit check, then the field replaced by `uval`, as a number
(`putField_toNat_eq_sub_add`) and bit by bit. -/
theorem insertUnsignedReplacesTheField : Obligations.InsertUnsignedReplacesTheField := by
  refine fun word uval width lsb s => ⟨rfl, fun hs => ?_⟩
  have hfield : IsFieldCommand word width lsb uval (.insu word width lsb uval) := .inr (.inr (.inl rfl))
  refine ⟨hfield.exec_widthRange hs, hfield.exec_fieldRange hs, fun hg hover => ?_, fun hg hfits => ?_⟩
  · exact exec_insu_overflow hs hg ((fitsUnsigned_eq_false_iff uval width).mpr hover)
  · exact ⟨_, exec_insu_ok hs hg ((fitsUnsigned_iff uval width).mpr hfits), putField_toNat_eq_sub_add word hfits hg,
      putField_getLsbD_of_testBit_eq word uval hfits hg fun _ _ => rfl⟩

/-- Settles O32: the geometry check, the signed fit check, then the field replaced by `sval mod 2^width`, which is below
`2^width` (`twos_lt`) and has `sval`'s low bits (`twos_testBit`). -/
theorem insertSignedReplacesTheField : Obligations.InsertSignedReplacesTheField := by
  refine fun word sval width lsb s => ⟨rfl, fun hs => ?_⟩
  have hfield : IsFieldCommand word width lsb sval (.inss word width lsb sval) := .inr (.inr (.inr rfl))
  refine ⟨hfield.exec_widthRange hs, hfield.exec_fieldRange hs, fun hg hover => ?_, fun hg h1 hlo hhi => ?_⟩
  · exact exec_inss_overflow hs hg ((fitsSigned_eq_false_iff sval width).mpr hover)
  · have hlt := twos_lt sval.toInt width.toNat
    refine ⟨_, exec_inss_ok hs hg ((fitsSigned_iff sval width).mpr ⟨h1, hlo, hhi⟩), ?_,
      putField_getLsbD_of_testBit_eq word sval hlt hg (twos_testBit sval width.toNat (by omega))⟩
    have hmod : 0 ≤ sval.toInt % 2 ^ width.toNat := Int.emod_nonneg _ (by positivity)
    rw [putField_toNat_eq_sub_add word hlt hg]
    push_cast [Nat.cast_sub (Nat.and_le_left (n := word.toNat)), Int.toNat_of_nonneg hmod]
    rfl

end Sys2Proof.Machine
end

section
/-! PROOFS. The Codeword Unpacker (R136): its answer, and its six codes as the extractions of R83 and R84. -/

namespace Sys2Proof.Machine

/-- R136. From a clear latch `UNPACK` answers `OK` with the unpacked block, whatever the word. -/
theorem exec_unpack_ok {s : State} (hs : s.fatal = false) (word : U64) :
    exec (.unpack word) s = .next (s.answer (.ok (.qblock (unpack word)))) :=
  exec_of_rule_ok hs rfl

/-! ### An extraction loses nothing on the way to the block: extending the code gives it back -/

section
variable (word : U64)

theorem getu_eq_unpack_a : getu word 9 23 = .ok ((unpack word).a.setWidth 64) :=
  getu_setWidth word 9 23 9 rfl (by decide)

theorem gets_eq_unpack_b : gets word 5 18 = .ok ((unpack word).b.signExtend 64) :=
  gets_signExtend word 18 (by decide)

theorem gets_eq_unpack_c : gets word 5 13 = .ok ((unpack word).c.signExtend 64) :=
  gets_signExtend word 13 (by decide)

theorem gets_eq_unpack_d : gets word 5 8 = .ok ((unpack word).d.signExtend 64) :=
  gets_signExtend word 8 (by decide)

theorem getu_eq_unpack_pbIndex : getu word 4 4 = .ok ((unpack word).pbIndex.setWidth 64) :=
  getu_setWidth word 4 4 4 rfl (by decide)

theorem getu_eq_unpack_prIndex : getu word 4 0 = .ok ((unpack word).prIndex.setWidth 64) :=
  getu_setWidth word 4 0 4 rfl (by decide)

end

/-- Settles O49: the block answered is `unpack word` (`exec_unpack_ok`); each extraction is the extension of its code,
unsigned by `getu_setWidth` and signed by `gets_signExtend`; as bits the codes are those of `unpack_eq`. -/
theorem unpackCommand : Obligations.UnpackCommand := fun word _ =>
  ⟨rfl, fun hs => ⟨unpack word, exec_unpack_ok hs word, getu_eq_unpack_a word, gets_eq_unpack_b word,
    gets_eq_unpack_c word, gets_eq_unpack_d word, getu_eq_unpack_pbIndex word, getu_eq_unpack_prIndex word,
    unpack_eq word⟩⟩

end Sys2Proof.Machine
end

section
/-! PROOFS. The common prologue (R165) of a step with a presented command: (P1), (P2), then the command's own rule. -/

namespace Sys2Proof.Machine

/-- A presentable command that decodes carries values of its ports. -/
theorem wf_of_presentable {f : RealFmt} {p : Ports} {i : Instr} (hp : Input.presentable f (.command p) = true)
    (hd : decode p = .ok i) : i.wf f = true := by
  simpa only [Input.presentable, hd] using hp

section
variable {s : State} {p : Ports} {rest : List Input} (hinbox : s.inbox = .command p :: rest)
  (hadm : s.cfg.admissible = true)
include hinbox hadm

/-- R68. A step on a reserved `op` is a command whose own rule raises `ILLEGAL_OP`. -/
theorem step_of_reserved (hop : 17 ≤ p.op.toNat) :
    step s = command (.error (.fatal .illegalOp)) { s with inbox := rest } := by
  rw [step_of_inbox_command hinbox]
  exact runCommand_reserved hadm (decode_reserved hop)

/-- R165. A step on a presentable command of the table is its meaning, after the host's list has moved past it. -/
theorem step_of_decoded {i : Instr} (hd : decode p = .ok i) (hw : i.wf s.cfg.fmt = true) :
    step s = exec i { s with inbox := rest } := by
  rw [step_of_inbox_command hinbox, exec_eq_command]
  exact runCommand_decoded hadm hd hw

/-- R165. Whatever its `op`, a presentable command is stepped as the prologue (P1) and one result. -/
theorem exists_step_eq_command (hp : Input.presentable s.cfg.fmt (.command p) = true) :
    ∃ r, step s = command r { s with inbox := rest } := by
  rcases Nat.lt_or_ge p.op.toNat 17 with hlt | hge
  · obtain ⟨i, hd⟩ := exists_decode_eq_ok (Nat.le_of_lt_succ hlt)
    exact ⟨_, (step_of_decoded hinbox hadm hd (wf_of_presentable hp hd)).trans (exec_eq_command i _)⟩
  · exact ⟨_, step_of_reserved hinbox hadm hge⟩

end

/-- Settles O10: every presentable command is the prologue and one result (`exists_step_eq_command`), so a set latch
answers its own cause (P1). With the latch clear a reserved `op` raises `ILLEGAL_OP` (P2, `step_of_reserved`), and every
other `op` decodes to a command whose meaning the step is (`step_of_decoded`). -/
theorem commonPrologue : Obligations.CommonPrologue := by
  intro s p rest hinbox hadm hp
  refine ⟨fun hs => ?_, fun hs hop => ?_, fun _ hop => ?_⟩
  · obtain ⟨r, hstep⟩ := exists_step_eq_command hinbox hadm hp
    exact hstep.trans (command_latched (s := { s with inbox := rest }) hs r)
  · exact (step_of_reserved hinbox hadm hop).trans (command_clear (s := { s with inbox := rest }) hs _)
  · obtain ⟨i, hd⟩ := exists_decode_eq_ok hop
    exact ⟨i, hd, step_of_decoded hinbox hadm hd (wf_of_presentable hp hd)⟩

end Sys2Proof.Machine
end

section
/-! PROOFS. Reset and hazards: what a reset edge discards and what only it clears (R185). -/

namespace Sys2Proof.Machine

/-- R161. A presented command that goes on under the latch only adds its answer, the first cause. -/
theorem eq_answer_of_runCommand_latched {p : Ports} {s t : State} (hs : s.fatal = true)
    (h : runCommand p s = .next t) : t = s.answer (.fatal s.cause) := by
  rcases runCommand_next_cases h with ⟨-, ht⟩ | ⟨hclear, -⟩ | ⟨hclear, -⟩ | ⟨hclear, -⟩
  · exact ht
  all_goals exact absurd hs (by simp [hclear])

/-- R161, R185. An edge without reset keeps a set latch and its cause. -/
theorem edgeWith_keeps_latch {lat : Ports → Nat} {e : EdgeIn} {l m : Link} (hrst : e.rst = false)
    (hl : l.core.fatal = true) (h : edgeWith lat e l = .next m) :
    m.core.fatal = true ∧ m.core.cause = l.core.cause := by
  rcases edge_cases h with ⟨hreset, -⟩ | ⟨-, p, t, hrun, rfl⟩ | ⟨-, hcore, -⟩
  · exact absurd hreset (by simp [hrst])
  · rw [eq_answer_of_runCommand_latched hl hrun]
    exact ⟨hl, rfl⟩
  · rw [hcore]
    exact ⟨hl, rfl⟩

/-- Settles O23: a reset edge leaves the reset state with nothing in flight and nothing delivered (`edgeWith_of_rst`),
from where edges without a command deliver nothing (`edges_idle`). Any other edge keeps a set latch
(`edgeWith_keeps_latch`). -/
theorem resetEdgeDiscardsTheCommandInFlight : Obligations.ResetEdgeDiscardsTheCommandInFlight := by
  refine fun lat l e => ⟨fun hrst => ?_, fun hrst hl _ => edgeWith_keeps_latch hrst hl⟩
  exact ⟨_, edgeWith_of_rst lat l hrst, doReset_fatal _, doReset_cause _, rfl, rfl, rfl, doReset_rsps _, doReset_cfg _,
    fun es hquiet => edges_idle lat es ⟨l.core.doReset, none, none⟩ rfl rfl hquiet⟩

end Sys2Proof.Machine
end

section
/-! PROOFS. Encoding (R65, R66): decoding and encoding undo each other, and what a decoded command says of the ports it
was read from. -/

namespace Sys2Proof.Machine

/-- R65, R66. A command is read back from the ports that present it. -/
@[simp] theorem decode_encode (i : Instr) : decode (encode i) = .ok i := by cases i <;> rfl

/-- R65. A command is presented on its own `op`. -/
@[simp] theorem encode_op (i : Instr) : (encode i).op = i.op := by cases i <;> rfl

/-- R65. The command read is the one of the number on the `op` port. -/
theorem op_of_decode {p : Ports} {i : Instr} (h : decode p = .ok i) : i.op = p.op := by
  unfold decode at h
  split at h <;> cases h
  all_goals (apply BitVec.eq_of_toNat_eq; rename_i hop; exact hop.symm)

/-- R66. A command is presented with the values it was read with, on the ports its row lists. -/
theorem agreesOn_encode {p : Ports} {i : Instr} (h : decode p = .ok i) : agreesOn i p (encode i) := by
  unfold decode at h
  split at h <;> cases h
  all_goals simp [agreesOn, encode]

/-- Settles O1: command by command, decoding reads back what encoding puts on the ports (`decode_encode`); a command
read has the `op` of its ports (`op_of_decode`) and their values on its row's ports (`agreesOn_encode`). -/
theorem decodeAndEncodeAgree : Obligations.DecodeAndEncodeAgree :=
  ⟨decode_encode, fun _ i h => ⟨(encode_op i).trans (op_of_decode h), agreesOn_encode h⟩⟩

/-- Settles O2, by `decode_of_agreesOn`. -/
theorem decodeReadsOnlyTheListedPorts : Obligations.DecodeReadsOnlyTheListedPorts :=
  fun _ _ _ => decode_of_agreesOn

/-- Settles O3: up to 16 a command is read (`exists_decode_eq_ok`) and it is the one of that number (`op_of_decode`);
from 17 on the decoder rejects the `op` (`decode_reserved`). -/
theorem everyOpSelectsACommandOrIsReserved : Obligations.EveryOpSelectsACommandOrIsReserved := by
  refine fun p => ⟨fun hop => ?_, decode_reserved⟩
  obtain ⟨i, hd⟩ := exists_decode_eq_ok hop
  exact ⟨i, hd, op_of_decode hd⟩

/-- Settles O4: eight closed words, each decoded by evaluation. -/
theorem writtenOpWordsDecode : Obligations.WrittenOpWordsDecode :=
  ⟨rfl, rfl, rfl, rfl, rfl, rfl, rfl, rfl⟩

end Sys2Proof.Machine
end

section
/-! PROOFS. The step (R7, R14, R24, R29, R163): what it runs, where it stops, its frame, and the legal values of
`STATUS`. -/

namespace Sys2Proof.Machine

/-- R182. With nothing presented the block idles. -/
theorem step_of_inbox_nil {s : State} (h : s.inbox = []) : step s = .next s := by
  simp [step, takeInput, h]

/-- R185. A step on a reset takes it off the host's list and clears `STATUS`. -/
theorem step_of_inbox_reset {s : State} {rest : List Input} (h : s.inbox = .reset :: rest) :
    step s = .next { s with inbox := rest, fatal := false, cause := 0 } := by
  simp [step, takeInput, h, State.doReset]

/-- Settles O5, by `step_of_decoded`. -/
theorem stepRunsTheDecodedCommand : Obligations.StepRunsTheDecodedCommand :=
  fun _ _ _ _ hinbox hadm hd hw => step_of_decoded hinbox hadm hd hw

/-- Settles O6, by `step_of_inbox_nil` and `step_of_inbox_reset`. -/
theorem stepIdlesAndResets : Obligations.StepIdlesAndResets :=
  ⟨fun _ => step_of_inbox_nil, fun _ _ => step_of_inbox_reset⟩

/-- R14. A step that does not go on runs a presented command: idling and a reset go on. -/
theorem exists_command_of_step_stops {s : State} (h : ∀ t, step s ≠ .next t) :
    ∃ p rest, s.inbox = .command p :: rest ∧ step s = runCommand p { s with inbox := rest } := by
  rcases step_cases s with ⟨-, e⟩ | ⟨_, -, e⟩ | hcommand
  · exact absurd e (h _)
  · exact absurd e (h _)
  · exact hcommand

/-- A presented command faults only on an operand of no port (log entry 8). -/
theorem not_wf_of_runCommand_fault {p : Ports} {s : State} {r : Fault} (h : runCommand p s = .fault r) :
    ∃ i, decode p = .ok i ∧ i.wf s.cfg.fmt = false := by
  rcases runCommand_cases p s with ⟨-, e⟩ | ⟨-, _, -, e⟩ | ⟨-, i, -, -, e⟩ | ⟨-, i, hd, hw, -⟩
  · simp [e] at h
  · simp [e] at h
  · simp [e, exec_eq] at h
  · exact ⟨i, hd, hw⟩

/-- A presented command is refused only under an inadmissible table (log entry 7). -/
theorem not_admissible_of_runCommand_refused {p : Ports} {s : State} {r : Refusal} (h : runCommand p s = .refused r) :
    s.cfg.admissible = false := by
  rcases runCommand_cases p s with ⟨hadm, -⟩ | ⟨-, _, -, e⟩ | ⟨-, i, -, -, e⟩ | ⟨-, _, -, -, e⟩
  · exact hadm
  · simp [e] at h
  · simp [e, exec_eq] at h
  · simp [e] at h

/-- Settles O7: only a presented command stops (`exists_command_of_step_stops`), by a fault on an operand of no port
(`not_wf_of_runCommand_fault`) or by a refusal under an inadmissible table (`not_admissible_of_runCommand_refused`). -/
theorem stepStopsOnlyWhereNoHardwareIs : Obligations.StepStopsOnlyWhereNoHardwareIs := by
  refine ⟨fun s ⟨r, hr⟩ => ?_, fun s ⟨r, hr⟩ => ?_⟩
  · obtain ⟨p, rest, hinbox, e⟩ := exists_command_of_step_stops (s := s) (by simp [hr])
    obtain ⟨i, hd, hw⟩ := not_wf_of_runCommand_fault (e ▸ hr)
    exact ⟨p, rest, i, hinbox, hd, hw⟩
  · obtain ⟨p, rest, hinbox, e⟩ := exists_command_of_step_stops (s := s) (by simp [hr])
    exact ⟨p, rest, hinbox, not_admissible_of_runCommand_refused (s := { s with inbox := rest }) (e ▸ hr)⟩

/-- Everything a step that goes on can do: idle, reset, or run the presented command. -/
theorem step_next_cases {s t : State} (h : step s = .next t) :
    (s.inbox = [] ∧ t = s) ∨
    (∃ rest, s.inbox = .reset :: rest ∧ t = { s with inbox := rest, fatal := false, cause := 0 }) ∨
    ∃ p rest, s.inbox = .command p :: rest ∧ runCommand p { s with inbox := rest } = .next t := by
  rcases step_cases s with ⟨hinbox, e⟩ | ⟨rest, hinbox, e⟩ | ⟨p, rest, hinbox, e⟩
  · exact .inl ⟨hinbox, by simpa [e] using h.symm⟩
  · exact .inr (.inl ⟨rest, hinbox, by simpa [e] using h.symm⟩)
  · exact .inr (.inr ⟨p, rest, hinbox, e ▸ h⟩)

/-- R47, R160. A presented command that goes on adds one response and leaves the configuration and the host's list. -/
theorem runCommand_frame {p : Ports} {s t : State} (h : runCommand p s = .next t) :
    t.cfg = s.cfg ∧ t.inbox = s.inbox ∧ ∃ r, t.rsps = s.rsps ++ [r] := by
  rcases runCommand_next_cases h with ⟨-, rfl⟩ | ⟨-, _, rfl⟩ | ⟨-, rfl⟩ | ⟨-, _, rfl⟩ <;> exact ⟨rfl, rfl, _, rfl⟩

/-- Settles O17: idling keeps the state, a reset takes its action only, and a command adds its response to the state
past it (`runCommand_frame`). -/
theorem stepFrame : Obligations.StepFrame := by
  intro s t h
  rcases step_next_cases h with ⟨hinbox, rfl⟩ | ⟨rest, hinbox, rfl⟩ | ⟨p, rest, hinbox, hrun⟩
  · simp [hinbox]
  · simp [hinbox]
  · obtain ⟨hcfg, hrest, r, hrsps⟩ := runCommand_frame hrun
    exact ⟨hcfg, by simp [hinbox, hrest], .inr ⟨r, hrsps⟩, by simp [hinbox, hrsps]⟩

/-- Settles O13: a command under the latch only adds its answer (`eq_answer_of_runCommand_latched`), so what clears the
latch is a reset. -/
theorem onlyResetClearsTheLatch : Obligations.OnlyResetClearsTheLatch := by
  intro s t hs h
  rcases step_next_cases h with ⟨-, rfl⟩ | ⟨rest, hinbox, rfl⟩ | ⟨p, rest, -, hrun⟩
  · exact .inl ⟨hs, rfl⟩
  · exact .inr ⟨⟨rest, hinbox⟩, rfl, rfl⟩
  · rw [eq_answer_of_runCommand_latched (s := { s with inbox := rest }) hs hrun]
    exact .inl ⟨hs, rfl⟩

/-- R163. Every cause is a legal one. -/
@[simp] theorem statusLegal_code (c : Cause) : statusLegal true c.code = true := by cases c <;> rfl

/-- R24, R163. A presented command keeps `STATUS` legal. -/
theorem statusLegal_of_runCommand {p : Ports} {s t : State} (hs : statusLegal s.fatal s.cause = true)
    (h : runCommand p s = .next t) : statusLegal t.fatal t.cause = true := by
  rcases runCommand_next_cases h with ⟨-, rfl⟩ | ⟨-, _, rfl⟩ | ⟨-, rfl⟩ | ⟨-, c, rfl⟩
  · exact hs
  · exact hs
  · exact hs
  · exact statusLegal_code c

/-- Settles O14: idling keeps `STATUS`, a reset clears it, and a command keeps it legal
(`statusLegal_of_runCommand`). -/
theorem stepKeepsStatusLegal : Obligations.StepKeepsStatusLegal := by
  intro s t hs h
  rcases step_next_cases h with ⟨-, rfl⟩ | ⟨rest, -, rfl⟩ | ⟨p, rest, -, hrun⟩
  · exact hs
  · rfl
  · exact statusLegal_of_runCommand (s := { s with inbox := rest }) hs hrun

/-- Settles O9: the bits of an append, and closed codes. -/
theorem statusBitsAndCodes : Obligations.StatusBitsAndCodes := by
  refine ⟨fun s => ⟨?_, ?_, rfl, rfl⟩, fun _ => rfl, rfl, fun _ => rfl, rfl, rfl, rfl, rfl, rfl⟩
  · rw [State.status, BitVec.getLsbD_append]
    simp
  · ext i hi
    rw [BitVec.getElem_extractLsb', State.status, BitVec.getLsbD_append]
    simp [BitVec.getLsbD_eq_getElem hi]

end Sys2Proof.Machine
end

section
/-! PROOFS. The machine's invariant (R24, R28, R163): under every `REAL_FMT` a command answers values of the format. -/

namespace Sys2Proof.Machine

/-- A result handed through a payload constructor. -/
theorem exists_of_map_eq_ok {α : Type} {F : α → Payload} {x : Except CmdErr α} {p : Payload} (h : F <$> x = .ok p) :
    ∃ v, x = .ok v ∧ p = F v := by
  cases x with
  | error e => cases h
  | ok v => cases h; exact ⟨v, rfl, rfl⟩

/-! ### Each operation's result is a value of the format -/

theorem ofFormat_freeReal (f : RealFmt) (free : Nat → BitVec 64) (slot : Nat) :
    Reals.isOfFormat f (freeReal f free slot) = true := Reals.ofBits_ofFormat f _

/-- The divisors the rules write are nonzero, and under `exact` a dividend of the format is a rational. -/
theorem ofFormat_div {f : RealFmt} {x : RealVal} {c : Rat} (hc : c ≠ 0) (h : Reals.isOfFormat f x = true) :
    Reals.isOfFormat f (Reals.div f x (.num c)) = true :=
  Reals.div_ofFormat hc fun hf => Reals.exact_num (hf ▸ h)

theorem ofFormat_normalize (f : RealFmt) (v : U8) {mv : U8} (h : mv ≠ 0) :
    Reals.isOfFormat f (normalize f v mv) = true := by
  have hne : ((mv.toNat : Int) : Rat) ≠ 0 := by
    exact_mod_cast fun e : mv.toNat = 0 => h (BitVec.eq_of_toNat_eq (by simpa using e))
  exact Reals.div_ofFormat hne fun _ => ⟨_, rfl⟩

theorem ofFormat_applyRow {f : RealFmt} (m : Row3) {x y z : RealVal} (hx : Reals.isOfFormat f x = true)
    (hy : Reals.isOfFormat f y = true) (hz : Reals.isOfFormat f z = true) :
    Reals.isOfFormat f (applyRow f m x y z) = true :=
  have hlit := Reals.lit_ofFormat f
  Reals.add_ofFormat (Reals.add_ofFormat (Reals.mul_ofFormat (hlit _) hx) (Reals.mul_ofFormat (hlit _) hy))
    (Reals.mul_ofFormat (hlit _) hz)

theorem ofFormat_lumaChroma (c : Config) (px : Pixel) {mv : U8} (h : mv ≠ 0) :
    (Payload.ypp (lumaChroma c px mv)).ofFormat c.fmt = true := by
  have hn := fun v => ofFormat_normalize c.fmt v h
  simp [Payload.ofFormat, lumaChroma, ofFormat_applyRow _ (hn _) (hn _) (hn _)]

theorem ofFormat_blkfwdOf (c : Config) {y : Quad RealVal} (hy : y.ofFormat c.fmt = true) :
    (blkfwdOf c y).ofFormat c.fmt = true := by
  simp only [Quad.ofFormat, Bool.and_eq_true] at hy
  obtain ⟨⟨⟨h0, h1⟩, h2⟩, h3⟩ := hy
  have hdiv {x} := ofFormat_div (f := c.fmt) (x := x) (c := 4) (by norm_num)
  unfold blkfwdOf blkfwdAny
  split
  · have hsum := Reals.add_ofFormat h3 h2
    have hdiff := Reals.sub_ofFormat h3 h2
    simp only [Coef.ofFormat, blkfwd, Bool.and_eq_true]
    exact ⟨⟨⟨hdiv (Reals.add_ofFormat (Reals.add_ofFormat hsum h1) h0),
      hdiv (Reals.sub_ofFormat (Reals.sub_ofFormat hsum h1) h0)⟩,
      hdiv (Reals.sub_ofFormat (Reals.add_ofFormat hdiff h1) h0)⟩,
      hdiv (Reals.add_ofFormat (Reals.sub_ofFormat hdiff h1) h0)⟩
  · simp [Coef.ofFormat, ofFormat_freeReal]

theorem ofFormat_blkinvOf (c : Config) {k : Coef} (hk : k.ofFormat c.fmt = true) :
    (blkinvOf c k).ofFormat c.fmt = true := by
  simp only [Coef.ofFormat, Bool.and_eq_true] at hk
  obtain ⟨⟨⟨ha, hb⟩, hc⟩, hd⟩ := hk
  unfold blkinvOf blkinvAny
  split
  · have hsum := Reals.add_ofFormat ha hb
    have hdiff := Reals.sub_ofFormat ha hb
    simp only [Quad.ofFormat, blkinv, Bool.and_eq_true]
    exact ⟨⟨⟨Reals.add_ofFormat (Reals.sub_ofFormat hdiff hc) hd, Reals.sub_ofFormat (Reals.add_ofFormat hdiff hc) hd⟩,
      Reals.sub_ofFormat (Reals.sub_ofFormat hsum hc) hd⟩, Reals.add_ofFormat (Reals.add_ofFormat hsum hc) hd⟩
  · simp [Quad.ofFormat, ofFormat_freeReal]

theorem ofFormat_mean {f : RealFmt} {v : Quad RealVal} (hv : v.ofFormat f = true) :
    Reals.isOfFormat f (mean f v) = true := by
  simp only [Quad.ofFormat, Bool.and_eq_true] at hv
  obtain ⟨⟨⟨h0, h1⟩, h2⟩, h3⟩ := hv
  exact ofFormat_div (by norm_num) (Reals.add_ofFormat (Reals.add_ofFormat (Reals.add_ofFormat h0 h1) h2) h3)

theorem ofFormat_cavgOf (c : Config) {pb pr : Quad RealVal} (hpb : pb.ofFormat c.fmt = true)
    (hpr : pr.ofFormat c.fmt = true) : (Payload.chromaMean (cavgOf c pb pr)).ofFormat c.fmt = true := by
  unfold cavgOf cavgAny
  split
  · simp [Payload.ofFormat, cavg, ofFormat_mean hpb, ofFormat_mean hpr]
  · simp [Payload.ofFormat, ofFormat_freeReal]

theorem ofFormat_dequantG (f : RealFmt) (code : S5) : Reals.isOfFormat f (dequantG f code) = true := by
  have hne : ((Params.gMax : Int) : Rat) ≠ 0 := by norm_num [Params.gMax]
  refine Reals.div_ofFormat hne ?_
  rintro rfl
  exact ⟨_, Reals.mul_exact _ _⟩

theorem ofFormat_dequantCoef (f : RealFmt) (q : QBlock) : (dequantCoef f q).ofFormat f = true := by
  have hne : ((Params.aMax : Int) : Rat) ≠ 0 := by norm_num [Params.aMax]
  have ha : Reals.isOfFormat f (dequantCoef f q).a = true := Reals.div_ofFormat hne fun _ => ⟨_, rfl⟩
  simp only [Coef.ofFormat, Bool.and_eq_true]
  exact ⟨⟨⟨ha, ofFormat_dequantG f q.b⟩, ofFormat_dequantG f q.c⟩, ofFormat_dequantG f q.d⟩

/-- R28. With operands of the format, every real value a rule answers is one too. -/
theorem ofFormat_of_rule {c : Config} {i : Instr} {p : Payload} (hw : i.wf c.fmt = true) (h : rule c i = .ok p) :
    p.ofFormat c.fmt = true := by
  cases i with
  | fitsu | fitss | getu | gets | insu | inss | ypp2rgb | pack | encblk | decblk =>
    obtain ⟨v, -, rfl⟩ := exists_of_map_eq_ok h
    rfl
  | rgb2ypp px mv =>
    obtain ⟨v, hv, rfl⟩ := exists_of_map_eq_ok h
    by_cases hmv : mv = 0
    · subst hmv; cases hv
    · rw [rgb2ypp_ok c px hmv] at hv
      cases hv
      exact ofFormat_lumaChroma c px hmv
  | blkfwd y => cases h; exact ofFormat_blkfwdOf c hw
  | blkinv k => cases h; exact ofFormat_blkinvOf c hw
  | cavg pb pr =>
    cases h
    simp only [Instr.wf, Bool.and_eq_true] at hw
    exact ofFormat_cavgOf c hw.1 hw.2
  | qfwd | unpack => cases h; rfl
  | qinv q =>
    cases h
    simp [Payload.ofFormat, ofFormat_dequantCoef, dequantChroma, Config.entry, Reals.lit_ofFormat]

/-! ### The step keeps the invariant -/

theorem State.inv_iff (s : State) :
    s.inv = true ↔ statusLegal s.fatal s.cause = true ∧ ∀ r ∈ s.rsps, r.legal s.cfg.fmt = true := by
  simp [State.inv]

/-- R24, R28, R163. A response added to a state with the invariant is legal where it is the latched cause, an
overflow, or a result of the format. -/
theorem inv_answer {s : State} {r : Rsp} (hs : s.inv = true) (hr : r.legal s.cfg.fmt = true) :
    (s.answer r).inv = true := by
  simp_all [State.inv]

theorem inv_raiseFatal {s : State} (hs : s.inv = true) (c : Cause) : (raiseFatal c s).inv = true := by
  simp_all [State.inv, Rsp.legal]

/-- A command keeps the invariant where the values its rule answers are of the format. -/
theorem inv_of_command {s t : State} {r : Except CmdErr Payload} (hs : s.inv = true)
    (hr : ∀ p, r = .ok p → p.ofFormat s.cfg.fmt = true) (h : command r s = .next t) : t.inv = true := by
  cases hf : s.fatal with
  | true =>
    rw [command_latched hf] at h
    cases h
    have hlegal := (s.inv_iff.mp hs).1
    rw [hf] at hlegal
    exact inv_answer hs hlegal
  | false =>
    rw [command_clear hf] at h
    cases h
    rcases finish_cases r s with ⟨p, hp, e⟩ | ⟨-, e⟩ | ⟨c, -, e⟩ <;> rw [e]
    · exact inv_answer hs (hr p hp)
    · exact inv_answer hs rfl
    · exact inv_raiseFatal hs c

theorem inv_of_runCommand {p : Ports} {s t : State} (hs : s.inv = true) (h : runCommand p s = .next t) :
    t.inv = true := by
  rcases runCommand_cases p s with ⟨-, e⟩ | ⟨hadm, _, hd, -⟩ | ⟨hadm, i, hd, hw, -⟩ | ⟨-, _, -, -, e⟩
  · simp [e] at h
  · rw [runCommand_reserved hadm hd] at h
    exact inv_of_command hs (by simp) h
  · rw [runCommand_decoded hadm hd hw] at h
    exact inv_of_command hs (fun _ => ofFormat_of_rule hw) h
  · simp [e] at h

/-- Settles O15: idling keeps the state, a reset keeps the responses and clears `STATUS`, and a command adds a legal
response (`inv_of_runCommand`), the values of its rule being of the format (`ofFormat_of_rule`). -/
theorem stepKeepsInvariant : Obligations.StepKeepsInvariant := by
  intro s t hs h
  rcases step_next_cases h with ⟨-, rfl⟩ | ⟨rest, -, rfl⟩ | ⟨p, rest, -, hrun⟩
  · exact hs
  · rw [State.inv_iff] at hs ⊢
    exact ⟨rfl, hs.2⟩
  · exact inv_of_runCommand (s := { s with inbox := rest }) hs hrun

/-- Settles O16: a fixed state and a fixed table, evaluated. -/
theorem resetMeetsTheInvariants : Obligations.ResetMeetsTheInvariants := ⟨rfl, by decide +kernel⟩

end Sys2Proof.Machine
end

section
/-! PROOFS. Runs over the host's actions (R161, R194), and several instances (R53). -/

namespace Sys2Proof.Machine

/-- R190. A presentable command is answered under an admissible table. -/
theorem exists_runCommand_next {p : Ports} {s : State} (hadm : s.cfg.admissible = true)
    (hp : Input.presentable s.cfg.fmt (.command p) = true) : ∃ t, runCommand p s = .next t := by
  rcases runCommand_cases p s with ⟨h, -⟩ | ⟨-, _, -, e⟩ | ⟨-, i, -, -, e⟩ | ⟨-, i, hd, hw, -⟩
  · simp [h] at hadm
  · exact ⟨_, e⟩
  · exact ⟨_, e.trans (exec_eq i s)⟩
  · simp [wf_of_presentable hp hd] at hw

/-- Settles O19, by induction on the host's list: a step takes its first action, keeps the configuration, and adds a
response exactly for a command (`runCommand_frame`). -/
theorem everyCommandOfARunIsAnswered : Obligations.EveryCommandOfARunIsAnswered := by
  intro s hadm hall
  induction hl : s.inbox generalizing s with
  | nil => exact ⟨s, rfl, hl, [], by simp, rfl⟩
  | cons x rest ih =>
    rw [hl, List.all_cons, Bool.and_eq_true] at hall
    obtain ⟨hx, hrest⟩ := hall
    cases x with
    | reset =>
      obtain ⟨t, hrun, hnil, new, hrsps, hlen⟩ :=
        ih { s with inbox := rest, fatal := false, cause := 0 } hadm hrest rfl
      exact ⟨t, (run_next (step_of_inbox_reset hl)).trans hrun, hnil, new, hrsps, hlen⟩
    | command p =>
      obtain ⟨u, hu⟩ := exists_runCommand_next (s := { s with inbox := rest }) hadm hx
      obtain ⟨hcfg, hinbox, r, hr⟩ := runCommand_frame hu
      obtain ⟨t, hrun, hnil, new, hrsps, hlen⟩ :=
        ih u (by rw [hcfg]; exact hadm) (by rw [hcfg, hinbox]; exact hrest) hinbox
      refine ⟨t, (run_next ((step_of_inbox_command hl).trans hu)).trans hrun, hnil, r :: new, ?_, ?_⟩
      · rw [hrsps, hr, List.append_assoc]; rfl
      · simp [commandCount, hlen]

/-- Settles O20, by induction on the host's list: a command under the latch only adds its answer, the first cause
(`eq_answer_of_runCommand_latched`). -/
theorem latchedRunAnswersOnlyFatal : Obligations.LatchedRunAnswersOnlyFatal := by
  intro s hs hadm hall hno
  induction hl : s.inbox generalizing s with
  | nil => exact ⟨s, rfl, hs, rfl, by simp⟩
  | cons x rest ih =>
    rw [hl, List.all_cons, Bool.and_eq_true] at hall
    rw [hl] at hno
    obtain ⟨hx, hrest⟩ := hall
    cases x with
    | reset => exact absurd rfl (hno _ List.mem_cons_self)
    | command p =>
      obtain ⟨u, hu⟩ := exists_runCommand_next (s := { s with inbox := rest }) hadm hx
      obtain rfl := eq_answer_of_runCommand_latched (s := { s with inbox := rest }) hs hu
      obtain ⟨t, hrun, hfatal, hcause, hrsps⟩ := ih ({ s with inbox := rest }.answer (.fatal s.cause)) hs hadm hrest
        (fun y hy => hno y (List.mem_cons_of_mem _ hy)) rfl
      refine ⟨t, (run_next ((step_of_inbox_command hl).trans hu)).trans hrun, hfatal, hcause, ?_⟩
      rw [hrsps, answer_rsps, List.append_assoc]
      rfl

/-- What a turn of one block of the bank makes of its state: its step, or nothing where the step stops (log entry 15). -/
def stepOrStay (s : State) : State :=
  match step s with
  | .next t => t
  | .fault _ => s
  | .refused _ => s

theorem stepOrStay_of_next {s t : State} (h : step s = .next t) : stepOrStay s = t := by simp [stepOrStay, h]

theorem stepOrStay_of_stops {s : State} (h : ∀ t, step s ≠ .next t) : stepOrStay s = s := by
  unfold stepOrStay
  split
  · exact absurd ‹_› (h _)
  · rfl
  · rfl

/-- R53. The turn of the block at `k` changes that place of the bank and no other. -/
theorem stepInstance_eq_modify (k : Nat) (bank : List State) : stepInstance k bank = bank.modify k stepOrStay := by
  rw [List.modify_eq_set_getElem?, stepInstance]
  cases hk : bank[k]? with
  | none => rfl
  | some s =>
    have hset : bank.set k s = bank := by
      obtain ⟨_, rfl⟩ := List.getElem?_eq_some_iff.mp hk
      exact List.set_getElem_self _
    cases hs : step s <;> simp [stepOrStay, hs, hset]

/-- Settles O21: the turn of one block is a modification at its place (`stepInstance_eq_modify`), by the block's own step
(`stepOrStay_of_next`); modifications at two places commute. -/
theorem instancesDoNotInterfere : Obligations.InstancesDoNotInterfere := by
  intro bank j k
  simp only [stepInstance_eq_modify, List.length_modify]
  refine ⟨fun s t hk h => ?_, fun s hk h => ?_, trivial, fun hjk => ⟨?_, ?_⟩⟩
  · rw [List.getElem?_modify, hk]
    simp [stepOrStay_of_next h]
  · obtain ⟨_, rfl⟩ := List.getElem?_eq_some_iff.mp hk
    rw [List.modify_eq_set_getElem?, hk]
    simp [stepOrStay_of_stops h]
  · exact List.getElem?_modify_ne _ _ hjk
  · exact List.modify_modify_ne _ _ _ hjk.symm

end Sys2Proof.Machine
end

section
/-! PROOFS. The handshake (R190, R191, R193): a command accepted by an idle block waits its latency and is answered. -/

namespace Sys2Proof.Machine

section
variable {lat : Ports → Nat} {s t : State} {p : Ports} {e : EdgeIn} {es : List EdgeIn}

/-- A sequence of edges goes on where its first part ended. -/
theorem runEdges_append_of_next {l m : Link} (h : runEdges lat es l = .next m) (fs : List EdgeIn) :
    runEdges lat (es ++ fs) l = runEdges lat fs m := by
  induction es generalizing l with
  | nil => cases h; rfl
  | cons e es ih =>
    simp only [runEdges, List.cons_append] at h ⊢
    cases he : edgeWith lat e l with
    | next l' => simp only [he] at h ⊢; exact ih h
    | fault r => simp [he] at h
    | refused r => simp [he] at h

theorem runEdges_cons_of_next {l m : Link} (h : edgeWith lat e l = .next m) (es : List EdgeIn) :
    runEdges lat (e :: es) l = runEdges lat es m := by simp [runEdges, h]

/-- R193. An edge without reset brings a waiting command one edge nearer to its answer. -/
theorem edgeWith_waiting (he : e.rst = false) (n : Nat) (r : Option Rsp) :
    edgeWith lat e ⟨s, some ⟨p, n + 1⟩, r⟩ = .next ⟨s, some ⟨p, n⟩, none⟩ := by simp [edgeWith, he]

/-- R191. At the end of its latency the command is executed and answered. -/
theorem edgeWith_answers (he : e.rst = false) (h : runCommand p s = .next t) (r : Option Rsp) :
    edgeWith lat e ⟨s, some ⟨p, 0⟩, r⟩ = .next ⟨t, none, t.rsps.getLast?⟩ := by simp [edgeWith, he, deliver, h]

/-- R190. An idle block with no command presented stays idle. -/
theorem edgeWith_idle (he : e.rst = false) (hv : e.cmdValid = false) (r : Option Rsp) :
    edgeWith lat e ⟨s, none, r⟩ = .next ⟨s, none, none⟩ := by simp [edgeWith, he, hv]

/-- R190, R193. An idle block accepts the command presented; one of latency 0 is answered at the same edge. -/
theorem edgeWith_accepts (he : e.rst = false) (hv : e.cmdValid = true) {n : Nat} (hn : lat e.ports = n + 1)
    (r : Option Rsp) : edgeWith lat e ⟨s, none, r⟩ = .next ⟨s, some ⟨e.ports, n⟩, none⟩ := by
  simp [edgeWith, he, hv, hn]

theorem edgeWith_accepts_and_answers (he : e.rst = false) (hv : e.cmdValid = true) (hn : lat e.ports = 0)
    (h : runCommand e.ports s = .next t) (r : Option Rsp) :
    edgeWith lat e ⟨s, none, r⟩ = .next ⟨t, none, t.rsps.getLast?⟩ := by
  simp [edgeWith, he, hv, hn, deliver, h]

/-- R190, R193. Before its latency is over a command in flight stays in flight and nothing is delivered. -/
theorem runEdges_waiting (hes : ∀ x ∈ es, x.rst = false) {n : Nat} (hn : es.length ≤ n) :
    runEdges lat es ⟨s, some ⟨p, n⟩, none⟩ = .next ⟨s, some ⟨p, n - es.length⟩, none⟩ := by
  induction es generalizing n with
  | nil => rfl
  | cons e es ih =>
    rw [List.forall_mem_cons] at hes
    rw [List.length_cons] at hn
    obtain ⟨m, rfl⟩ : ∃ m, n = m + 1 := ⟨n - 1, by omega⟩
    rw [runEdges_cons_of_next (edgeWith_waiting hes.1 m none), ih hes.2 (by omega), List.length_cons,
      Nat.add_sub_add_right]

/-- R193. From acceptance on, the command is answered when exactly its latency has passed. -/
theorem runEdges_answers {l : Link} (hl : l.flight = none) (he : e.rst = false) (hv : e.cmdValid = true)
    (hes : ∀ x ∈ es, x.rst = false) (h : runCommand e.ports l.core = .next t) (hlen : es.length = lat e.ports) :
    runEdges lat (e :: es) l = .next ⟨t, none, t.rsps.getLast?⟩ := by
  obtain ⟨s, _, r⟩ := l
  cases hl
  rcases List.eq_nil_or_concat' es with rfl | ⟨es, x, rfl⟩
  · rw [runEdges_cons_of_next (edgeWith_accepts_and_answers he hv hlen.symm h r)]
    rfl
  · rw [List.length_append, List.length_singleton] at hlen
    have hw := runEdges_waiting (lat := lat) (s := s) (p := e.ports) (es := es)
      (fun y hy => hes y (by simp [hy])) (Nat.le_refl _)
    rw [Nat.sub_self] at hw
    rw [runEdges_cons_of_next (edgeWith_accepts he hv hlen.symm r), runEdges_append_of_next hw,
      runEdges_cons_of_next (edgeWith_answers (hes x (by simp)) h none)]
    rfl

end

/-- Settles O22: the command is answered at the end of its latency (`runEdges_answers`) and waits before it
(`runEdges_waiting`); at the next edge the block is idle again, or has a command of another latency than 0 in flight. -/
theorem acceptedCommandIsAnsweredAfterLatency : Obligations.AcceptedCommandIsAnsweredAfterLatency := by
  intro lat l e es t hl he hv hes h
  refine ⟨fun hlen => ?_, fun hlen => ?_⟩
  · have hrun := runEdges_answers hl he hv hes h hlen
    obtain ⟨r, hr⟩ := runCommand_rsps h
    refine ⟨⟨hrun, by simp [hr]⟩, fun x hx hxv => ?_, fun x hx hlat => ?_⟩
    · rw [runEdges_append_of_next hrun, runEdges_cons_of_next (edgeWith_idle hx hxv _)]
      rfl
    · rw [runEdges_append_of_next hrun]
      obtain ⟨n, hn⟩ := Nat.exists_eq_succ_of_ne_zero hlat
      cases hxv : x.cmdValid with
      | false => exact ⟨_, runEdges_cons_of_next (edgeWith_idle hx hxv _) [], rfl, rfl⟩
      | true => exact ⟨_, runEdges_cons_of_next (edgeWith_accepts hx hxv hn _) [], rfl, rfl⟩
  · obtain ⟨n, hn⟩ := Nat.exists_eq_succ_of_ne_zero (Nat.ne_zero_of_lt hlen)
    obtain ⟨s, _, r⟩ := l
    cases hl
    exact ⟨_, (runEdges_cons_of_next (edgeWith_accepts he hv hn r) es).trans (runEdges_waiting hes (by omega)),
      rfl, rfl, rfl⟩

/-- Settles O24: with a command in flight an edge without reset reads no other input. -/
theorem oneCommandInFlight : Obligations.OneCommandInFlight := by
  intro lat l f d e hl hd he
  simp [edgeWith, hl, hd, he]

end Sys2Proof.Machine
end

section
/-! PROOFS. The BitField Codec's round trips (R87, R88): what an insertion leaves in the word, and what is read back. -/

namespace Sys2Proof.Machine

/-- R86. The signed reading of a field that holds the low bits of a number in the signed range is the number. -/
theorem fieldInt_putField {width lsb : U7} {v : Int} (hw : 1 ≤ width.toNat)
    (hlo : -(2 : Int) ^ (width.toNat - 1) ≤ v) (hhi : v < (2 : Int) ^ (width.toNat - 1)) (word : U64)
    (hg : width.toNat + lsb.toNat ≤ 64) :
    fieldInt (putField word width lsb (v % 2 ^ width.toNat).toNat) width lsb = v := by
  have hfield := fieldNat_putField word width lsb _ (twos_lt v width.toNat) hg
  rw [fieldInt, hfield]
  obtain ⟨k, hk⟩ : ∃ k, width.toNat = k + 1 := ⟨width.toNat - 1, by omega⟩
  rw [hk, Nat.add_sub_cancel] at hlo hhi ⊢
  have hpow : (2 : Int) ^ (k + 1) = 2 * 2 ^ k := by ring
  have hcast : ((2 ^ k : Nat) : Int) = (2 : Int) ^ k := by push_cast; rfl
  rw [hpow]
  rcases lt_or_ge v 0 with hneg | hpos
  · have hmod : v % (2 * 2 ^ k) = v + 2 * 2 ^ k := by
      rw [← Int.add_emod_right]
      exact Int.emod_eq_of_lt (by omega) (by omega)
    rw [hmod, if_pos (by omega)]
    omega
  · have hmod : v % (2 * 2 ^ k) = v := Int.emod_eq_of_lt hpos (by omega)
    rw [hmod, if_neg (by omega)]
    omega

/-- Settles O33: the field read back is the number inserted (`fieldNat_putField`), for a signed value its low bits,
whose signed reading is the value (`fieldInt_putField`). -/
theorem insertThenGetReturnsTheValue : Obligations.InsertThenGetReturnsTheValue := by
  refine fun word v width lsb hg => ⟨fun hfits => ?_, fun hfits => ?_⟩
  · refine ⟨_, insu_ok hg hfits, ?_⟩
    rw [getu_ok hg, fieldNat_putField word width lsb _ ((fitsUnsigned_iff v width).mp hfits) hg, BitVec.ofNat_toNat,
      BitVec.setWidth_eq]
  · obtain ⟨hw, hlo, hhi⟩ := (fitsSigned_iff v width).mp hfits
    refine ⟨_, inss_ok hg hfits, ?_, _, getu_ok hg, ?_⟩
    · rw [gets_ok hg, fieldInt_putField hw hlo hhi word hg, BitVec.ofInt_toInt]
    · rw [toNat_ofNat_fieldNat, fieldNat_putField word width lsb _ (twos_lt v.toInt width.toNat) hg]
      exact Int.toNat_of_nonneg (Int.emod_nonneg _ (by positivity))

/-- R85, R86. What `put` does to any word: a number below `2^width` replaces the field. -/
def PutsField (width lsb : U7) (put : U64 → Except CmdErr U64) (n : Nat) : Prop :=
  n < 2 ^ width.toNat ∧ ∀ word, put word = .ok (putField word width lsb n)

/-- R85, R86. An insertion of a value that fits, of either kind, replaces the field by one number in every word. -/
theorem exists_putsField {v : U64} {width lsb : U7} {put : U64 → Except CmdErr U64}
    (hg : width.toNat + lsb.toNat ≤ 64)
    (h : (fitsUnsigned v width = true ∧ put = fun w => insu w width lsb v) ∨
      (fitsSigned v width = true ∧ put = fun w => inss w width lsb v)) : ∃ n, PutsField width lsb put n := by
  rcases h with ⟨hfits, rfl⟩ | ⟨hfits, rfl⟩
  · exact ⟨_, (fitsUnsigned_iff v width).mp hfits, fun _ => insu_ok hg hfits⟩
  · exact ⟨_, twos_lt v.toInt width.toNat, fun _ => inss_ok hg hfits⟩

section
variable {w1 l1 w2 l2 : U7} {n1 n2 : Nat} (hn1 : n1 < 2 ^ w1.toNat) (hg1 : w1.toNat + l1.toNat ≤ 64)
include hn1 hg1

/-- R88. No bit outside the field changes. -/
theorem putField_getLsbD_outside (word : U64) {i : Nat} (hi : i < l1.toNat ∨ l1.toNat + w1.toNat ≤ i) :
    (putField word w1 l1 n1).getLsbD i = word.getLsbD i := by
  rw [putField_getLsbD word w1 l1 n1 hn1 hg1, if_neg (by omega)]

/-- R88. The second insertion into one field wins. -/
theorem putField_putField_same {n : Nat} (hn : n < 2 ^ w1.toNat) (word : U64) :
    putField (putField word w1 l1 n1) w1 l1 n = putField word w1 l1 n := by
  apply BitVec.eq_of_getLsbD_eq
  intro i _
  simp only [putField_getLsbD _ _ _ _ hn1 hg1, putField_getLsbD _ _ _ _ hn hg1]
  split <;> rfl

variable (hdisjoint : l1.toNat + w1.toNat ≤ l2.toNat ∨ l2.toNat + w2.toNat ≤ l1.toNat)
include hdisjoint

/-- R88. A field that does not overlap reads as before. -/
theorem fieldNat_putField_disjoint (word : U64) :
    fieldNat (putField word w1 l1 n1) w2 l2 = fieldNat word w2 l2 := by
  apply Nat.eq_of_testBit_eq
  intro i
  rw [fieldNat_testBit, fieldNat_testBit]
  by_cases hi : i < w2.toNat
  · rw [putField_getLsbD_outside hn1 hg1 word (by omega)]
  · simp [hi]

/-- R88. Insertions into fields that do not overlap commute. -/
theorem putField_comm (hn2 : n2 < 2 ^ w2.toNat) (hg2 : w2.toNat + l2.toNat ≤ 64) (word : U64) :
    putField (putField word w1 l1 n1) w2 l2 n2 = putField (putField word w2 l2 n2) w1 l1 n1 := by
  apply BitVec.eq_of_getLsbD_eq
  intro i _
  simp only [putField_getLsbD _ _ _ _ hn1 hg1, putField_getLsbD _ _ _ _ hn2 hg2]
  split
  · rw [if_neg (by omega)]
  · rfl

end

/-- Settles O34: either insertion replaces the field by one number (`exists_putsField`), which changes no bit outside
the field (`putField_getLsbD_outside`), commutes with a disjoint one (`putField_comm`), leaves a disjoint field's
reading (`fieldNat_putField_disjoint`) and is overwritten by the next one (`putField_putField_same`). -/
theorem disjointFieldsDoNotInterfere : Obligations.DisjointFieldsDoNotInterfere := by
  intro word v1 v2 w1 l1 w2 l2 put1 put2 hg1 hg2 hput1 hput2
  obtain ⟨n1, hn1, h1⟩ := exists_putsField hg1 hput1
  obtain ⟨n2, hn2, h2⟩ := exists_putsField hg2 hput2
  refine ⟨_, _, _, _, h1 word, h2 word, h2 _, h1 _, fun i => putField_getLsbD_outside hn1 hg1 word,
    fun hdisjoint => ⟨putField_comm hn1 hg1 hdisjoint hn2 hg2 word, ?_, ?_⟩, ?_⟩
  · rw [getu_ok hg2, getu_ok hg2, fieldNat_putField_disjoint hn1 hg1 hdisjoint]
  · rw [gets_ok hg2, gets_ok hg2, fieldInt, fieldInt, fieldNat_putField_disjoint hn1 hg1 hdisjoint]
  · rintro rfl rfl
    exact putField_putField_same hn1 hg1 hn2 word

end Sys2Proof.Machine
end

section
/-! PROOFS. The codeword (R45, R135 to R138): packing as one number, its inverse, and the wire form. -/

namespace Sys2Proof.Machine

/-- R138. The operands that overflow a `PACK` are those outside the fields' ranges. -/
theorem overflows_pack_iff (k : Pk) : overflows (.pack k) ↔ ¬ inFields k := by
  simp only [overflows, inFields]
  omega

/-- R135. The codes in their ranges are digits of the codeword's lower half. -/
theorem pack_in_lt {k : Pk} (h : inFields k) {w : U64} (hw : (w.toNat : Int) = k.a.toNat * 2 ^ 23 +
    k.b.toInt % 32 * 2 ^ 18 + k.c.toInt % 32 * 2 ^ 13 + k.d.toInt % 32 * 2 ^ 8 + k.pbIndex.toNat * 2 ^ 4 +
    k.prIndex.toNat) : w.toNat < 2 ^ 32 := by
  obtain ⟨ha, -, -, -, hp, hr⟩ := h
  omega

/-- Settles O48: the nine conditions are those of `pack_out` (`overflows_pack_iff`), and where none holds `pack_in`
gives the closed form. -/
theorem packCommand : Obligations.PackCommand := by
  intro k s hs
  by_cases h : inFields k
  · obtain ⟨w, hpack, hw⟩ := pack_in h
    have hexec : exec (.pack k) s = .next (s.answer (.ok (.uout w))) := exec_of_rule_ok hs (by simp [rule, hpack])
    refine ⟨?_, .inr ⟨w, hexec, pack_in_lt h hw, hw⟩⟩
    have hno : ¬ overflows (.pack k) := by rwa [overflows_pack_iff, not_not]
    rw [hexec]
    exact iff_of_false (by simp [State.answer]) hno
  · have hexec : exec (.pack k) s = .next (s.answer .overflow) :=
      exec_of_rule_overflow hs (by simp [rule, pack_out h])
    exact ⟨iff_of_true hexec ((overflows_pack_iff k).mpr h), .inl hexec⟩

/-- R137. The number of a codeword gives its fields back. -/
theorem unpack_of_toNat {w : U64} {q : QBlock} (hw : w.toNat = q.a.toNat * 2 ^ 23 + q.b.toNat * 2 ^ 18 +
    q.c.toNat * 2 ^ 13 + q.d.toNat * 2 ^ 8 + q.pbIndex.toNat * 2 ^ 4 + q.prIndex.toNat) : unpack w = q := by
  obtain ⟨a, b, c, d, p, r⟩ := q
  have ha := a.isLt; have hb := b.isLt; have hc := c.isLt; have hd := d.isLt; have hp := p.isLt; have hr := r.isLt
  dsimp only at hw
  rw [unpack_eq]
  congr 1
  all_goals
    apply BitVec.eq_of_toNat_eq
    rw [BitVec.extractLsb'_toNat, Nat.shiftRight_eq_div_pow, hw]
    omega

/-- R137 (2). Packing what a word unpacks to gives its lower half. -/
theorem pack_unpack (w : U64) : ∃ v, pack (ext (unpack w)) = .ok v ∧ v.toNat = w.toNat % 2 ^ 32 := by
  obtain ⟨v, hpack, hv⟩ := pack_ext (unpack w)
  refine ⟨v, hpack, ?_⟩
  simp only [hv, unpack_eq, BitVec.extractLsb'_toNat, Nat.shiftRight_eq_div_pow]
  omega

/-- R137 (1). A block's codeword unpacks to it. -/
theorem unpack_of_pack {q : QBlock} {w : U64} (h : pack (ext q) = .ok w) : unpack w = q := by
  obtain ⟨v, hpack, hv⟩ := pack_ext q
  obtain rfl : v = w := by simpa [hpack] using h
  exact unpack_of_toNat hv

/-- Settles O50: a block's codeword has the codes as its digits (`pack_ext`), so it unpacks to the block
(`unpack_of_pack`); a word's lower half is the codeword of what the word unpacks to (`pack_unpack`), and of no other
block. -/
theorem packingIsLossless : Obligations.PackingIsLossless := by
  refine ⟨fun q => ?_, pack_unpack, fun w hw => ⟨unpack w, ?_, fun q hq => (unpack_of_pack hq).symm⟩⟩
  · obtain ⟨w, hpack, -⟩ := pack_ext q
    exact ⟨w, hpack, unpack_of_pack hpack⟩
  · obtain ⟨v, hpack, hv⟩ := pack_unpack w
    rw [Nat.mod_eq_of_lt hw] at hv
    rwa [BitVec.eq_of_toNat_eq hv] at hpack

/-- R69. The six fields lie in the lower half. -/
theorem unpack_congr {v w : U64} (h : v.toNat % 2 ^ 32 = w.toNat % 2 ^ 32) : unpack v = unpack w := by
  rw [unpack_eq, unpack_eq]
  congr 1
  all_goals
    apply BitVec.eq_of_toNat_eq
    rw [BitVec.extractLsb'_toNat, BitVec.extractLsb'_toNat, Nat.shiftRight_eq_div_pow, Nat.shiftRight_eq_div_pow]
    omega

/-- R69, R146. `DECBLK` reads the word through the unpacker only. -/
theorem decblk_congr (c : Config) {v w : U64} (mv : U8) (h : unpack v = unpack w) : decblk c v mv = decblk c w mv := by
  simp only [decblk, h]

/-- Settles O53: both commands read the word through `unpack`, which reads the lower half (`unpack_congr`). -/
theorem decodersIgnoreTheUpperHalf : Obligations.DecodersIgnoreTheUpperHalf := by
  intro v w mv s h
  have hu := unpack_congr h
  simp only [exec_eq, rule, hu, decblk_congr s.cfg mv hu, and_self]

/-! ### The wire form (R45) -/

/-- R45. Byte `k` of the stream is bits `63 − 8k` down to `56 − 8k`. -/
theorem wireBytes_getElem? (w : U64) {k : Nat} (hk : k < 8) :
    (wireBytes w)[k]? = some (w.extractLsb' (8 * (7 - k)) 8) := by
  interval_cases k <;> rfl

theorem extractLsb'_toNat_byte (w : U64) (k : Nat) :
    (w.extractLsb' (8 * k) 8).toNat = w.toNat / 2 ^ (8 * k) % 256 := by
  rw [BitVec.extractLsb'_toNat, Nat.shiftRight_eq_div_pow]

/-- A byte shifted in below the higher bytes of a number. -/
theorem shiftLeft_or_byte (n k : Nat) : (n / 2 ^ (k + 8)) <<< 8 ||| n / 2 ^ k % 2 ^ 8 = n / 2 ^ k := by
  rw [← Nat.shiftLeft_add_eq_or_of_lt (Nat.mod_lt _ (by norm_num)), Nat.shiftLeft_eq, pow_add, ← Nat.div_div_eq_div_mul]
  exact Nat.div_add_mod' _ _

/-- R45. Eight bytes, most significant first, are read as the word. -/
theorem wireWord_wireBytes (w : U64) : wireWord (wireBytes w) = some w := by
  simp only [wireBytes, wireWord, Option.some.injEq]
  apply BitVec.eq_of_toNat_eq
  simp only [BitVec.toNat_append, BitVec.extractLsb'_toNat, Nat.shiftRight_eq_div_pow]
  have hw := w.isLt
  rw [Nat.mod_eq_of_lt (show w.toNat / 2 ^ 56 < 2 ^ 8 by omega), shiftLeft_or_byte _ 48, shiftLeft_or_byte _ 40,
    shiftLeft_or_byte _ 32, shiftLeft_or_byte _ 24, shiftLeft_or_byte _ 16, shiftLeft_or_byte _ 8,
    shiftLeft_or_byte _ 0, pow_zero, Nat.div_one]

/-- Settles O56: byte `k` is an extract of the word (`wireBytes_getElem?`), whose number is a quotient of the word's
(`extractLsb'_toNat_byte`) and 0 for the upper four of a word below `2^32`; the bytes shifted in one by one
(`shiftLeft_or_byte`) give the word back. -/
theorem wireFormIsBigEndian : Obligations.WireFormIsBigEndian := by
  refine ⟨fun w => ⟨rfl, wireWord_wireBytes w, fun k hk b hb => ?_⟩, fun w hw => ?_⟩
  · rw [wireBytes_getElem? w hk] at hb
    cases hb
    exact extractLsb'_toNat_byte w (7 - k)
  · have hzero (k : Nat) (hk : 4 ≤ k) : w.extractLsb' (8 * k) 8 = 0 := by
      apply BitVec.eq_of_toNat_eq
      have hpow : 2 ^ 32 ≤ 2 ^ (8 * k) := Nat.pow_le_pow_right (by norm_num) (by omega)
      rw [extractLsb'_toNat_byte, Nat.div_eq_of_lt (by omega)]
      rfl
    simp only [wireBytes, List.take, hzero 7 (by norm_num), hzero 6 (by norm_num), hzero 5 (by norm_num),
      hzero 4 (by norm_num)]

end Sys2Proof.Machine
end

section
/-! PROOFS. The table of R164 and R66: what each command's own rule ends with, read off its operands. -/

namespace Sys2Proof.Machine

/-! ### The own `FATAL` causes (R80, R101, R102, R145, R146) -/

section
variable {c : Cause}

/-- R80. The cause of `check_width`, as R164 reads it off the operands. -/
theorem checkWidth_eq_error {width : U7}
    (h : (if 64 < width.toNat then some Cause.widthRange else none) = some c) :
    checkWidth width = .error (.fatal c) := by
  split at h <;> cases h
  exact checkWidth_range ‹_›

/-- R80. The cause of `check_field`, as R164 reads it off the operands. -/
theorem checkField_eq_error {width lsb : U7} (h : (if 64 < width.toNat then some Cause.widthRange
    else if 64 < width.toNat + lsb.toNat then some .fieldRange else none) = some c) :
    checkField width lsb = .error (.fatal c) := by
  split at h
  · cases h; exact checkField_width lsb ‹_›
  · split at h <;> cases h
    exact checkField_field (by omega) ‹_›

theorem checkField_geometry {width lsb : U7} (h : (if 64 < width.toNat then some Cause.widthRange
    else if 64 < width.toNat + lsb.toNat then some .fieldRange else none) = none) : width.toNat + lsb.toNat ≤ 64 := by
  split at h
  · cases h
  · split at h
    · cases h
    · omega

theorem maxValue_eq_zero {mv : U8} (h : (if mv = 0 then some Cause.maxValueZero else none) = some c) :
    mv = 0 ∧ c = .maxValueZero := by
  split at h <;> cases h
  exact ⟨‹_›, rfl⟩

theorem maxValue_ne_zero {mv : U8} (h : (if mv = 0 then some Cause.maxValueZero else none) = none) : mv ≠ 0 := by
  rintro rfl
  cases h

end

/-- R164, the column "own `FATAL` causes": a cause the operands meet is raised before anything else. -/
theorem rule_of_ownFatal {i : Instr} {c : Cause} (h : ownFatal i = some c) (cfg : Config) :
    rule cfg i = .error (.fatal c) := by
  cases i with
  | fitsu v width => exact IsFitCommand.rule_error (v := v) (.inl rfl) (checkWidth_eq_error h) cfg
  | fitss v width => exact IsFitCommand.rule_error (v := v) (.inr rfl) (checkWidth_eq_error h) cfg
  | getu word width lsb =>
    exact IsFieldCommand.rule_error (v := 0) (.inl rfl) (checkField_eq_error h) cfg
  | gets word width lsb =>
    exact IsFieldCommand.rule_error (v := 0) (.inr (.inl rfl)) (checkField_eq_error h) cfg
  | insu word width lsb v =>
    exact IsFieldCommand.rule_error (v := v) (.inr (.inr (.inl rfl))) (checkField_eq_error h) cfg
  | inss word width lsb v =>
    exact IsFieldCommand.rule_error (v := v) (.inr (.inr (.inr rfl))) (checkField_eq_error h) cfg
  | rgb2ypp | ypp2rgb | encblk | decblk =>
    obtain ⟨rfl, rfl⟩ := maxValue_eq_zero h
    rfl
  | blkfwd | blkinv | cavg | qfwd | qinv | pack | unpack => cases h

/-! ### `OVERFLOW` (R85, R86, R138) -/

/-- R85. The values `INSU` overflows on are those that do not fit. -/
theorem overflows_insu_iff (word v : U64) (width lsb : U7) :
    overflows (.insu word width lsb v) ↔ fitsUnsigned v width = false := (fitsUnsigned_eq_false_iff v width).symm

/-- R86. The values `INSS` overflows on are those that do not fit. -/
theorem overflows_inss_iff (word v : U64) (width lsb : U7) :
    overflows (.inss word width lsb v) ↔ fitsSigned v width = false := by
  rw [fitsSigned_eq_false_iff, overflows]
  omega

/-- R164, the column `OVERFLOW`. -/
theorem rule_of_overflows {i : Instr} (hfatal : ownFatal i = none) (h : overflows i) (cfg : Config) :
    rule cfg i = .error .overflow := by
  cases i with
  | insu word width lsb v =>
    simp [rule, insu_overflow (checkField_geometry hfatal) ((overflows_insu_iff word v width lsb).mp h)]
  | inss word width lsb v =>
    simp [rule, inss_overflow (checkField_geometry hfatal) ((overflows_inss_iff word v width lsb).mp h)]
  | pack k => simp [rule, pack_out ((overflows_pack_iff k).mp h)]
  | fitsu | fitss | getu | gets | rgb2ypp | ypp2rgb | blkfwd | blkinv | cavg | qfwd | qinv | unpack | encblk | decblk =>
    exact h.elim

/-! ### Results (R66) -/

/-- R102. With a nonzero `max_value` and finite operands `YPP2RGB` ends with the pixel of R102. -/
theorem ypp2rgb_of_finite (c : Config) (free : Nat → BitVec 64) {y pb pr : RealVal} {mv : U8} (hmv : mv ≠ 0)
    (h : allFinite [y, pb, pr] = true) : ypp2rgb c free y pb pr mv = .ok (tristimulus c free y pb pr mv) := by
  rw [ypp2rgb, checkMaxValue_ok hmv]
  simp [h]

/-- R102, IU6. With a nonzero `max_value` `YPP2RGB` ends with a pixel, whatever its operands. -/
theorem exists_ypp2rgbOf_eq_ok (c : Config) (y pb pr : RealVal) {mv : U8} (hmv : mv ≠ 0) :
    ∃ p, ypp2rgbOf c y pb pr mv = .ok p := by
  cases h : allFinite [y, pb, pr] with
  | true => exact ⟨_, ypp2rgb_of_finite c _ hmv h⟩
  | false =>
    simp only [ypp2rgbOf, ypp2rgb, checkMaxValue_ok hmv, h]
    exact ⟨_, rfl⟩

/-- R145. With a nonzero `max_value` `ENCBLK` ends with the codeword of its internal pack. -/
theorem encblk_of_pack_ok {c : Config} {px : Quad Pixel} {mv : U8} (hmv : mv ≠ 0) {cw : U64}
    (h : pack (blockCodes c px mv).toPk = .ok cw) : encblk c px mv = .ok cw := by
  simp only [encblk, checkMaxValue_ok hmv, h]
  rfl

/-- R145. With a nonzero `max_value` `ENCBLK` escalates an overflow of its internal pack. -/
theorem encblk_of_pack_error {c : Config} {px : Quad Pixel} {mv : U8} (hmv : mv ≠ 0) {e : CmdErr}
    (h : pack (blockCodes c px mv).toPk = .error e) : encblk c px mv = .error (.fatal .internal) := by
  simp only [encblk, checkMaxValue_ok hmv, h]
  rfl

/-- R145, IU6. With a nonzero `max_value` `ENCBLK` ends with a codeword, or under a floating-point format with
`FATAL(INTERNAL)`. -/
theorem encblk_cases (c : Config) (px : Quad Pixel) {mv : U8} (hmv : mv ≠ 0) :
    (∃ cw, encblk c px mv = .ok cw) ∨ (finiteOperands (blockOperands c px mv) = false ∧
      encblk c px mv = .error (.fatal .internal)) := by
  cases hfin : finiteOperands (blockOperands c px mv) with
  | true =>
    obtain ⟨cw, h, -⟩ := encblk_finite c px hmv hfin
    exact .inl ⟨cw, h⟩
  | false =>
    cases hpack : pack (blockCodes c px mv).toPk with
    | ok cw => exact .inl ⟨cw, encblk_of_pack_ok hmv hpack⟩
    | error e => exact .inr ⟨rfl, encblk_of_pack_error hmv hpack⟩

/-- R146. `DECBLK` with a nonzero `max_value` is a chain of commands that all end with a result. -/
theorem exists_decblk_chain (c : Config) (word : U64) {mv : U8} (hmv : mv ≠ 0) : ∃ p : Quad Pixel,
    let y := blkinvOf c (dequantCoef c.fmt (unpack word))
    let ch := dequantChroma c (unpack word)
    ypp2rgbOf c y.at0 ch.pb ch.pr mv = .ok p.at0 ∧ ypp2rgbOf c y.at1 ch.pb ch.pr mv = .ok p.at1 ∧
    ypp2rgbOf c y.at2 ch.pb ch.pr mv = .ok p.at2 ∧ ypp2rgbOf c y.at3 ch.pb ch.pr mv = .ok p.at3 ∧
    decblk c word mv = .ok p := by
  have hok := fun y => exists_ypp2rgbOf_eq_ok c y (dequantChroma c (unpack word)).pb
    (dequantChroma c (unpack word)).pr hmv
  obtain ⟨p0, h0⟩ := hok (blkinvOf c (dequantCoef c.fmt (unpack word))).at0
  obtain ⟨p1, h1⟩ := hok (blkinvOf c (dequantCoef c.fmt (unpack word))).at1
  obtain ⟨p2, h2⟩ := hok (blkinvOf c (dequantCoef c.fmt (unpack word))).at2
  obtain ⟨p3, h3⟩ := hok (blkinvOf c (dequantCoef c.fmt (unpack word))).at3
  refine ⟨⟨p0, p1, p2, p3⟩, h0, h1, h2, h3, ?_⟩
  simp only [decblk, checkMaxValue_ok hmv, h0, h1, h2, h3]
  rfl

/-- R66, R164. Operands that meet no error end with a result on the row's ports; only `ENCBLK` under a floating-point
format may end with `FATAL(INTERNAL)` (IU6). -/
theorem rule_of_no_error {i : Instr} (hfatal : ownFatal i = none) (hover : ¬ overflows i) (cfg : Config) :
    (∃ p, drives i p = true ∧ rule cfg i = .ok p) ∨
      (cfg.fmt ≠ .exact ∧ (∃ px mv, i = .encblk px mv) ∧ rule cfg i = .error (.fatal .internal)) := by
  cases i with
  | fitsu v width =>
    have hw : width.toNat ≤ 64 := by simpa [ownFatal] using hfatal
    exact .inl ⟨.fits (fitsUnsigned v width), rfl, by simp [rule, fitsu_ok hw]⟩
  | fitss v width =>
    have hw : width.toNat ≤ 64 := by simpa [ownFatal] using hfatal
    exact .inl ⟨.fits (fitsSigned v width), rfl, by simp [rule, fitss_ok hw]⟩
  | getu word width lsb => exact .inl ⟨.uout _, rfl, by simp [rule, getu_ok (checkField_geometry hfatal)]; rfl⟩
  | gets word width lsb => exact .inl ⟨.sout _, rfl, by simp [rule, gets_ok (checkField_geometry hfatal)]; rfl⟩
  | insu word width lsb v =>
    rw [overflows_insu_iff, Bool.not_eq_false] at hover
    exact .inl ⟨.uout _, rfl, by simp [rule, insu_ok (checkField_geometry hfatal) hover]; rfl⟩
  | inss word width lsb v =>
    rw [overflows_inss_iff, Bool.not_eq_false] at hover
    exact .inl ⟨.uout _, rfl, by simp [rule, inss_ok (checkField_geometry hfatal) hover]; rfl⟩
  | rgb2ypp px mv => exact .inl ⟨.ypp _, rfl, by simp [rule, rgb2ypp_ok cfg px (maxValue_ne_zero hfatal)]; rfl⟩
  | ypp2rgb y pb pr mv =>
    obtain ⟨p, hp⟩ := exists_ypp2rgbOf_eq_ok cfg y pb pr (maxValue_ne_zero hfatal)
    exact .inl ⟨.pixel p, rfl, by simp [rule, hp]⟩
  | blkfwd | blkinv | cavg | qfwd | qinv | unpack => exact .inl ⟨_, rfl, rfl⟩
  | pack k =>
    rw [overflows_pack_iff, not_not] at hover
    obtain ⟨w, hw, -⟩ := pack_in hover
    exact .inl ⟨.uout w, rfl, by simp [rule, hw]⟩
  | encblk px mv =>
    have hmv := maxValue_ne_zero hfatal
    rcases encblk_cases cfg px hmv with ⟨cw, h⟩ | ⟨hfin, h⟩
    · exact .inl ⟨.uout cw, rfl, by simp [rule, h]⟩
    · refine .inr ⟨fun hexact => ?_, ⟨px, mv, rfl⟩, by simp [rule, h]⟩
      rw [finiteOperands_exact cfg hexact px hmv] at hfin
      cases hfin
  | decblk word mv =>
    obtain ⟨p, -, -, -, -, h⟩ := exists_decblk_chain cfg word (maxValue_ne_zero hfatal)
    exact .inl ⟨.pixels p, rfl, by simp [rule, h]⟩

/-- Settles O12, by what each rule ends with: `rule_of_ownFatal`, `rule_of_overflows`, `rule_of_no_error`. -/
theorem everyCommandAnswersAsItsRow : Obligations.EveryCommandAnswersAsItsRow := by
  intro i s hs
  cases hfatal : ownFatal i with
  | some c => exact exec_of_rule_fatal hs (rule_of_ownFatal hfatal s.cfg)
  | none =>
    refine ⟨fun hover => exec_of_rule_overflow hs (rule_of_overflows hfatal hover s.cfg), fun hover => ?_⟩
    rcases rule_of_no_error hfatal hover s.cfg with ⟨p, hp, h⟩ | ⟨hfmt, henc, h⟩
    · exact .inl ⟨p, hp, exec_of_rule_ok hs h⟩
    · exact .inr ⟨hfmt, henc, exec_of_rule_fatal hs h⟩

end Sys2Proof.Machine
end

section
/-! PROOFS. The Color Transform (R100 to R104) under `REAL_FMT = exact`, and with the default matrices (log entry 2). -/

namespace Sys2Proof.Machine

/-- A nonzero `max_value` is a nonzero rational. -/
theorem maxValue_cast_pos {mv : U8} (h : mv ≠ 0) : (0 : Rat) < mv.toNat := by
  have : mv.toNat ≠ 0 := fun e => h (BitVec.eq_of_toNat_eq (by simpa using e))
  exact_mod_cast Nat.pos_of_ne_zero this

/-- R101, R102, R145, R146. A zero `max_value` is answered `FATAL(MAX_VALUE_ZERO)`. -/
theorem exec_maxValueZero {i : Instr} {s : State} (hs : s.fatal = false) (h : ownFatal i = some .maxValueZero) :
    exec i s = .next { s with fatal := true, cause := 3, rsps := s.rsps ++ [.fatal 3] } :=
  exec_of_rule_fatal hs (rule_of_ownFatal h s.cfg)

/-- R101. From a clear latch `RGB2YPP` with a nonzero `max_value` answers the pixel's luma and chroma. -/
theorem exec_rgb2ypp_ok {s : State} (hs : s.fatal = false) (px : Pixel) {mv : U8} (hmv : mv ≠ 0) :
    exec (.rgb2ypp px mv) s = .next (s.answer (.ok (.ypp (lumaChroma s.cfg px mv)))) :=
  exec_of_rule_ok hs (by simp [rule, rgb2ypp_ok _ px hmv])

/-- Settles O35: a zero `max_value` is `exec_maxValueZero`, and else the result is `lumaChroma_exact`. -/
theorem rgbToYppCommand : Obligations.RgbToYppCommand := by
  refine fun px mv s hs hfmt => ⟨?_, ?_⟩
  · rintro rfl
    exact exec_maxValueZero hs rfl
  · rintro hmv r g b rfl rfl rfl
    rw [exec_rgb2ypp_ok hs px hmv, lumaChroma_exact s.cfg hfmt px mv hmv]

/-- R102. From a clear latch `YPP2RGB` of finite operands with a nonzero `max_value` answers their pixel. -/
theorem exec_ypp2rgb_ok {s : State} (hs : s.fatal = false) {y pb pr : RealVal} {mv : U8} (hmv : mv ≠ 0)
    (h : allFinite [y, pb, pr] = true) : exec (.ypp2rgb y pb pr mv) s =
      .next (s.answer (.ok (.pixel (tristimulus s.cfg (Config.freeBits s.cfg (.ypp2rgb y pb pr mv)) y pb pr mv)))) :=
  exec_of_rule_ok hs (by simp [rule, ypp2rgbOf, ypp2rgb_of_finite _ _ hmv h])

/-- R102 under `exact`: each channel of the pixel is its row's number, clamped, scaled and rounded. -/
theorem tristimulus_exact (c : Config) (hc : c.fmt = .exact) (free : Nat → BitVec 64) (y pb pr : Rat) (mv : U8) :
    let p := tristimulus c free (.num y) (.num pb) (.num pr) mv
    (p.r.toNat : Int) = channelOf (rowSum c.colorInv.row0 y pb pr) mv ∧
      (p.g.toNat : Int) = channelOf (rowSum c.colorInv.row1 y pb pr) mv ∧
      (p.b.toNat : Int) = channelOf (rowSum c.colorInv.row2 y pb pr) mv := by
  simp only [tristimulus, hc, applyRow_exact]
  exact ⟨(channel_exact _ _ _ _).1, (channel_exact _ _ _ _).1, (channel_exact _ _ _ _).1⟩

/-- Settles O37: a zero `max_value` is `exec_maxValueZero`, and else each channel is `tristimulus_exact`, within
`max_value` by `tristimulus_le`. -/
theorem yppToRgbCommand : Obligations.YppToRgbCommand := by
  refine fun y pb pr mv s hs hfmt => ⟨?_, fun hmv => ⟨_, exec_ypp2rgb_ok hs hmv rfl, ?_⟩⟩
  · rintro rfl
    exact exec_maxValueZero hs rfl
  · obtain ⟨hr, hg, hb⟩ := tristimulus_exact s.cfg hfmt (Config.freeBits s.cfg (.ypp2rgb _ _ _ mv)) y pb pr mv
    exact ⟨hr, hg, hb, tristimulus_le s.cfg hfmt _ y pb pr mv⟩

/-! ### The default matrices (log entry 2) -/

/-- R100. The default rows of `COLOR_FWD`, applied. -/
theorem rowSum_colorFwd (r g b : Rat) :
    rowSum Params.colorFwd.row0 r g b = 0.299 * r + 0.587 * g + 0.114 * b ∧
      rowSum Params.colorFwd.row1 r g b = -0.168736 * r - 0.331264 * g + 0.5 * b ∧
      rowSum Params.colorFwd.row2 r g b = 0.5 * r - 0.418688 * g - 0.081312 * b := by
  simp only [rowSum, Params.colorFwd, Rat.mkRat_eq_div]
  refine ⟨?_, ?_, ?_⟩ <;> push_cast <;> ring

/-- R100. The default rows of `COLOR_INV`, applied. -/
theorem rowSum_colorInv (y pb pr : Rat) :
    rowSum Params.colorInv.row0 y pb pr = y + 1.402 * pr ∧
      rowSum Params.colorInv.row1 y pb pr = y - 0.344136 * pb - 0.714136 * pr ∧
      rowSum Params.colorInv.row2 y pb pr = y + 1.772 * pb := by
  simp only [rowSum, Params.colorInv, Rat.mkRat_eq_div]
  refine ⟨?_, ?_, ?_⟩ <;> push_cast <;> ring

/-- Settles O36: the rows of `COLOR_FWD` sum to 1, 0 and 0 and the last two hold 1/2 on either side, and the channels
lie in [0,1]. -/
theorem defaultLumaChromaRanges : Obligations.DefaultLumaChromaRanges := by
  intro px mv hmv
  have hpos := maxValue_cast_pos hmv
  have hnorm (v : U8) (h : v.toNat ≤ mv.toNat) : 0 ≤ (v.toNat : Rat) / mv.toNat ∧ (v.toNat : Rat) / mv.toNat ≤ 1 :=
    ⟨by positivity, (div_le_one hpos).mpr (by exact_mod_cast h)⟩
  refine ⟨_, _, _, by rw [rgb2ypp_ok _ px hmv, lumaChroma_exact _ rfl px mv hmv], ?_⟩
  obtain ⟨hy, hpb, hpr⟩ :=
    rowSum_colorFwd (px.r.toNat / (mv.toNat : Rat)) (px.g.toNat / (mv.toNat : Rat)) (px.b.toNat / (mv.toNat : Rat))
  simp only [Config.default, hy, hpb, hpr]
  refine ⟨fun hr hg hb => ?_, fun hrg hgb => ?_⟩
  · obtain ⟨hr0, hr1⟩ := hnorm px.r hr
    obtain ⟨hg0, hg1⟩ := hnorm px.g hg
    obtain ⟨hb0, hb1⟩ := hnorm px.b hb
    refine ⟨?_, ?_, ?_, ?_, ?_, ?_⟩ <;> linarith
  · rw [hrg, hgb]
    refine ⟨?_, ?_, ?_⟩ <;> ring

/-- R102, R104. A row value within 1/2 of a channel's level, in units of `max_value`, decodes to that level. -/
theorem channelOf_eq {x : Rat} {mv v : U8} (hmv : mv ≠ 0) (hv : v.toNat ≤ mv.toNat)
    (h : |x * mv.toNat - v.toNat| < 1 / 2) : channelOf x mv = v.toNat := by
  have hpos := maxValue_cast_pos hmv
  have hv0 : (0 : Rat) ≤ v.toNat := by positivity
  have hv1 : (v.toNat : Rat) ≤ mv.toNat := by exact_mod_cast hv
  apply roundAway_eq
  rw [abs_lt] at h ⊢
  push_cast
  rw [max_mul_of_nonneg _ _ hpos.le, min_mul_of_nonneg _ _ hpos.le, zero_mul, one_mul]
  constructor
  · have : (v.toNat : Rat) - 1 / 2 < max 0 (min (mv.toNat : Rat) (x * mv.toNat)) :=
      lt_max_of_lt_right (lt_min (by linarith) (by linarith))
    linarith
  · have : max 0 (min (mv.toNat : Rat) (x * mv.toNat)) < v.toNat + 1 / 2 :=
      max_lt (by linarith) (lt_of_le_of_lt (min_le_right _ _) (by linarith))
    linarith

/-- R104. The default matrices undo each other up to less than half a unit of a channel. -/
theorem rowSum_roundTrip {r g b : Rat} (hr : 0 ≤ r ∧ r ≤ 255) (hg : 0 ≤ g ∧ g ≤ 255) (hb : 0 ≤ b ∧ b ≤ 255) :
    let y := rowSum Params.colorFwd.row0 (r / 255) (g / 255) (b / 255)
    let pb := rowSum Params.colorFwd.row1 (r / 255) (g / 255) (b / 255)
    let pr := rowSum Params.colorFwd.row2 (r / 255) (g / 255) (b / 255)
    |rowSum Params.colorInv.row0 y pb pr * 255 - r| < 1 / 2 ∧ |rowSum Params.colorInv.row1 y pb pr * 255 - g| < 1 / 2 ∧
      |rowSum Params.colorInv.row2 y pb pr * 255 - b| < 1 / 2 := by
  obtain ⟨hr0, hr1⟩ := hr
  obtain ⟨hg0, hg1⟩ := hg
  obtain ⟨hb0, hb1⟩ := hb
  obtain ⟨hy, hpb, hpr⟩ := rowSum_colorFwd (r / 255) (g / 255) (b / 255)
  intro y pb pr
  obtain ⟨h0, h1, h2⟩ := rowSum_colorInv y pb pr
  rw [h0, h1, h2]
  simp only [y, pb, pr, hy, hpb, hpr, abs_lt]
  refine ⟨⟨?_, ?_⟩, ⟨?_, ?_⟩, ⟨?_, ?_⟩⟩ <;> linarith

theorem pixel_eq {p q : Pixel} (hr : (p.r.toNat : Int) = q.r.toNat) (hg : (p.g.toNat : Int) = q.g.toNat)
    (hb : (p.b.toNat : Int) = q.b.toNat) : p = q := by
  obtain ⟨r, g, b⟩ := p
  obtain ⟨r', g', b'⟩ := q
  have eq {v w : U8} (h : (v.toNat : Int) = w.toNat) : v = w := BitVec.eq_of_toNat_eq (by exact_mod_cast h)
  rw [Pixel.mk.injEq]
  exact ⟨eq hr, eq hg, eq hb⟩

/-- Settles O38: for the default matrices each row of the round trip is within half a unit of the channel
(`rowSum_roundTrip`), so it is rounded to the channel (`channelOf_eq`). -/
theorem defaultColorRoundTripIsTheIdentity : Obligations.DefaultColorRoundTripIsTheIdentity := by
  intro px free
  have hmv : (255 : U8) ≠ 0 := by decide
  refine ⟨_, rgb2ypp_ok _ px hmv, ?_⟩
  rw [lumaChroma_exact _ rfl px 255 hmv, ypp2rgb_ok _ _ _ _ _ hmv]
  have hle (v : U8) : v.toNat ≤ (255 : U8).toNat := Nat.le_of_lt_succ v.isLt
  have hrange (v : U8) : (0 : Rat) ≤ v.toNat ∧ (v.toNat : Rat) ≤ 255 := ⟨by positivity, by exact_mod_cast hle v⟩
  obtain ⟨hr, hg, hb⟩ := rowSum_roundTrip (hrange px.r) (hrange px.g) (hrange px.b)
  obtain ⟨er, eg, eb⟩ := tristimulus_exact Config.default rfl free
    (rowSum Params.colorFwd.row0 (px.r.toNat / 255) (px.g.toNat / 255) (px.b.toNat / 255))
    (rowSum Params.colorFwd.row1 (px.r.toNat / 255) (px.g.toNat / 255) (px.b.toNat / 255))
    (rowSum Params.colorFwd.row2 (px.r.toNat / 255) (px.g.toNat / 255) (px.b.toNat / 255)) 255
  exact congrArg Except.ok (pixel_eq (er.trans (channelOf_eq hmv (hle px.r) hr))
    (eg.trans (channelOf_eq hmv (hle px.g) hg)) (eb.trans (channelOf_eq hmv (hle px.b) hb)))

end Sys2Proof.Machine
end

section
/-! PROOFS. The Block Transform (R110 to R116) under `REAL_FMT = exact`. -/

namespace Sys2Proof.Machine

/-- Settles O39, by `blkfwdOf_exact`. -/
theorem blockForwardCommand : Obligations.BlockForwardCommand := fun y0 y1 y2 y3 s hs hfmt =>
  exec_of_rule_ok hs (by rw [rule, blkfwdOf_exact s.cfg hfmt])

/-- Settles O40: rationals are finite, so no free value enters (`blkinvAny_finite`), and the sums are those of
`blkinv_exact`. -/
theorem blockInverseCommand : Obligations.BlockInverseCommand := fun a b c d s hs hfmt =>
  exec_of_rule_ok hs (by rw [rule, blkinvOf, blkinvAny_finite rfl, hfmt, blkinv_exact])

/-- Settles O41, by `cavgOf_exact`. -/
theorem chromaMeanCommand : Obligations.ChromaMeanCommand := fun b0 b1 b2 b3 r0 r1 r2 r3 s hs hfmt =>
  exec_of_rule_ok hs (by rw [rule, cavgOf_exact s.cfg hfmt])

/-- Settles O42: both compositions are linear, and each is the identity. -/
theorem blockTransformRoundTrips : Obligations.BlockTransformRoundTrips := by
  intro p q r t
  simp only [blkfwd_exact, blkinv_exact, Quad.mk.injEq, Coef.mk.injEq, RealVal.num.injEq]
  refine ⟨⟨?_, ?_, ?_, ?_⟩, ?_, ?_, ?_, ?_⟩ <;> ring

/-- Settles O43: each coefficient is a signed mean of four numbers in [0,1]. -/
theorem blockCoefficientRanges : Obligations.BlockCoefficientRanges := by
  refine ⟨fun p q r t hp0 hp1 hq0 hq1 hr0 hr1 ht0 ht1 => ⟨_, _, _, _, blkfwd_exact p q r t, ?_⟩, ?_⟩
  · simp only [abs_le]
    refine ⟨?_, ?_, ⟨?_, ?_⟩, ⟨?_, ?_⟩, ⟨?_, ?_⟩⟩ <;> linarith
  · rw [blkfwd_exact]
    norm_num

end Sys2Proof.Machine
end

section
/-! PROOFS. The Quantizer (R120 to R126): under `REAL_FMT = exact`, and its ranges under every format. -/

namespace Sys2Proof.Machine

/-- R123. From a clear latch `QFWD` answers the codes of its operands, narrowed. -/
theorem exec_qfwd_ok {s : State} (hs : s.fatal = false) {k : Coef} {pb pr : RealVal}
    (h : allFinite [k.a, k.b, k.c, k.d, pb, pr] = true) : exec (.qfwd k pb pr) s =
      .next (s.answer (.ok (.qblock (quantize s.cfg k ⟨pb, pr⟩).toQBlock))) :=
  exec_of_rule_ok hs (by rw [rule, codesOf, codesAny_finite h])

/-- R123, R126. Narrowing the codes of finite operands to the block loses nothing. -/
theorem toQBlock_quantize (c : Config) (k : Coef) (ch : Chroma) :
    let q := (quantize c k ch).toQBlock
    (q.a.toNat : Int) = quantA c.fmt k.a ∧ q.b.toInt = quantG c.fmt k.b ∧ q.c.toInt = quantG c.fmt k.c ∧
      q.d.toInt = quantG c.fmt k.d ∧ q.pbIndex = quantC c ch.pb ∧ q.prIndex = quantC c ch.pr := by
  have ha := quantA_range c.fmt k.a
  have hg (x : RealVal) : (BitVec.ofInt 5 (quantG c.fmt x)).toInt = quantG c.fmt x := by
    have := quantG_range c.fmt x
    exact toInt_ofInt_5 _ (by omega) this.2
  have hi (i : U4) : BitVec.ofInt 4 (i.toNat : Int) = i := by simp
  exact ⟨toQBlock_a _ ha.1 ha.2, hg _, hg _, hg _, hi _, hi _⟩

/-- Settles O44: the codes of rationals (`quantA_exact`, `quantG_exact`, `quantC_exact`) are narrowed without loss
(`toQBlock_quantize`), and the scan finds the nearest entries (`indexOfChroma_nearest`). -/
theorem quantizeCommand : Obligations.QuantizeCommand := by
  intro a b c d pb pr s hs hfmt
  refine ⟨_, exec_qfwd_ok hs rfl, ?_⟩
  obtain ⟨ha, hb, hc, hd, hpb, hpr⟩ :=
    toQBlock_quantize s.cfg ⟨.num a, .num b, .num c, .num d⟩ ⟨.num pb, .num pr⟩
  rw [hfmt, quantA_exact] at ha
  rw [hfmt, quantG_exact] at hb hc hd
  rw [quantC_exact] at hpb hpr
  exact ⟨ha, hb, hc, hd, hpb ▸ indexOfChroma_nearest s.cfg hfmt _, hpr ▸ indexOfChroma_nearest s.cfg hfmt _⟩

/-- Settles O45: gradient codes lie in −15..15 (`quantG_range`) and are narrowed without loss (`toQBlock_quantize`,
`ext_quantize`); every block packs (`pack_ext`). -/
theorem quantizerOutputRanges : Obligations.QuantizerOutputRanges := by
  intro c free k ch h
  rw [qfwd, codesAny_finite h]
  obtain ⟨-, hb, hc, hd, -⟩ := toQBlock_quantize c k ch
  have hg (x : RealVal) : quantG c.fmt x ≠ -16 := by
    have := quantG_range c.fmt x
    omega
  obtain ⟨w, hw, -⟩ := pack_ext (quantize c k ch).toQBlock
  exact ⟨⟨hb ▸ hg _, hc ▸ hg _, hd ▸ hg _⟩, ext_quantize c k ch, w, hw⟩

/-- Settles O46, by `dequantCoef_exact` and `entry_exact`. -/
theorem dequantizeCommand : Obligations.DequantizeCommand := fun q s hs hfmt =>
  exec_of_rule_ok hs (by rw [rule, dequantChroma, hfmt, dequantCoef_exact, entry_exact _ hfmt, entry_exact _ hfmt])

theorem qblock_eq {p q : QBlock} (ha : (p.a.toNat : Int) = q.a.toNat) (hb : p.b.toInt = q.b.toInt)
    (hc : p.c.toInt = q.c.toInt) (hd : p.d.toInt = q.d.toInt) (hpb : p.pbIndex = q.pbIndex)
    (hpr : p.prIndex = q.prIndex) : p = q := by
  obtain ⟨a, b, c, d, i, j⟩ := p
  obtain ⟨a', b', c', d', i', j'⟩ := q
  have ha : a = a' := BitVec.eq_of_toNat_eq (by exact_mod_cast ha)
  rw [QBlock.mk.injEq]
  exact ⟨ha, BitVec.eq_of_toInt_eq hb, BitVec.eq_of_toInt_eq hc, BitVec.eq_of_toInt_eq hd, hpb, hpr⟩

/-- R124. One gradient coefficient under `exact`. -/
theorem dequantG_exact (x : S5) : dequantG .exact x = .num (x.toInt * (3 / 10) / 15) :=
  congrArg Coef.b (dequantCoef_exact ⟨0, x, 0, 0, 0, 0⟩)

/-- R122, R125. An entry of an admissible table is its own nearest entry, and no other is. -/
theorem quantC_entry {c : Config} (hc : c.fmt = .exact) (hadm : c.admissible = true) (i : U4) :
    quantC c (c.entry i) = i := by
  obtain ⟨hdistinct, hrange⟩ := admissible_exact c hc hadm
  obtain ⟨hlo, hhi⟩ := hrange i
  rw [entry_exact c hc, quantC_exact, min_eq_right hhi, max_eq_right hlo]
  have hle := (indexOfChroma_nearest c hc (c.chromaTable[i.toNat]'i.isLt) i).1
  rw [sub_self, abs_zero] at hle
  by_contra hne
  exact hdistinct _ _ (Ne.symm hne) (sub_eq_zero.mp (abs_nonpos_iff.mp hle))

/-- R125. The code of a gradient coefficient dequantized from a code in −15..15 is that code. -/
theorem quantG_dequantG {x : S5} (hx : x.toInt ≠ -16) : quantG .exact (dequantG .exact x) = x.toInt := by
  have hlo := BitVec.le_toInt x
  have hhi := BitVec.toInt_lt (x := x)
  have hcode : (x.toInt * (3 / 10) / 15 * 50 : Rat) = x.toInt := by ring
  rw [dequantG_exact, quantG_exact, hcode, roundAway_int]
  omega

/-- R125. The code of an average dequantized from a code is that code. -/
theorem quantA_dequant (x : U9) : quantA .exact (.num (x.toNat / 511)) = x.toNat := by
  have hlt := x.isLt
  have hcode : (x.toNat / 511 * 511 : Rat) = ((x.toNat : Int) : Rat) := by push_cast; ring
  rw [quantA_exact, hcode, roundAway_int]
  omega

/-- Settles O47: the codes of a dequantized block are the block's (`quantA_dequant`, `quantG_dequantG`), and its chroma
entries are their own nearest ones (`quantC_entry`). -/
theorem quantizationIsIdempotent : Obligations.QuantizationIsIdempotent := by
  intro c free q hc hadm ⟨hb, hg, hd⟩
  have hfin : allFinite [(dequantCoef c.fmt q).a, (dequantCoef c.fmt q).b, (dequantCoef c.fmt q).c,
      (dequantCoef c.fmt q).d, (dequantChroma c q).pb, (dequantChroma c q).pr] = true := by
    rw [dequantChroma, hc, dequantCoef_exact, entry_exact c hc, entry_exact c hc]; rfl
  rw [qfwd, codesAny_finite hfin]
  obtain ⟨ea, eb, ec, ed, ep, er⟩ := toQBlock_quantize c (dequantCoef c.fmt q) (dequantChroma c q)
  have hA : quantA c.fmt (dequantCoef c.fmt q).a = q.a.toNat := by rw [hc, dequantCoef_exact, quantA_dequant]
  have hG {x : S5} (hx : x.toInt ≠ -16) : quantG c.fmt (dequantG c.fmt x) = x.toInt := by rw [hc, quantG_dequantG hx]
  exact qblock_eq (ea.trans hA) (eb.trans (hG hb)) (ec.trans (hG hg)) (ed.trans (hG hd))
    (ep.trans (quantC_entry hc hadm _)) (er.trans (quantC_entry hc hadm _))

end Sys2Proof.Machine
end

section
/-! PROOFS. The pipeline composites (R145 to R148): `ENCBLK` is its chain of commands; what a uniform block gives. -/

namespace Sys2Proof.Machine

/-- R60. A block's codeword lies in the lower half of the port. -/
theorem pack_ext_lt {q : QBlock} {w : U64} (h : pack (ext q) = .ok w) : w.toNat < 2 ^ 32 := by
  obtain ⟨v, hpack, hv⟩ := pack_ext q
  obtain rfl : v = w := by simpa [hpack] using h
  have ha := q.a.isLt; have hb := q.b.isLt; have hc := q.c.isLt; have hd := q.d.isLt
  have hpb := q.pbIndex.isLt; have hpr := q.prIndex.isLt
  omega

/-- R67. An unsigned code that fits its field on the port is the extension of the narrow field. -/
theorem setWidth_ofInt {n : Nat} (hn : n ≤ 64) {x : Int} (h : (BitVec.ofInt 64 x).toNat < 2 ^ n) :
    (BitVec.ofInt n x).setWidth 64 = BitVec.ofInt 64 x := by
  apply BitVec.eq_of_toNat_eq
  have hdvd : ((2 ^ n : Nat) : Int) ∣ ((2 ^ 64 : Nat) : Int) := by exact_mod_cast pow_dvd_pow 2 hn
  have hnarrow : (BitVec.ofInt n x).toNat = (BitVec.ofInt 64 x).toNat := by
    rw [BitVec.toNat_ofInt] at h ⊢
    rw [BitVec.toNat_ofInt, ← Int.emod_emod_of_dvd x hdvd, Int.emod_eq_of_lt (by omega) (by omega)]
  rw [BitVec.toNat_setWidth, hnarrow, Nat.mod_eq_of_lt (BitVec.isLt _)]

/-- R67. A signed code that fits its field on the port is the extension of the narrow field. -/
theorem signExtend_ofInt {x : Int} (h : -16 ≤ (BitVec.ofInt 64 x).toInt ∧ (BitVec.ofInt 64 x).toInt ≤ 15) :
    (BitVec.ofInt 5 x).signExtend 64 = BitVec.ofInt 64 x := by
  apply BitVec.eq_of_toInt_eq
  rw [BitVec.toInt_ofInt] at h
  rw [BitVec.toInt_signExtend_of_le (by omega), BitVec.toInt_ofInt, BitVec.toInt_ofInt,
    ← Int.bmod_bmod_of_dvd (show 2 ^ 5 ∣ 2 ^ 64 by decide)]
  exact Int.bmod_eq_of_le (by omega) (by omega)

/-- R67, R145. Codes in the fields' ranges are the extension of the block they are narrowed to. -/
theorem ext_toQBlock_of_inFields {k : Codes} (h : inFields k.toPk) : ext k.toQBlock = k.toPk := by
  obtain ⟨ha, hb, hc, hd, hpb, hpr⟩ := h
  simp only [Codes.toPk] at ha hb hc hd hpb hpr
  simp only [ext, Codes.toQBlock, Codes.toPk, Pk.mk.injEq]
  exact ⟨setWidth_ofInt (by omega) (by omega), signExtend_ofInt hb, signExtend_ofInt hc, signExtend_ofInt hd,
    setWidth_ofInt (by omega) (by omega), setWidth_ofInt (by omega) (by omega)⟩

/-- R145, R148. `ENCBLK` with a nonzero `max_value` ends with the codeword of the block its `QFWD` puts out, or, only
with an infinity or a NaN among the operands of that `QFWD`, with `FATAL(INTERNAL)`. -/
theorem encblk_eq_pack (c : Config) (px : Quad Pixel) {mv : U8} (hmv : mv ≠ 0) {cw : U64}
    (hcw : pack (ext (blockCodes c px mv).toQBlock) = .ok cw) : encblk c px mv = .ok cw ∨
      (finiteOperands (blockOperands c px mv) = false ∧ encblk c px mv = .error (.fatal .internal)) := by
  rcases encblk_cases c px hmv with ⟨w, hw⟩ | hinternal
  · by_cases hin : inFields (blockCodes c px mv).toPk
    · rw [ext_toQBlock_of_inFields hin] at hcw
      exact .inl (encblk_of_pack_ok hmv hcw)
    · simp [encblk_of_pack_error hmv (pack_out hin)] at hw
  · exact .inr hinternal

/-- Settles O51: the intermediate values are those `blockOperands` and `blockCodes` name; the block always packs
(`pack_ext`), and `ENCBLK` ends with its codeword or escalates (`encblk_eq_pack`). -/
theorem encodeBlockIsTheComposition : Obligations.EncodeBlockIsTheComposition := by
  refine fun px mv s hs => ⟨?_, fun hmv => ?_⟩
  · rintro rfl
    exact exec_maxValueZero hs rfl
  · obtain ⟨cw, hcw, -⟩ := pack_ext (blockCodes s.cfg px mv).toQBlock
    refine ⟨_, _, _, _, (blockOperands s.cfg px mv).1, (blockOperands s.cfg px mv).2, (blockCodes s.cfg px mv).toQBlock,
      cw, exec_rgb2ypp_ok hs _ hmv, exec_rgb2ypp_ok hs _ hmv, exec_rgb2ypp_ok hs _ hmv, exec_rgb2ypp_ok hs _ hmv,
      exec_of_rule_ok hs rfl, exec_of_rule_ok hs rfl, exec_of_rule_ok hs rfl, exec_of_rule_ok hs (by simp [rule, hcw]),
      pack_ext_lt hcw, ?_, fun hfmt => finiteOperands_exact s.cfg hfmt px hmv⟩
    rcases encblk_eq_pack s.cfg px hmv hcw with h | ⟨hfin, h⟩
    · exact .inl (exec_of_rule_ok hs (by simp [rule, h]))
    · exact .inr ⟨hfin, exec_of_rule_fatal hs (c := .internal) (by simp [rule, h])⟩

/-! ### A uniform block (R147) -/

/-- R112, R114. Under `exact` a uniform block has its pixel's luma as average, no gradient, and its pixel's chroma. -/
theorem blockOperands_uniform {c : Config} (hc : c.fmt = .exact) {px : Pixel} {mv : U8} {y pb pr : Rat}
    (h : lumaChroma c px mv = ⟨.num y, .num pb, .num pr⟩) :
    blockOperands c (Quad.all px) mv = (⟨.num y, .num 0, .num 0, .num 0⟩, ⟨.num pb, .num pr⟩) := by
  simp only [blockOperands, Quad.all, Quad.map, h, blkfwdOf_exact c hc, cavgOf_exact c hc, Prod.mk.injEq, Coef.mk.injEq,
    Chroma.mk.injEq, RealVal.num.injEq]
  refine ⟨⟨?_, ?_, ?_, ?_⟩, ?_, ?_⟩ <;> ring

/-- R123. The gradient code of 0 is 0. -/
theorem quantG_zero : quantG .exact (.num 0) = 0 := by
  rw [quantG_exact, zero_mul, show (0 : Rat) = ((0 : Int) : Rat) from rfl, roundAway_int]
  rfl

/-- Settles O54: the operands of the `QFWD` inside are the luma of the pixel and gradients 0 (`blockOperands_uniform`),
so the codeword is that of their codes, which it unpacks to (`unpack_of_pack`). With the default matrices the luma of a
grey pixel is its level, the row's weights summing to 1. -/
theorem uniformBlockHasNoGradient : Obligations.UniformBlockHasNoGradient := by
  refine ⟨fun px mv s hs hfmt hmv => ?_, fun v mv hmv => ⟨_, rgb2ypp_ok _ _ hmv, ?_⟩⟩
  · have hluma := lumaChroma_exact s.cfg hfmt px mv hmv
    have hops := blockOperands_uniform hfmt hluma
    obtain ⟨cw, henc, hpack, -⟩ := encblk_finite s.cfg (Quad.all px) hmv (by rw [hops]; rfl)
    have hcodes : blockCodes s.cfg (Quad.all px) mv =
        quantize s.cfg (blockOperands s.cfg (Quad.all px) mv).1 (blockOperands s.cfg (Quad.all px) mv).2 :=
      codesAny_finite (by rw [hops]; rfl)
    rw [hcodes, hops] at hpack
    have hq := toQBlock_quantize s.cfg (blockOperands s.cfg (Quad.all px) mv).1 (blockOperands s.cfg (Quad.all px) mv).2
    rw [hops, ← unpack_of_pack hpack, hfmt] at hq
    obtain ⟨ha, hb, hc, hd, -⟩ := hq
    exact ⟨_, _, cw, rgb2ypp_ok s.cfg px hmv, by rw [hluma], exec_of_rule_ok hs (by simp [rule, henc]),
      BitVec.eq_of_toInt_eq (hb.trans quantG_zero), BitVec.eq_of_toInt_eq (hc.trans quantG_zero),
      BitVec.eq_of_toInt_eq (hd.trans quantG_zero), ha.trans (quantA_exact _)⟩
  · rw [lumaChroma_exact _ rfl _ _ hmv, RealVal.num.injEq]
    refine (rowSum_colorFwd _ _ _).1.trans ?_
    ring

end Sys2Proof.Machine
end

section
/-! PROOFS. Rounding (R17; log entry 4): to nearest, ties to even, overflow; and each operation as its exact result
rounded once. -/

namespace Sys2Proof.Reals

open Sys2Proof.Machine

/-! ### The rounded magnitude -/

/-- How many units in the last place a magnitude is rounded to. -/
def units (f : RealFmt) (a : Rat) : Int := roundHalfEven (a / pow2 (ulpExp f a))

/-- The magnitude of a positive rational rounded, before an overflow is looked for. -/
def magnitude (f : RealFmt) (a : Rat) : Rat := units f a * pow2 (ulpExp f a)

theorem isOfFormat_num_zero (f : RealFmt) : isOfFormat f (.num 0) = true := by cases f <;> rfl

section
variable {f : RealFmt} (hf : f ≠ .exact)
include hf

/-- R17. A nonzero rational is rounded to an infinity from the overflow bound on, and else to its rounded magnitude
with its sign. -/
theorem lit_cases {q : Rat} (hq : q ≠ 0) :
    (lit f q = .inf (decide (q < 0)) ∧ overflowBound f ≤ |q|) ∨
    (|q| < overflowBound f ∧ magnitude f |q| < pow2 (maxExp f + 1) ∧
      (lit f q).value? = some (if q < 0 then -magnitude f |q| else magnitude f |q|)) := by
  have hover := overflow_iff hf (abs_pos.mpr hq)
  rcases lit_value hf hq with ⟨hinf, h⟩ | ⟨hlt, hvalue⟩
  · exact .inl ⟨hinf, hover.mp h⟩
  · exact .inr ⟨not_le.mp fun hle => not_lt.mpr (hover.mpr hle) hlt, hlt, hvalue⟩

/-- R17. No value of the format, of either sign, is nearer to a positive rational than its rounded magnitude, and one
as near leaves an even number of units. -/
theorem magnitude_nearest {a u : Rat} (ha : 0 < a) (hu : isOfFormat f (.num u) = true) :
    |a - magnitude f a| ≤ |a - u| ∧
      (u ≠ magnitude f a → |a - u| = |a - magnitude f a| → units f a % 2 = 0) := by
  rcases le_or_gt 0 u with hu0 | hu0
  · exact near_pos hf ha hu0 hu
  · have hzero := (near_pos hf ha le_rfl (isOfFormat_num_zero f)).1
    have hlt : |a - magnitude f a| < |a - u| := by
      refine lt_of_le_of_lt hzero ?_
      rw [sub_zero, abs_of_pos ha, abs_of_pos (by linarith)]
      linarith
    exact ⟨hlt.le, fun _ h => absurd h hlt.ne'⟩

/-- R17. An even number of units is an even significand. -/
theorem exists_even_parts {a : Rat} (ha : 0 < a) (hmax : magnitude f a < pow2 (maxExp f + 1))
    (heven : units f a % 2 = 0) : ∃ k e : Int, floatParts f k e ∧ magnitude f a = k * (2 : Rat) ^ e ∧ k % 2 = 0 := by
  obtain ⟨h0, h1⟩ := units_bounds hf ha
  obtain ⟨k, e, hparts, -, hk, hk2⟩ := parts_of_units hf h0 h1 (units_full hf ha) hmax
  exact ⟨k, e, hparts, hk, hk2 heven⟩

theorem floatParts_neg {k e : Int} (h : floatParts f k e) : floatParts f (-k) e := by
  rw [parts_iff hf] at h ⊢
  rwa [abs_neg]

/-- R17. What a rational is rounded to is nearest, and with another value as near its significand is even. -/
theorem value_nearest {q v : Rat} (hv : (lit f q).value? = some v) {u : Rat} (hu : isOfFormat f (.num u) = true) :
    |q - v| ≤ |q - u| ∧ (u ≠ v → |q - u| = |q - v| →
      ∃ k e : Int, floatParts f k e ∧ v = k * (2 : Rat) ^ e ∧ k % 2 = 0) := by
  by_cases hq : q = 0
  · subst hq
    obtain rfl : v = 0 := by rw [lit_zero] at hv; cases hv; rfl
    refine ⟨by simp, fun hne h => absurd ?_ hne⟩
    simpa using h
  · have ha := abs_pos.mpr hq
    rcases lit_cases hf hq with ⟨hinf, -⟩ | ⟨-, hmax, hvalue⟩
    · rw [hinf] at hv
      cases hv
    rw [hvalue] at hv
    cases hv
    rcases lt_or_ge q 0 with hneg | hpos
    · rw [if_pos hneg]
      rw [abs_of_neg hneg] at ha hmax ⊢
      obtain ⟨hle, htie⟩ := magnitude_nearest hf ha (isOfFormat_of_abs (abs_neg u) hu)
      have flip (x : Rat) : |q - x| = |-q - -x| := by rw [← abs_neg]; ring_nf
      rw [flip, flip u, neg_neg]
      refine ⟨hle, fun hne h => ?_⟩
      obtain ⟨k, e, hparts, hk, hk2⟩ := exists_even_parts hf ha hmax (htie (fun h => hne (by linarith)) h)
      exact ⟨-k, e, floatParts_neg hf hparts, by rw [hk]; push_cast; ring, by omega⟩
    · rw [if_neg (not_lt.mpr hpos)]
      rw [abs_of_nonneg hpos] at ha hmax ⊢
      obtain ⟨hle, htie⟩ := magnitude_nearest hf ha hu
      exact ⟨hle, fun hne h => exists_even_parts hf ha hmax (htie hne h)⟩

/-- R17. A rational is rounded to an infinity exactly from the overflow bound on, of its sign. -/
theorem lit_eq_inf_iff (q : Rat) (negative : Bool) :
    lit f q = .inf negative ↔ overflowBound f ≤ |q| ∧ negative = decide (q < 0) := by
  by_cases hq : q = 0
  · subst hq
    have hpos : 0 < overflowBound f := by
      rw [bound_eq hf]
      have := precision_pos hf
      exact sub_pos.mpr (pow2_lt.mpr (by omega))
    rw [lit_zero, abs_zero]
    exact iff_of_false nofun fun h => absurd h.1 (not_le.mpr hpos)
  · rcases lit_cases hf hq with ⟨hinf, hover⟩ | ⟨hlt, -, hvalue⟩
    · rw [hinf, RealVal.inf.injEq]
      exact ⟨fun h => ⟨hover, h.symm⟩, fun h => h.2.symm⟩
    · refine iff_of_false (fun h => ?_) fun h => absurd h.1 (not_le.mpr hlt)
      rw [h] at hvalue
      cases hvalue

end

/-- Settles O57: what a rational is rounded to belongs to the format (`lit_ofFormat`) and is nearest, ties to even
(`value_nearest`); overflow is `lit_eq_inf_iff`; the values of a port are those of `floatValue` (`floatValue_iff`). -/
theorem roundingIsToNearest : Obligations.RoundingIsToNearest := by
  refine fun f q hf => ⟨fun v hv => ⟨?_, fun u hu => ?_, fun u hu => ?_⟩, lit_eq_inf_iff hf q, lit_ne_nan f q,
    floatValue_iff hf q⟩
  · exact (floatValue_iff hf v).mp (ofFormat_value (lit_ofFormat f q) hv)
  · exact (value_nearest hf hv ((floatValue_iff hf u).mpr hu)).1
  · exact (value_nearest hf hv ((floatValue_iff hf u).mpr hu)).2

/-! ### Operations (R17) -/

/-- R17. The zero a nonnegative rational underflows to is the positive one. -/
theorem lit_ne_negZero {q : Rat} (h : 0 ≤ q) (f : RealFmt) : lit f q ≠ .negZero := by
  by_cases hf : f = .exact
  · subst hf; nofun
  have hsign : decide (q < 0) = false := by simpa using h
  have hzero : zero f false = .num 0 := by cases f <;> rfl
  rw [lit_float hf, roundFloat_eq, hsign, hzero]
  split
  · nofun
  · split
    · nofun
    · split <;> nofun

theorem precision_le_maxExp {f : RealFmt} (hf : f ≠ .exact) : 0 ≤ maxExp f - precision f := by
  cases f with
  | exact => exact absurd rfl hf
  | binary32 => decide
  | binary64 => decide

/-- A magnitude of a floating-point format stays a whole step below the bound from which a rational overflows. -/
theorem abs_add_half_lt {f : RealFmt} (hf : f ≠ .exact) {p : Rat} (h : isOfFormat f (.num p) = true) :
    |p| + 1 / 2 < overflowBound f := by
  obtain ⟨k, e, hparts, hp⟩ := (floatValue_iff hf p).mp h
  obtain ⟨hk, -, he, -⟩ := (parts_iff hf k e).mp hparts
  have hstep : pow2 (maxExp f - (precision f - 1)) = 2 * pow2 (maxExp f - precision f) := by
    rw [show maxExp f - (precision f - 1) = 1 + (maxExp f - precision f) by ring, pow2_add]
    rfl
  have hone : 1 ≤ pow2 (maxExp f - precision f) := by
    rw [show (1 : Rat) = pow2 0 from rfl]
    exact pow2_le.mpr (precision_le_maxExp hf)
  have htop : pow2 (maxExp f + 1) = steps f * pow2 (maxExp f - (precision f - 1)) := by
    rw [steps_pow2 hf, ← pow2_add]
    congr 1
    ring
  have hk1 : (|k| : Rat) ≤ steps f - 1 := by exact_mod_cast Int.le_sub_one_of_lt hk
  have habs : |p| ≤ (steps f - 1) * pow2 (maxExp f - (precision f - 1)) := by
    rw [hp, abs_mul, ← pow2_eq, abs_of_pos (pow2_pos e)]
    exact mul_le_mul hk1 (pow2_le.mpr he) (pow2_pos e).le ((abs_nonneg _).trans hk1)
  rw [bound_eq hf, htop]
  rw [sub_mul, one_mul] at habs
  linarith

/-- R17. `rha` of a finite value, where its magnitude and 1/2 add up to a number. -/
theorem rha_of_value {f : RealFmt} {x : RealVal} {p w : Rat} (ex : x.value? = some p)
    (hw : lit f (|p| + 1 / 2) = .num w) : rha? f x = some (signInt x * w.floor) := by
  simp only [rha?, abs_value ex, add, hw]

/-- R17. The sum inside `rha` does not overflow for a value of the format. -/
theorem exists_lit_add_half {f : RealFmt} {p : Rat} (h : isOfFormat f (.num p) = true) :
    ∃ w, lit f (|p| + 1 / 2) = .num w := by
  have hpos : 0 ≤ |p| + 1 / 2 := by positivity
  by_cases hf : f = .exact
  · subst hf
    exact ⟨_, rfl⟩
  cases hw : lit f (|p| + 1 / 2) with
  | num w => exact ⟨w, rfl⟩
  | negZero => exact absurd hw (lit_ne_negZero hpos f)
  | inf b =>
    have hover := ((lit_eq_inf_iff hf _ b).mp hw).1
    rw [abs_of_nonneg hpos] at hover
    exact absurd (abs_add_half_lt hf h) (not_lt.mpr hover)
  | nan => exact absurd hw (lit_ne_nan f _)

/-- Settles O58: each operation by its own lemma (`add_rounded`, `mul_rounded`, `div_rounded`; a difference is a sum with
`neg`), and `rha` by `rha_of_value`, its sum being a number (`exists_lit_add_half`). -/
theorem eachOperatorRoundsTheExactResult : Obligations.EachOperatorRoundsTheExactResult := by
  refine ⟨fun _ => rfl, fun f x y p q hx hy ex ey => ?_⟩
  have hsub : isRounded f (p - q) (sub f x y) :=
    sub_eq_add_neg p q ▸ add_rounded hx (neg_ofFormat hy) ex (neg_value ey)
  obtain ⟨w, hw⟩ := exists_lit_add_half (ofFormat_value hx ex)
  exact ⟨add_rounded hx hy ex ey, hsub, mul_rounded ex ey, div_rounded ex ey, lt_value ex ey, by rw [abs_value ex]; rfl,
    fun lo hi => clamp_value ex, w, hw, by rw [rha_of_value ex hw, signInt_value ex]⟩

end Sys2Proof.Reals
end

section
/-! PROOFS. Bounds through rounded operations, under every `REAL_FMT` (R17): a bound that is a value of the format is
kept by rounding, where a result past it may be an infinity. -/

namespace Sys2Proof.Reals

open Sys2Proof.Machine

/-- The factor of a sign. -/
def side (negative : Bool) : Rat := if negative then -1 else 1

/-- On the given side of 0 a value of the format lies at `b` or beyond, the infinity of that side included. -/
def Beyond (f : RealFmt) (negative : Bool) (b : Rat) (x : RealVal) : Prop :=
  x = .inf negative ∨ ∃ v, x.value? = some v ∧ isOfFormat f (.num v) = true ∧ b ≤ side negative * v

/-- A finite value between two bounds. -/
def Between (lo hi : Rat) (x : RealVal) : Prop := ∃ v, x.value? = some v ∧ lo ≤ v ∧ v ≤ hi

theorem side_mul_self (negative : Bool) : side negative * side negative = 1 := by cases negative <;> norm_num [side]

theorem abs_side (negative : Bool) : |side negative| = 1 := by cases negative <;> norm_num [side]

/-- R17. Half integers of at most 24 bits are values of every format. -/
theorem isOfFormat_half (f : RealFmt) {n : Int} (h : |n| ≤ 2 ^ 24) : isOfFormat f (.num (n / 2)) = true := by
  by_cases hf : f = .exact
  · subst hf; rfl
  by_cases hn : n = 0
  · subst hn
    rw [Int.cast_zero, zero_div]
    exact isOfFormat_num_zero f
  have hsteps : 2 ^ 24 ≤ steps f := by
    cases f with
    | exact => exact absurd rfl hf
    | binary32 => rw [steps_binary32]; norm_num
    | binary64 => rw [steps_binary64]; norm_num
  have hexp : minExp f - (precision f - 1) ≤ -1 ∧ 23 < maxExp f + 1 := by
    cases f with
    | exact => exact absurd rfl hf
    | binary32 => decide
    | binary64 => decide
  have hhalf : pow2 (-1) = 1 / 2 := by rw [pow2_eq]; norm_num
  have habs : |(n / 2 : Rat)| = (|n| : Int) * pow2 (-1) := by
    rw [hhalf, abs_div, abs_of_pos (show (0 : Rat) < 2 by norm_num)]
    push_cast
    ring
  refine isOfFormat_steps hf (abs_pos.mpr hn) (h.trans hsteps) hexp.1 habs ?_
  have h24 : ((|n| : Int) : Rat) ≤ 2 ^ 24 := by exact_mod_cast h
  calc |(n / 2 : Rat)| = (|n| : Int) * (1 / 2) := by rw [habs, hhalf]
    _ ≤ pow2 23 := by rw [pow2_eq]; norm_num at h24 ⊢; linarith
    _ < pow2 (maxExp f + 1) := pow2_lt.mpr hexp.2

/-- R17. Integers of at most 23 bits are values of every format. -/
theorem isOfFormat_int (f : RealFmt) {n : Int} (h : |n| ≤ 2 ^ 23) : isOfFormat f (.num n) = true := by
  have h2 : |2 * n| ≤ 2 ^ 24 := by rw [abs_mul, abs_two]; linarith
  have e : (((2 * n : Int) : Rat) / 2) = n := by push_cast; ring
  exact e ▸ isOfFormat_half f h2

/-- R17. Rounding keeps a rational beyond a bound that is a value of the format. -/
theorem beyond_lit {f : RealFmt} {negative : Bool} {b q : Rat} (hb : isOfFormat f (.num b) = true)
    (h : b ≤ side negative * q) : Beyond f negative b (lit f q) := by
  by_cases hf : f = .exact
  · subst hf
    exact .inr ⟨q, rfl, rfl, h⟩
  have hside := side_mul_self negative
  have hsb : isOfFormat f (.num (side negative * b)) = true :=
    isOfFormat_of_abs (by rw [abs_mul, abs_side, one_mul]) hb
  have finite {v : Rat} (hv : (lit f q).value? = some v) : Beyond f negative b (lit f q) := by
    refine .inr ⟨v, hv, ofFormat_value (lit_ofFormat f q) hv, ?_⟩
    by_contra hlt
    rw [not_le] at hlt
    have hnear := (value_nearest hf hv hsb).1
    have flip (x : Rat) : |q - x| = |side negative * q - side negative * x| := by
      rw [← mul_sub, abs_mul, abs_side, one_mul]
    rw [flip, flip (side negative * b), ← mul_assoc, hside, one_mul, abs_of_pos (by linarith),
      abs_of_nonneg (by linarith)] at hnear
    linarith
  cases hlit : lit f q with
  | num v => exact hlit ▸ finite (by rw [hlit]; rfl)
  | negZero => exact hlit ▸ finite (by rw [hlit]; rfl)
  | nan => exact absurd hlit (lit_ne_nan f q)
  | inf negative' =>
    obtain ⟨hover, rfl⟩ := (lit_eq_inf_iff hf q negative').mp hlit
    refine .inl (congrArg _ ?_)
    by_contra hne
    have hq : side negative * q ≤ -|q| := by
      cases negative with
      | true =>
        have : ¬ q < 0 := by simpa using hne
        rw [abs_of_nonneg (not_lt.mp this)]
        simp [side]
      | false =>
        have : q < 0 := by simpa using hne
        rw [abs_of_neg this]
        simp [side]
    have hbig := abs_add_half_lt hf hb
    have := neg_le_abs b
    linarith

/-- R17. A rounded result is beyond a bound of the format where the exact one is. -/
theorem Beyond.of_isRounded {f : RealFmt} {negative : Bool} {b r : Rat} {z : RealVal} (hz : isRounded f r z)
    (hb : isOfFormat f (.num b) = true) (h : b ≤ side negative * r) : Beyond f negative b z := by
  unfold isRounded at hz
  split at hz
  · rename_i hr
    exact .inr ⟨0, hz, isOfFormat_num_zero f, by simpa [hr] using h⟩
  · exact hz ▸ beyond_lit hb h

/-- R17. A rounded result lies between two bounds of the format where the exact one does. -/
theorem Between.of_isRounded {f : RealFmt} {lo hi r : Rat} {z : RealVal} (hz : isRounded f r z)
    (hlo : isOfFormat f (.num lo) = true) (hhi : isOfFormat f (.num hi) = true) (h1 : lo ≤ r) (h2 : r ≤ hi) :
    Between lo hi z := by
  have hneg : isOfFormat f (.num (-hi)) = true := isOfFormat_of_abs (abs_neg hi) hhi
  have above : Beyond f false lo z := .of_isRounded hz hlo (by simpa [side] using h1)
  have below : Beyond f true (-hi) z := .of_isRounded hz hneg (by simpa [side] using h2)
  rcases above with rfl | ⟨v, hv, -, hlov⟩
  · rcases below with h | ⟨v, hv, -⟩
    · cases h
    · cases hv
  · rcases below with rfl | ⟨v', hv', -, hhiv⟩
    · cases hv
    · rw [hv] at hv'
      cases hv'
      exact ⟨v, hv, by simpa [side] using hlov, by simpa [side] using hhiv⟩

theorem isRounded_lit {f : RealFmt} (q : Rat) : isRounded f q (lit f q) := by
  unfold isRounded
  split
  · rename_i h
    rw [h, lit_zero]
    rfl
  · rfl

/-- R17. Rounding is symmetric. -/
theorem lit_neg_value {f : RealFmt} {q v : Rat} (h : (lit f q).value? = some v) : (lit f (-q)).value? = some (-v) := by
  by_cases hf : f = .exact
  · subst hf; cases h; rfl
  by_cases hq : q = 0
  · subst hq
    rw [lit_zero] at h
    cases h
    rw [neg_zero, lit_zero]
    rfl
  rcases lit_cases hf hq with ⟨hinf, -⟩ | ⟨hlt, -, hvalue⟩
  · rw [hinf] at h
    cases h
  rcases lit_cases hf (neg_ne_zero.mpr hq) with ⟨-, hover⟩ | ⟨-, -, hvalue'⟩
  · exact absurd hover (by rw [abs_neg]; exact not_le.mpr hlt)
  · rw [hvalue] at h
    cases h
    rw [hvalue', abs_neg, Option.some.injEq]
    rcases lt_or_gt_of_ne hq with hneg | hpos
    · rw [if_pos hneg, if_neg (by linarith), neg_neg]
    · rw [if_pos (show -q < 0 by linarith), if_neg (show ¬ q < 0 by linarith)]

theorem isFinite_of_value {x : RealVal} {p : Rat} (h : x.value? = some p) : x.isFinite = true := by
  rw [RealVal.isFinite, h]
  rfl

theorem exists_value {x : RealVal} (h : x.isFinite = true) : ∃ p, x.value? = some p := Option.isSome_iff_exists.mp h

theorem Between.isFinite {lo hi : Rat} {x : RealVal} (h : Between lo hi x) : x.isFinite = true := by
  obtain ⟨v, hv, -⟩ := h
  exact isFinite_of_value hv

/-- R17. The factor on the right is a positive number. -/
theorem Beyond.mul {f : RealFmt} {negative : Bool} {b c : Rat} {x : RealVal} (h : Beyond f negative b x) (hc : 0 < c)
    (hbc : isOfFormat f (.num (b * c)) = true) : Beyond f negative (b * c) (mul f x (.num c)) := by
  rcases h with rfl | ⟨v, hv, -, hle⟩
  · have hsign : decide (c < 0) = false := by simpa using hc.le
    exact .inl (by simp [Reals.mul, RealVal.value?, hc.ne', signBit, hsign])
  · refine .of_isRounded (mul_rounded hv rfl) hbc ?_
    rw [← mul_assoc]
    exact mul_le_mul_of_nonneg_right hle hc.le

/-- R17. The sign of a number other than 0 is that of the side it lies on. -/
theorem signInt_of_side {negative : Bool} {x : RealVal} {v : Rat} (hv : x.value? = some v) (hv0 : v ≠ 0)
    (h : 0 ≤ side negative * v) : signInt x = if negative then -1 else 1 := by
  rw [signInt_value hv, if_neg hv0]
  cases negative with
  | true =>
    have hneg : v ≤ 0 := by simpa [side] using h
    simp [lt_of_le_of_ne hneg hv0]
  | false =>
    have hpos : 0 ≤ v := by simpa [side] using h
    simp [not_lt.mpr hpos]

/-- R17. `rha` of a number beyond an integer bound of at least 0 is an integer beyond it. -/
theorem rha_of_beyond {f : RealFmt} {negative : Bool} {n : Int} {x : RealVal} (h : Beyond f negative n x) (hn0 : 0 ≤ n)
    (hfmt : isOfFormat f (.num n) = true) :
    x = .inf negative ∨ ∃ m, rha? f x = some m ∧ n ≤ if negative then -m else m := by
  rcases h with hinf | ⟨v, hv, hvfmt, hle⟩
  · exact .inl hinf
  obtain ⟨w, hw⟩ := exists_lit_add_half hvfmt
  refine .inr ⟨_, rha_of_value hv hw, ?_⟩
  rcases eq_or_ne v 0 with rfl | hv0
  · rw [mul_zero] at hle
    have hn : n ≤ 0 := by exact_mod_cast hle
    simpa [signInt_value hv] using hn
  have habs : (n : Rat) ≤ side false * (|v| + 1 / 2) := by
    have hle' := hle.trans (le_abs_self _)
    rw [abs_mul, abs_side] at hle'
    rw [side, if_neg (by decide)]
    linarith
  have hfloor : n ≤ w.floor := by
    rcases beyond_lit hfmt habs with hinf | ⟨w', hw', -, hle'⟩
    · rw [hw] at hinf
      cases hinf
    · rw [hw] at hw'
      cases hw'
      exact Int.le_floor.mpr (by simpa [side] using hle')
  rw [signInt_of_side hv hv0 (le_trans (by exact_mod_cast hn0) hle)]
  cases negative <;> simpa using hfloor

end Sys2Proof.Reals
end

section
/-! PROOFS. Ranges under every `REAL_FMT`: channels (R102) and codes (R123), also where a format overflows. -/

namespace Sys2Proof.Machine
open Reals

theorem freeUpTo_le (free : Nat → BitVec 64) (slot : Nat) (mv : U8) : (freeUpTo free slot mv).toNat ≤ mv.toNat := by
  have hlt := mv.isLt
  have hmod := Nat.mod_lt (free slot).toNat (show 0 < mv.toNat + 1 by omega)
  rw [freeUpTo, BitVec.toNat_ofNat, Nat.mod_eq_of_lt (by omega)]
  omega

/-- R102. Whatever is clamped to [0,1] is a number there, unless it is a NaN. -/
theorem between_clamp {x : RealVal} (h : x ≠ .nan) : Between 0 1 (clamp x (.num 0) (.num 1)) := by
  have ofValue {p : Rat} (hp : x.value? = some p) : Between 0 1 (clamp x (.num 0) (.num 1)) :=
    ⟨_, clamp_value hp zero_le_one, le_max_left _ _, max_le zero_le_one (min_le_left _ _)⟩
  cases x with
  | num q => exact ofValue rfl
  | negZero => exact ofValue rfl
  | inf negative => cases negative <;> exact ⟨_, rfl, by norm_num, by norm_num⟩
  | nan => exact absurd rfl h

/-- R17. `rha` of a number in `0 .. m` is an integer there. -/
theorem rha_range {f : RealFmt} {x : RealVal} {m : Nat} (hm : m ≤ 255) (h : Between 0 m x) {n : Int}
    (hn : rha? f x = some n) : 0 ≤ n ∧ n ≤ m := by
  obtain ⟨v, hv, h0, h1⟩ := h
  have hhalf : isOfFormat f (.num (m + 1 / 2)) = true := by
    have := isOfFormat_half f (n := 2 * m + 1) (by rw [abs_of_nonneg] <;> omega)
    rwa [show (((2 * m + 1 : Int) : Rat) / 2) = m + 1 / 2 by push_cast; ring] at this
  obtain ⟨w, hw, hw0, hw1⟩ : Between 0 (m + 1 / 2) (lit f (|v| + 1 / 2)) :=
    .of_isRounded (isRounded_lit _) (isOfFormat_num_zero f) hhalf (by positivity)
      (by rw [abs_of_nonneg h0]; linarith)
  have hnum : lit f (|v| + 1 / 2) = .num w := by
    have hz := lit_ne_negZero (show 0 ≤ |v| + 1 / 2 by positivity) f
    cases hl : lit f (|v| + 1 / 2) <;> rw [hl] at hw hz <;> cases hw
    · rfl
    · exact absurd rfl hz
  rw [rha_of_value hv hnum, Option.some.injEq, signInt_value hv, if_neg (not_lt.mpr h0)] at hn
  have hfloor0 : 0 ≤ w.floor := Int.floor_nonneg.mpr hw0
  have hfloor1 : w.floor < (m : Int) + 1 := (Int.floor_lt (a := w)).mpr (by push_cast; linarith)
  split_ifs at hn <;> omega

/-- R102. A channel lies in `0 .. max_value`, whatever its row gives. -/
theorem channel_le (f : RealFmt) (free : Nat → BitVec 64) (slot : Nat) (x : RealVal) (mv : U8) :
    (channel f free slot x mv).toNat ≤ mv.toNat := by
  have hlt := mv.isLt
  unfold channel
  cases hn : rha? f (mul f (clamp x (.num 0) (.num 1)) (ofInt mv.toNat)) with
  | none => exact freeUpTo_le free slot mv
  | some n =>
    have hx : x ≠ .nan := by
      rintro rfl
      exact rha_ne_nan hn rfl
    obtain ⟨v, hv, h0, h1⟩ := between_clamp hx
    have hmv : isOfFormat f (.num (mv.toNat : Int)) = true := isOfFormat_int f (by rw [abs_of_nonneg] <;> omega)
    have hscaled : Between 0 mv.toNat (mul f (clamp x (.num 0) (.num 1)) (ofInt mv.toNat)) :=
      .of_isRounded (mul_rounded hv rfl) (isOfFormat_num_zero f) hmv (by positivity)
        (by push_cast; exact mul_le_of_le_one_left (by positivity) h1)
    obtain ⟨hn0, hn1⟩ := rha_range (by omega) hscaled hn
    simp only [BitVec.toNat_ofInt]
    omega

theorem tristimulus_channels_le (c : Config) (free : Nat → BitVec 64) (y pb pr : RealVal) (mv : U8) :
    let p := tristimulus c free y pb pr mv
    p.r.toNat ≤ mv.toNat ∧ p.g.toNat ≤ mv.toNat ∧ p.b.toNat ≤ mv.toNat :=
  ⟨channel_le _ _ _ _ _, channel_le _ _ _ _ _, channel_le _ _ _ _ _⟩

/-- Settles O60: finite operands are answered their pixel (`exec_ypp2rgb_ok`), each channel of which is within
`max_value` whatever its row gives (`channel_le`). -/
theorem channelsNeverExceedMaxValue : Obligations.ChannelsNeverExceedMaxValue := fun _ _ _ mv s hs hmv hfin =>
  ⟨_, exec_ypp2rgb_ok hs hmv hfin, tristimulus_channels_le s.cfg _ _ _ _ mv⟩

/-- R123. A scaled value at a clamp's bound or beyond has the code of that bound, also as an infinity. -/
theorem roundClamp_of_beyond {f : RealFmt} {negative : Bool} {lo hi : Int} {x : RealVal} (hlo : lo ≤ 0) (hhi : 0 ≤ hi)
    (hfmt : isOfFormat f (.num ((if negative then -lo else hi : Int) : Rat)) = true)
    (h : Beyond f negative ((if negative then -lo else hi : Int) : Rat) x) :
    roundClamp f lo hi x = if negative then lo else hi := by
  rcases rha_of_beyond h (by split <;> omega) hfmt with rfl | ⟨m, hm, hle⟩
  · rfl
  · rw [roundClamp, hm]
    simp only [clampInt_eq _ _ _ (hlo.trans hhi)]
    split_ifs at hle ⊢ <;> omega

/-- R123. An average code saturates from the bounds of its range on. -/
theorem quantA_of_beyond {f : RealFmt} {x : RealVal} {p : Rat} (hx : x.value? = some p) (negative : Bool)
    (h : ((if negative then 0 else 511 : Int) : Rat) ≤ side negative * (p * 511)) :
    quantA f x = if negative then 0 else 511 := by
  have hfmt : isOfFormat f (.num ((if negative then 0 else 511 : Int) : Rat)) = true :=
    isOfFormat_int f (by split <;> norm_num)
  exact roundClamp_of_beyond (lo := 0) (hi := 511) le_rfl (by norm_num) hfmt
    (.of_isRounded (mul_rounded hx rfl) hfmt h)

theorem gLim_eq : Params.gLim = 3 / 10 := by norm_num [Params.gLim]

/-- R120. The literal 0.3 as a format rounds it. -/
theorem exists_lit_gLim (f : RealFmt) : ∃ c : Rat, lit f Params.gLim = .num c ∧ 0 < c ∧ c ≤ 1 / 2 := by
  obtain ⟨c, hne, hc⟩ := lit_gLim f
  have hhalf : isOfFormat f (.num (1 / 2)) = true := by simpa using isOfFormat_half f (n := 1) (by norm_num)
  obtain ⟨v, hv, h0, h1⟩ : Between 0 (1 / 2) (lit f Params.gLim) :=
    .of_isRounded (isRounded_lit _) (isOfFormat_num_zero f) hhalf (by rw [gLim_eq]; norm_num)
      (by rw [gLim_eq]; norm_num)
  rw [hc] at hv
  cases hv
  exact ⟨c, hc, lt_of_le_of_ne h0 (Ne.symm hne), h1⟩

/-- R123. A gradient code saturates from the coefficient ±0.3 on, as the format rounds it. -/
theorem quantG_of_beyond {f : RealFmt} {x : RealVal} {p c : Rat} (hx : x.value? = some p)
    (hc : lit f Params.gLim = .num c) (hc0 : 0 < c) (negative : Bool) (h : c ≤ side negative * p) :
    quantG f x = if negative then -15 else 15 := by
  have hfmt : isOfFormat f (.num 15) = true := isOfFormat_int f (n := 15) (by norm_num)
  have hdiv : Beyond f negative 1 (div f x (.num c)) := by
    refine .of_isRounded (div_rounded hx rfl hc0.ne') (isOfFormat_int f (n := 1) (by norm_num)) ?_
    rw [← mul_div_assoc]
    exact (one_le_div hc0).mpr h
  have hmul : Beyond f negative 15 (mul f (div f x (.num c)) (.num 15)) := by
    simpa using hdiv.mul (by norm_num) (by simpa using hfmt)
  rw [quantG, hc]
  exact roundClamp_of_beyond (lo := -15) (hi := 15) (by norm_num) (by norm_num) (by cases negative <;> exact hfmt)
    (by cases negative <;> exact hmul)

/-- Settles O59: the codes are those of `toQBlock_quantize`, and each saturates where its exact quotient or product
reaches the bound of its range (`quantA_of_beyond`, `quantG_of_beyond`). -/
theorem quantizerSaturatesUnderEveryFormat : Obligations.QuantizerSaturatesUnderEveryFormat := by
  intro k pb pr s hs hfin
  obtain ⟨ha, hb, hc, hd, -⟩ := toQBlock_quantize s.cfg k ⟨pb, pr⟩
  refine ⟨_, exec_qfwd_ok hs hfin, fun h => ?_, fun h => ?_, ?_⟩
  all_goals simp only [allFinite, List.all_cons, List.all_nil, Bool.and_true, Bool.and_eq_true] at hfin
  all_goals obtain ⟨fa, fb, fc, fd, -⟩ := hfin
  · obtain ⟨p, hp⟩ := exists_value fa
    rw [lt_value rfl hp, decide_eq_true_iff] at h
    exact_mod_cast ha.trans (quantA_of_beyond hp false (by simp [side]; linarith))
  · obtain ⟨p, hp⟩ := exists_value fa
    rw [lt_value hp rfl, decide_eq_true_iff] at h
    exact_mod_cast ha.trans (quantA_of_beyond hp true (by simp [side]; linarith))
  · obtain ⟨c, hlit, hc0, -⟩ := exists_lit_gLim s.cfg.fmt
    have saturates {x : RealVal} {code : S5} (hx : x.isFinite = true) (hcode : code.toInt = quantG s.cfg.fmt x) :
        (lt x (lit s.cfg.fmt (3 / 10)) = false → code.toInt = 15) ∧
          (lt (lit s.cfg.fmt (-(3 / 10))) x = false → code.toInt = -15) := by
      obtain ⟨p, hp⟩ := exists_value hx
      rw [← gLim_eq]
      have hpos : (lit s.cfg.fmt Params.gLim).value? = some c := by rw [hlit]; rfl
      rw [lt_value hp hpos, lt_value (lit_neg_value hpos) hp, decide_eq_false_iff_not, decide_eq_false_iff_not, hcode]
      refine ⟨fun h => ?_, fun h => ?_⟩
      · exact quantG_of_beyond hp hlit hc0 false (by simp [side]; linarith)
      · exact quantG_of_beyond hp hlit hc0 true (by simp [side]; linarith)
    intro x code hmem
    simp only [List.mem_cons, Prod.mk.injEq, List.not_mem_nil, or_false] at hmem
    rcases hmem with ⟨rfl, rfl⟩ | ⟨rfl, rfl⟩ | ⟨rfl, rfl⟩
    · exact saturates fb hb
    · exact saturates fc hc
    · exact saturates fd hd

end Sys2Proof.Machine
end

section
/-! PROOFS. The real-valued commands under every `REAL_FMT` (R17): one operation of the format per written operator. -/

namespace Sys2Proof.Machine
open Reals

theorem cLim_eq : Params.cLim = 1 / 2 := by norm_num [Params.cLim]

/-- R123. A rounded value is clamped. -/
theorem roundClamp_of_some {f : RealFmt} {lo hi n : Int} {x : RealVal} (h : lo ≤ hi) (hn : rha? f x = some n) :
    roundClamp f lo hi x = max lo (min hi n) := by
  rw [roundClamp, hn]
  exact clampInt_eq _ _ _ h

/-- R102. A channel whose row is no NaN. -/
theorem channel_of_some {f : RealFmt} {x : RealVal} {mv : U8} {n : Int}
    (h : rha? f (mul f (clamp x (.num 0) (.num 1)) (.num mv.toNat)) = some n) (free : Nat → BitVec 64) (slot : Nat) :
    channel f free slot x mv = BitVec.ofInt 8 n := by
  rw [channel, ofInt, Int.cast_natCast, h]

/-- R122. The chroma index is the first of the nearest entries to the clamped mean. -/
theorem firstNearest_quantC (c : Config) {x : RealVal} (hx : x.isFinite = true) :
    firstNearest c (clamp x (.num (-(1 / 2))) (.num (1 / 2))) (quantC c x) := by
  obtain ⟨p, hp⟩ := exists_value hx
  have hclamp := clamp_value hp (show -(1 / 2 : Rat) ≤ 1 / 2 by norm_num)
  rw [quantC, cLim_eq]
  exact indexOfChroma_first c _ (isFinite_of_value hclamp)

/-- R123. The average code, by its scaled value rounded or overflowed. -/
theorem quantA_cases (f : RealFmt) (x : RealVal) :
    (∀ v : Int, rha? f (mul f x (.num 511)) = some v → quantA f x = max 0 (min 511 v)) ∧
      ∀ negative, mul f x (.num 511) = .inf negative → quantA f x = if negative then 0 else 511 :=
  ⟨fun _ => roundClamp_of_some (lo := 0) (hi := 511) (by norm_num), fun negative h => by
    have e : quantA f x = roundClamp f 0 511 (mul f x (.num 511)) := rfl
    rw [e, h]
    rfl⟩

/-- R123. A gradient code, by its scaled value rounded or overflowed. -/
theorem quantG_cases (f : RealFmt) (x : RealVal) :
    (∀ v : Int, rha? f (mul f (div f x (lit f (3 / 10))) (.num 15)) = some v → quantG f x = max (-15) (min 15 v)) ∧
      ∀ negative, mul f (div f x (lit f (3 / 10))) (.num 15) = .inf negative →
        quantG f x = if negative then -15 else 15 := by
  have e : quantG f x = roundClamp f (-15) 15 (mul f (div f x (lit f (3 / 10))) (.num 15)) := by
    rw [quantG, gLim_eq]
    rfl
  rw [e]
  refine ⟨fun _ => roundClamp_of_some (by norm_num), fun negative h => ?_⟩
  rw [h]
  rfl

/-- R124. The coefficients of a block, operator by operator. -/
theorem dequantCoef_eq (f : RealFmt) (q : QBlock) : dequantCoef f q =
    ⟨div f (.num q.a.toNat) (.num 511), div f (mul f (.num q.b.toInt) (lit f (3 / 10))) (.num 15),
      div f (mul f (.num q.c.toInt) (lit f (3 / 10))) (.num 15),
      div f (mul f (.num q.d.toInt) (lit f (3 / 10))) (.num 15)⟩ := by
  simp only [dequantCoef, dequantG, ofInt, gLim_eq, Int.cast_natCast]
  rfl

/-- Settles O55: command by command the definitions are the written expressions, and with finite operands no free value
enters. -/
theorem everyOperatorIsOneOperationOfTheFormat : Obligations.EveryOperatorIsOneOperationOfTheFormat := by
  rintro s f hs rfl
  refine ⟨?_, ?_, ?_, ?_, ?_, ?_, ?_⟩
  · rintro px mv rn gn bn row hmv rfl rfl rfl hrow
    rw [exec_rgb2ypp_ok hs px hmv, hrow, hrow, hrow]
    simp only [lumaChroma, applyRow, normalize, ofInt, Int.cast_natCast]
  · intro y pb pr mv row r g b hmv hfin hrow hr hg hb
    have happly (m : Row3) : applyRow s.cfg.fmt m y pb pr = row m := (hrow m).symm
    rw [exec_ypp2rgb_ok hs hmv hfin, tristimulus, happly, happly, happly, channel_of_some hr, channel_of_some hg,
      channel_of_some hb]
  · intro y0 y1 y2 y3 hfin
    exact exec_of_rule_ok hs (by rw [rule, blkfwdOf, blkfwdAny_finite (y := ⟨y0, y1, y2, y3⟩) hfin, blkfwd])
  · intro a b c d hfin
    exact exec_of_rule_ok hs (by rw [rule, blkinvOf, blkinvAny_finite hfin, blkinv])
  · intro b0 b1 b2 b3 r0 r1 r2 r3 hfin
    have hmeans (free) := cavgAny_finite (f := s.cfg.fmt) (free := free) (pb := ⟨b0, b1, b2, b3⟩)
      (pr := ⟨r0, r1, r2, r3⟩) hfin
    exact exec_of_rule_ok hs (by rw [rule, cavgOf, hmeans, cavg, mean, mean])
  · intro k pb pr hfin
    obtain ⟨ha, hb, hc, hd, hpb, hpr⟩ := toQBlock_quantize s.cfg k ⟨pb, pr⟩
    refine ⟨_, exec_qfwd_ok hs hfin, ?_⟩
    simp only [allFinite, List.all_cons, List.all_nil, Bool.and_true, Bool.and_eq_true] at hfin
    obtain ⟨-, -, -, -, fpb, fpr⟩ := hfin
    obtain ⟨hround, hinf⟩ := quantA_cases s.cfg.fmt k.a
    refine ⟨fun v hv => ha.trans (hround v hv), fun negative h => ?_, hpb ▸ firstNearest_quantC s.cfg fpb,
      hpr ▸ firstNearest_quantC s.cfg fpr, ?_⟩
    · have := ha.trans (hinf negative h)
      split_ifs at this ⊢ <;> exact_mod_cast this
    · intro x code hmem
      simp only [List.mem_cons, Prod.mk.injEq, List.not_mem_nil, or_false] at hmem
      rcases hmem with ⟨rfl, rfl⟩ | ⟨rfl, rfl⟩ | ⟨rfl, rfl⟩
      · exact hb ▸ quantG_cases s.cfg.fmt _
      · exact hc ▸ quantG_cases s.cfg.fmt _
      · exact hd ▸ quantG_cases s.cfg.fmt _
  · intro q
    exact exec_of_rule_ok hs (by rw [rule, dequantCoef_eq]; rfl)

end Sys2Proof.Machine
end

section
/-! PROOFS. `DECBLK` (R146, R148): its chain of commands, and that no value on the way is an infinity or a NaN under any
`REAL_FMT`. -/

namespace Sys2Proof.Machine
open Reals

/-- A value of the format whose magnitude is at most `n`. -/
def Bounded (f : RealFmt) (n : Int) (x : RealVal) : Prop := isOfFormat f x = true ∧ Between (-n) n x

section
variable {f : RealFmt} {m n : Int} {x y : RealVal}

theorem Bounded.isFinite (h : Bounded f n x) : x.isFinite = true := h.2.isFinite

/-- R17. A rounded result keeps an integer bound of at most 23 bits. -/
theorem Bounded.of_isRounded {r : Rat} (hx : isOfFormat f x = true) (h : isRounded f r x) (hn : 0 ≤ n ∧ n ≤ 2 ^ 23)
    (h1 : -(n : Rat) ≤ r) (h2 : r ≤ n) : Bounded f n x := by
  have hfmt (k : Int) (hk : |k| ≤ 2 ^ 23) := isOfFormat_int f hk
  have hneg := hfmt (-n) (by rw [abs_neg, abs_of_nonneg hn.1]; exact hn.2)
  push_cast at hneg
  exact ⟨hx, .of_isRounded h hneg (hfmt n (by rw [abs_of_nonneg hn.1]; exact hn.2)) h1 h2⟩

theorem Bounded.add (hx : Bounded f m x) (hy : Bounded f n y) (h : 0 ≤ m + n ∧ m + n ≤ 2 ^ 23) :
    Bounded f (m + n) (add f x y) := by
  obtain ⟨hxf, p, hp, hp0, hp1⟩ := hx
  obtain ⟨hyf, q, hq, hq0, hq1⟩ := hy
  exact .of_isRounded (add_ofFormat hxf hyf) (add_rounded hxf hyf hp hq) h (by push_cast; linarith)
    (by push_cast; linarith)

theorem Bounded.neg (hx : Bounded f n x) : Bounded f n (neg f x) := by
  obtain ⟨hxf, p, hp, hp0, hp1⟩ := hx
  exact ⟨neg_ofFormat hxf, -p, neg_value hp, by linarith, by linarith⟩

theorem Bounded.sub (hx : Bounded f m x) (hy : Bounded f n y) (h : 0 ≤ m + n ∧ m + n ≤ 2 ^ 23) :
    Bounded f (m + n) (sub f x y) := hx.add hy.neg h

end

/-- R124. The average of a dequantized block is at most 1. -/
theorem bounded_dequantA (f : RealFmt) (q : QBlock) : Bounded f 1 (dequantCoef f q).a := by
  have hle : (q.a.toNat : Rat) ≤ 511 := by exact_mod_cast Nat.le_of_lt_succ q.a.isLt
  have h0 : (0 : Rat) ≤ q.a.toNat := by positivity
  have hfmt := ofFormat_dequantCoef f q
  simp only [Coef.ofFormat, Bool.and_eq_true] at hfmt
  obtain ⟨⟨⟨ha, -⟩, -⟩, -⟩ := hfmt
  have hround : isRounded f ((q.a.toNat : Rat) / 511) (dequantCoef f q).a := by
    have hne : (511 : Rat) ≠ 0 := by norm_num
    rw [dequantCoef_eq]
    exact div_rounded (x := .num q.a.toNat) (y := .num 511) rfl rfl hne
  exact .of_isRounded ha hround (by norm_num) (by push_cast; linarith) (by push_cast; linarith)

/-- R124. A gradient of a dequantized block is at most 1, the code −16 included. -/
theorem bounded_dequantG (f : RealFmt) (code : S5) : Bounded f 1 (dequantG f code) := by
  obtain ⟨c, hlit, hc0, hc1⟩ := exists_lit_gLim f
  have hlo : (-16 : Rat) ≤ code.toInt := by exact_mod_cast BitVec.le_toInt code
  have hhi : (code.toInt : Rat) ≤ 15 := by exact_mod_cast Int.le_of_lt_add_one (BitVec.toInt_lt (x := code))
  have hfmt := ofFormat_dequantG f code
  obtain ⟨v, hv, hv0, hv1⟩ : Between (-8 : Int) (8 : Int) (mul f (ofInt code.toInt) (lit f Params.gLim)) := by
    rw [hlit]
    exact .of_isRounded (mul_rounded rfl rfl) (isOfFormat_int f (by norm_num)) (isOfFormat_int f (by norm_num))
      (by push_cast; nlinarith) (by push_cast; nlinarith)
  push_cast at hv0 hv1
  have hmax : ((Params.gMax : Int) : Rat) = 15 := rfl
  have hne : ((Params.gMax : Int) : Rat) ≠ 0 := by rw [hmax]; norm_num
  exact .of_isRounded hfmt (div_rounded hv rfl hne) (by norm_num) (by rw [hmax]; push_cast; linarith)
    (by rw [hmax]; push_cast; linarith)

/-- R146. The luma samples of a dequantized block are finite. -/
theorem finite_blkinv_dequant (f : RealFmt) (q : QBlock) : allFinite (blkinv f (dequantCoef f q)).toList = true := by
  have ha := bounded_dequantA f q
  have hb : Bounded f 1 (dequantCoef f q).b := bounded_dequantG f q.b
  have hc : Bounded f 1 (dequantCoef f q).c := bounded_dequantG f q.c
  have hd : Bounded f 1 (dequantCoef f q).d := bounded_dequantG f q.d
  have hsum := ha.add hb (by norm_num)
  have hdiff := ha.sub hb (by norm_num)
  simp only [allFinite, Quad.toList, blkinv, List.all_cons, List.all_nil, Bool.and_true, Bool.and_eq_true]
  exact ⟨((hdiff.sub hc (by norm_num)).add hd (by norm_num)).isFinite,
    ((hdiff.add hc (by norm_num)).sub hd (by norm_num)).isFinite,
    ((hsum.sub hc (by norm_num)).sub hd (by norm_num)).isFinite,
    ((hsum.add hc (by norm_num)).add hd (by norm_num)).isFinite⟩

theorem finite_dequantCoef (f : RealFmt) (q : QBlock) : allFinite [(dequantCoef f q).a, (dequantCoef f q).b,
    (dequantCoef f q).c, (dequantCoef f q).d] = true := by
  have hb (x : S5) := (bounded_dequantG f x).isFinite
  simp only [allFinite, List.all_cons, List.all_nil, Bool.and_true, Bool.and_eq_true]
  exact ⟨(bounded_dequantA f q).isFinite, hb q.b, hb q.c, hb q.d⟩

/-- R121. The entries of an admissible table are finite. -/
theorem finite_entry {c : Config} (hadm : c.admissible = true) (i : U4) : (c.entry i).isFinite = true := by
  simp only [Config.admissible, Bool.and_eq_true, Config.tableInRange, List.all_eq_true] at hadm
  have hrange := hadm.2 i (mem_indices i)
  have hnan := lit_ne_nan c.fmt (c.chromaTable[i.toNat]'i.isLt)
  cases he : c.entry i with
  | num q => rfl
  | negZero => rfl
  | inf negative => cases negative <;> simp [he, lt] at hrange
  | nan => exact absurd he hnan

/-- R102. Every channel `YPP2RGB` ends with for finite operands lies in `0 .. max_value`. -/
theorem ypp2rgbOf_channels_le {c : Config} {y pb pr : RealVal} {mv : U8} {p : Pixel} (hmv : mv ≠ 0)
    (hfin : allFinite [y, pb, pr] = true) (h : ypp2rgbOf c y pb pr mv = .ok p) :
    p.r.toNat ≤ mv.toNat ∧ p.g.toNat ≤ mv.toNat ∧ p.b.toNat ≤ mv.toNat := by
  rw [ypp2rgbOf, ypp2rgb_of_finite _ _ hmv hfin] at h
  cases h
  exact tristimulus_channels_le c _ y pb pr mv

/-- Settles O52: the chain is `exists_decblk_chain`; a dequantized block's coefficients and luma samples are small
(`finite_dequantCoef`, `finite_blkinv_dequant`) and its chroma entries finite under an admissible table
(`finite_entry`), so every channel is within `max_value` (`ypp2rgbOf_channels_le`). -/
theorem decodeBlockIsTheComposition : Obligations.DecodeBlockIsTheComposition := by
  refine fun word mv s hs => ⟨?_, fun hmv => ?_⟩
  · rintro rfl
    exact exec_maxValueZero hs rfl
  · obtain ⟨p, h0, h1, h2, h3, hdec⟩ := exists_decblk_chain s.cfg word hmv
    refine ⟨_, _, _, _, p, exec_unpack_ok hs word, exec_of_rule_ok hs rfl, exec_of_rule_ok hs rfl,
      exec_of_rule_ok hs (by simp [rule, h0]), exec_of_rule_ok hs (by simp [rule, h1]),
      exec_of_rule_ok hs (by simp [rule, h2]), exec_of_rule_ok hs (by simp [rule, h3]),
      exec_of_rule_ok hs (by simp [rule, hdec]), fun hadm => ?_⟩
    have hcoef := finite_dequantCoef s.cfg.fmt (unpack word)
    have hluma := finite_blkinv_dequant s.cfg.fmt (unpack word)
    have hpb := finite_entry hadm (unpack word).pbIndex
    have hpr := finite_entry hadm (unpack word).prIndex
    rw [blkinvOf, blkinvAny_finite hcoef] at h0 h1 h2 h3 ⊢
    simp only [allFinite, Quad.toList, List.all_cons, List.all_nil, Bool.and_true, Bool.and_eq_true] at hcoef hluma
    obtain ⟨ha, hb, hc, hd⟩ := hcoef
    obtain ⟨hy0, hy1, hy2, hy3⟩ := hluma
    have hle {y : RealVal} {p : Pixel} (hy : y.isFinite = true)
        (h : ypp2rgbOf s.cfg y (s.cfg.entry (unpack word).pbIndex) (s.cfg.entry (unpack word).prIndex) mv = .ok p) :=
      ypp2rgbOf_channels_le hmv (by simp [allFinite, hy, hpb, hpr]) h
    refine ⟨by simp [allFinite, Quad.toList, dequantChroma, ha, hb, hc, hd, hpb, hpr, hy0, hy1, hy2, hy3], ?_⟩
    simp only [Quad.toList, List.forall_mem_cons, List.not_mem_nil, false_implies, implies_true, and_true]
    exact ⟨hle hy0 h0, hle hy1 h1, hle hy2 h2, hle hy3 h3⟩

end Sys2Proof.Machine
end
